-- ==== Sys2Proof/Word.lean ====
section
/-! DEFINITION. The word and byte types of custom_hash_core (spec/00_scope.md R7, R8). -/

namespace Sys2Proof

/-- A *word*: an unsigned 32-bit integer, bit 0 the least significant (R8). -/
abbrev Word := BitVec 32

/-- A *byte*: an unsigned 8-bit integer (R8). -/
abbrev Byte := BitVec 8

/-- The 64-byte block operand as the 512-bit `block` port carries it (R32). -/
abbrev Block := BitVec 512

/-- A chaining state: eight words, index `i` is the source's "word i" (R20). -/
abbrev Words8 := Vector Word 8

/-- A table of 64 words: the message schedule `W` (R23) and the round constants `K` (R30). -/
abbrev Words64 := Vector Word 64

end Sys2Proof
end

