-- ==== Sys2Proof/Syntax.lean ====
section
/-! DEFINITION. The six encoded operations (spec/opcode_table.json), the words that carry them at the two ports
(spec/30_encoding.md R70, R78), what the host does with an instance (R211), and the script lines in which a run is
written down (R79, R80). -/

namespace Sys2Proof

/-- One constructor per row of spec/opcode_table.json. `idle`, `init`, `next` are the commands of the core (format C,
R71); `construct`, `updateByte`, `finalize` are the operations of the framing layer (format F, R78). Field bits that
the spec calls ignored are no part of the instruction (R73, R74, R78). -/
inductive Instr where
  /-- `IDLE` (R141). -/
  | idle
  /-- `INIT` (R142). -/
  | init
  /-- `NEXT block` (R143). -/
  | next (block : Block)
  /-- `CONSTRUCT` (R101). -/
  | construct
  /-- `UPDATE_BYTE b` (R102). -/
  | updateByte (b : Byte)
  /-- `FINALIZE` (R120). -/
  | finalize
  deriving DecidableEq, Repr

/-- The word a port holds at the instant it is sampled: a 514-bit command word at the core's port (R70) or a 10-bit
operation word at the framing layer's (R78). -/
inductive PortWord where
  | core (w : BitVec 514)
  | framing (w : BitVec 10)
  deriving DecidableEq, Repr

/-- The outputs a host may observe (R28, R211). -/
inductive Signal where
  | ready
  | digestValid
  | digest
  deriving DecidableEq, Repr

/-- One thing asked of an instance. R211 lists everything a host can ask. -/
inductive Action where
  /-- The `reset` event (R220): not a command, it has no encoding. -/
  | reset
  /-- The instance's one driver presents a word at a port (R70, R78). -/
  | present (w : PortWord)
  /-- The operation `UPDATE bytes` of R103, whole: it has no encoding. The script's line `UPDATE` is not this but its
  expansion (R80). -/
  | update (bytes : List Byte)
  /-- The checks that `UPDATE` makes once for its whole sequence of `n` bytes, before anything is written (R80, R103,
  R107). -/
  | checkUpdate (n : Nat)
  /-- The host reads an output. `observe .digest` is the script's `READ` (R155). -/
  | observe (sig : Signal)
  /-- An agent that is not the instance's driver presents a word (R198, R227). -/
  | foreign (w : PortWord)
  deriving DecidableEq, Repr

/-- What the host waits for before it takes a line. -/
inductive Wait where
  /-- Nothing: the script's `NEXT!` and `INIT!`, which write down what a host that keeps the rules never does (R79), and a
  reset in the middle of something (R220, R221). -/
  | no
  /-- That no operation is in progress which changes `fe_phase` when it returns: the `UPDATE` of no byte, whose checks are
  about the phase and which is otherwise nothing at all (R61, R80, R193). -/
  | phase
  /-- That all it asked earlier has completed, which for the core is `ready = 1` (R61, R79, R223): every other line. -/
  | completion
  deriving DecidableEq, Repr

/-- An action, and what the host waits for before it. -/
structure HostLine where
  wait : Wait
  act : Action
  deriving DecidableEq, Repr

/-- The lines of the spec's script language and its pseudo-operations (R79, R80). `nextNow` and `initNow` are the
lines `NEXT!` and `INIT!`. A block is written as its bytes in message order. -/
inductive ScriptLine where
  | reset
  | idle
  | init
  | next (bytes : List Byte)
  | read
  | construct
  | updateByte (b : Byte)
  | finalize
  | nextNow (bytes : List Byte)
  | initNow
  | update (bytes : List Byte)
  | updateText (text : List Char)
  | hash (bytes : List Byte)
  | hashText (text : List Char)
  | compress (bytes : List Byte)
  deriving DecidableEq, Repr

end Sys2Proof
end

