-- ==== Sys2Proof/WellFormed.lean ====
section
/-! DEFINITION. Well-formedness: what the spec asks of a term beyond its type. -/

namespace Sys2Proof

/-- Every value of every operand is legal: all `2^512` blocks (R75), all 256 bytes (R102); the other four carry no
operand. The operand widths are in the types. -/
def Instr.wf : Instr → Bool
  | .idle => true
  | .init => true
  | .next _ => true
  | .construct => true
  | .updateByte _ => true
  | .finalize => true

/-- How a number of `nbits` bits stands for a port word: a width that reaches 514 bits is a format C word, a smaller
one that reaches 10 bits a format F word (R70, R77, R78). -/
def tableWordIsCore (nbits : Nat) : Bool := 514 ≤ nbits

/-- A number of `nbits` bits is a word of one of the two formats: it is wide enough for the format, and it sets no bit
above the format's own width (R77: both formats have one fixed length). -/
def tableWordWf (nbits w : Nat) : Bool :=
  if tableWordIsCore nbits then w >>> 514 == 0 else 10 ≤ nbits && w >>> 10 == 0

/-- A text is ASCII (R80). -/
def asciiText (text : List Char) : Bool := text.all fun c => c.toNat < 128

/-- A script line is one the script language has: a block is exactly 64 bytes (R56, R79), a text is ASCII (R80). -/
def ScriptLine.wf : ScriptLine → Bool
  | .reset => true
  | .idle => true
  | .init => true
  | .next bytes => bytes.length == 64
  | .read => true
  | .construct => true
  | .updateByte _ => true
  | .finalize => true
  | .nextNow bytes => bytes.length == 64
  | .initNow => true
  | .update _ => true
  | .updateText text => asciiText text
  | .hash _ => true
  | .hashText text => asciiText text
  | .compress bytes => bytes.length == 64

end Sys2Proof
end

