-- ==== Sys2Proof/Decode.lean ====
section
/-! DEFINITION. The decoder of the two port words, total, and after it the encoder (spec/30_encoding.md R70 to R78;
spec/opcode_table.json). -/

namespace Sys2Proof

/-- Why a port word carries no instruction. -/
inductive DecodeError where
  /-- `cmd = 11` is reserved (R71, R76). -/
  | reservedCommand
  /-- `fop = 00` is not an operation: nothing is presented (R78). -/
  | nothingPresented
  deriving DecidableEq, Repr

/-- `cmd` = bits 513:512 of a command word (R70). -/
def cmdField (w : BitVec 514) : BitVec 2 := w.extractLsb' 512 2

/-- `block` = bits 511:0 of a command word (R70). -/
def blockField (w : BitVec 514) : Block := w.extractLsb' 0 512

/-- `fop` = bits 9:8 of an operation word (R78). -/
def fopField (w : BitVec 10) : BitVec 2 := w.extractLsb' 8 2

/-- `byte` = bits 7:0 of an operation word (R78). -/
def byteField (w : BitVec 10) : Byte := w.extractLsb' 0 8

/-- Format C (R71, R73 to R76): the decoder reads `cmd` and nothing else to tell the command (R77). -/
def decodeCore (w : BitVec 514) : Except DecodeError Instr :=
  if cmdField w = 0b00#2 then .ok .idle
  else if cmdField w = 0b01#2 then .ok .init
  else if cmdField w = 0b10#2 then .ok (.next (blockField w))
  else .error .reservedCommand

/-- Format F (R78): the decoder reads `fop` and nothing else to tell the operation (R77). -/
def decodeFraming (w : BitVec 10) : Except DecodeError Instr :=
  if fopField w = 0b00#2 then .error .nothingPresented
  else if fopField w = 0b01#2 then .ok .construct
  else if fopField w = 0b10#2 then .ok (.updateByte (byteField w))
  else .ok .finalize

/-- The decoder: total on every word of either port. -/
def decode : PortWord → Except DecodeError Instr
  | .core w => decodeCore w
  | .framing w => decodeFraming w

/-- A number with no bit at or above bit `n` is an `n`-bit word. -/
theorem lt_two_pow_of_shiftRight {n w : Nat} (h : w >>> n = 0) : w < 2 ^ n := by
  rw [Nat.shiftRight_eq_div_pow] at h
  exact (Nat.div_eq_zero_iff_lt (Nat.two_pow_pos n)).1 h

/-- The `n`-bit word of a number that sets no bit above it. -/
def wordOfNat? (n w : Nat) : Option (BitVec n) :=
  if h : w >>> n = 0 then some (BitVec.ofNatLT w (lt_two_pow_of_shiftRight h)) else none

/-- The port word that a number of `nbits` bits stands for, bit 0 the least significant. -/
def portWordOfTable (nbits w : Nat) : Option PortWord :=
  if tableWordWf nbits w then
    if tableWordIsCore nbits then (wordOfNat? 514 w).map .core else (wordOfNat? 10 w).map .framing
  else none

/-- The instruction the decoder reads from a word numbered as spec/opcode_table.json numbers it. The table's widths
are 514 and 10 bits; in whole bytes 520 and 16. Assumption log 10. -/
def decodeTableWord (nbits w : Nat) : Option Instr :=
  match portWordOfTable nbits w with
  | none => none
  | some p =>
    match decode p with
    | .ok i => some i
    | .error _ => none

/-- The word of an instruction (R71 to R75, R78). Ignored bits are written as zeros. -/
def encode : Instr → PortWord
  | .idle => .core (0b00#2 ++ (0 : Block))
  | .init => .core (0b01#2 ++ (0 : Block))
  | .next block => .core (0b10#2 ++ block)
  | .construct => .framing (0b01#2 ++ (0 : Byte))
  | .updateByte b => .framing (0b10#2 ++ b)
  | .finalize => .framing (0b11#2 ++ (0 : Byte))

/-- A port word as a number, bit 0 the least significant (R8). -/
def PortWord.toNat : PortWord → Nat
  | .core w => w.toNat
  | .framing w => w.toNat

/-- The width of the word's format (R77). -/
def PortWord.width : PortWord → Nat
  | .core _ => 514
  | .framing _ => 10

/-- What spec/opcode_table.json gives a row: width, mask and match. -/
structure TableRow where
  width : Nat
  mask : Nat
  value : Nat
  deriving DecidableEq, Repr

/-- The row of spec/opcode_table.json that each constructor stands for (R73 to R75, R78). -/
def tableRow : Instr → TableRow
  | .idle => ⟨514, 3 <<< 512, 0 <<< 512⟩
  | .init => ⟨514, 3 <<< 512, 1 <<< 512⟩
  | .next _ => ⟨514, 3 <<< 512, 2 <<< 512⟩
  | .construct => ⟨10, 0x300, 0x100⟩
  | .updateByte _ => ⟨10, 0x300, 0x200⟩
  | .finalize => ⟨10, 0x300, 0x300⟩

/-- A port word fits a row: it has the row's width and agrees with the row's match on the bits of its mask. -/
def TableRow.fits (r : TableRow) (p : PortWord) : Bool :=
  p.width == r.width && (p.toNat &&& r.mask) == r.value

end Sys2Proof
end

