-- ==== Sys2Proof/Machine/Mixing.lean ====
section
/-! DEFINITION. The mixing primitives (spec/43_mixing_primitives.md R170 to R178, R182). None of them is the SHA-256
function of the same name. -/

namespace Sys2Proof.Machine

/-- `add32(x1, ..., xk)`: the sum modulo `2^32` (R170). -/
def add32 (xs : List Word) : Word := xs.foldl (· + ·) 0

/-- `rotr(x, n)`, circular right rotation, for `1 <= n <= 31` (R171). Outside that range it is unused
(spec/92_eei_decisions.md D26; assumption log 12). -/
def rotr (x : Word) (n : Nat) : Word := (x >>> n) ||| (x <<< (32 - n))

/-- `shr(x, n)`, logical right shift (R172). -/
def shr (x : Word) (n : Nat) : Word := x >>> n

/-- `Ch`, steered by its third argument (R173). -/
def ch (x y z : Word) : Word := (x &&& z) ||| (y &&& ~~~z)

/-- `Maj`, which is not the majority function (R174). -/
def maj (x y z : Word) : Word := (z &&& y) ||| ((~~~x) &&& y) ||| (z &&& x)

/-- `Σ0` (R175). -/
def bigSigma0 (x : Word) : Word := rotr x 17 ^^^ rotr x 23 ^^^ rotr x 30

/-- `Σ1` (R176). -/
def bigSigma1 (x : Word) : Word := rotr x 3 ^^^ rotr x 19 ^^^ rotr x 28

/-- `σ0` (R177). -/
def smallSigma0 (x : Word) : Word := rotr x 11 ^^^ rotr x 24 ^^^ shr x 3

/-- `σ1` (R178). -/
def smallSigma1 (x : Word) : Word := rotr x 29 ^^^ rotr x 31 ^^^ shr x 10

end Sys2Proof.Machine
end

