-- ==== Sys2Proof/Machine/Operands.lean ====
section
/-! DEFINITION. Operand and result forms: the bytes and words of the block operand (spec/30_encoding.md R72,
spec/20_memory.md R50 to R53, R66), the length field and the digest as a string (spec/43_mixing_primitives.md R179 to
R181) and as a port (spec/10_state.md R31). -/

namespace Sys2Proof.Machine

/-- Byte `j` of the block, `block[511-8j : 504-8j]` (R32, R72). -/
def blockByte (block : Block) (j : Nat) : Byte := block.extractLsb' (504 - 8 * j) 8

/-- `MemRead(BLOCK, addr, n)`: the `n` bytes from `addr`, lowest offset first (R66). -/
def memReadBlock (block : Block) (addr n : Nat) : List Byte :=
  (List.range n).map fun i => blockByte block (addr + i)

/-- The number a byte sequence is when read big-endian, first byte most significant (R51, R52). -/
def natOfBytes (bytes : List Byte) : Nat := bytes.foldl (fun acc b => acc * 256 + b.toNat) 0

/-- `be32`: four bytes as one word, first byte most significant (R179). -/
def be32 (bytes : List Byte) : Word := BitVec.ofNat 32 (natOfBytes bytes)

/-- Word `t` of the block, `0 <= t <= 15`: `be32(MemRead(BLOCK, 4t, 4))` (R72, R146). -/
def blockWord (block : Block) (t : Nat) : Word := be32 (memReadBlock block (4 * t) 4)

/-- The `block` port for a sequence of exactly 64 bytes: the port read as one 512-bit big-endian number is the bytes in
message order (R51, R109). -/
def blockOfBytes (bytes : List Byte) : Block := BitVec.ofNat 512 (natOfBytes bytes)

/-- The 64 bytes of a block in message order. -/
def blockBytes (block : Block) : List Byte := memReadBlock block 0 64

/-- `be64bytes(v)`: byte `k` is `v[63-8k : 56-8k]` (R180). -/
def be64bytes (v : BitVec 64) : List Byte := (List.range 8).map fun k => v.extractLsb' (56 - 8 * k) 8

/-- `zeros(n)` (R8). -/
def zeros (n : Nat) : List Byte := List.replicate n 0

/-- The digits of `hex8`, `0123456789abcdef` (R127, R181). -/
def hexAlphabet : List Char :=
  ['0', '1', '2', '3', '4', '5', '6', '7', '8', '9', 'a', 'b', 'c', 'd', 'e', 'f']

/-- The lowercase hexadecimal digit of four bits (R181). -/
def hexDigit (v : BitVec 4) : Char := hexAlphabet.getD v.toNat '0'

/-- `hex8(w)`: character `k` is the digit of `w[31-4k : 28-4k]` (R181). -/
def hex8 (w : Word) : List Char := (List.range 8).map fun k => hexDigit (w.extractLsb' (28 - 4 * k) 4)

/-- `hex8(H[0]) ++ ... ++ hex8(H[7])` (R127). -/
def digestString (H : Words8) : List Char := H.toList.flatMap hex8

/-- `digest[255:0] = H[0] ‖ H[1] ‖ ... ‖ H[7]`, `H[0]` in bits 255:224 (R31). -/
def digestOf (H : Words8) : BitVec 256 :=
  H[0] ++ H[1] ++ H[2] ++ H[3] ++ H[4] ++ H[5] ++ H[6] ++ H[7]

end Sys2Proof.Machine
end

