-- ==== Sys2Proof/Config.lean ====
section
/-! DEFINITION. What the spec leaves OPEN (spec/00_scope.md R4; spec/92_eei_decisions.md D13, D14):
constants with no body, so that nothing can be proved of their values. -/

namespace Sys2Proof

/-- The initial vector `IV[0..7]`: fixed for the hardware, its values not in the source (R4, R29, D13).
Assumption log 1. -/
opaque Config.iv : Words8

/-- The round-constant table `K[0..63]`: fixed for the hardware, its values not in the source (R4, R30, D13).
Assumption log 1. -/
opaque Config.k : Words64

/-- How many clock cycles beyond the first `INIT` takes. -/
opaque Config.initExtraCycles : Nat

/-- How many clock cycles beyond the first `NEXT` takes. -/
opaque Config.nextExtraCycles : Nat

/-- `T_INIT >= 1`, OPEN: no rule depends on it and the step function reads no time (R229, D14). Assumption log 11. -/
def Config.tInit : Nat := Config.initExtraCycles + 1

/-- `T_NEXT >= 1`, OPEN: no rule depends on it and the step function reads no time (R229, D14). Assumption log 11. -/
def Config.tNext : Nat := Config.nextExtraCycles + 1

end Sys2Proof
end

