-- ==== Sys2Proof/Machine/State.lean ====
section
/-! DEFINITION. The state of one engine: the core, the constant tables, the framing layer and the host's side
(spec/10_state.md), the reasons a step can stop (spec/60_exceptions.md), and the state after reset (R37). -/

namespace Sys2Proof.Machine

/-- `phase` (R25). -/
inductive Phase where
  /-- `IDLE`: no compression in progress; a command is accepted. -/
  | idle
  /-- `BUSY`: a `NEXT` is in progress; `t` counts the rounds. -/
  | busy
  deriving DecidableEq, Repr

/-- `fe_phase`, the lifecycle phase of the framing layer (R35). -/
inductive FePhase where
  | unconstructed
  | accumulating
  | finalized
  deriving DecidableEq, Repr

/-- The eight working registers `a..h` (R22). -/
structure Working where
  a : Word
  b : Word
  c : Word
  d : Word
  e : Word
  f : Word
  g : Word
  h : Word
  deriving DecidableEq, Repr

/-- What the host got from the machine: the value of an output it read (R58, R155), or the string a `FINALIZE`
returned (R120, the space `DIGEST_STR` of R50). -/
inductive Observation where
  | ready (v : Bool)
  | digestValid (v : Bool)
  | digest (v : BitVec 256)
  | digestStr (chars : List Char)
  deriving DecidableEq, Repr

/-- Where a framing operation goes on once the block it has handed over is compressed: the lines that follow its
`COMPRESS_STEP` (R102, R103, R120). -/
inductive AfterBlock where
  /-- The drain loop of an update tests its condition again (R103, R108); nothing is left to do after `UPDATE_BYTE`'s one
  block (R102). -/
  | drain
  /-- `FINALIZE` clears the buffer and goes on with step 4, with the length it captured in step 1 (R121, R123, R124). -/
  | padSecond (originalLength : BitVec 64)
  /-- `FINALIZE` returns the digest (R127, R128). -/
  | digest
  deriving DecidableEq, Repr

/-- What the framing layer is in the middle of. It has one operation at a time in progress, and each returns only after
its `NEXT`s have completed (R61, R100). -/
inductive FramingTask where
  /-- No operation is in progress. -/
  | nothing
  /-- `CONSTRUCT` waits until `ready = 1`, to present `INIT` (R101). -/
  | construct
  /-- `COMPRESS_STEP` waits until `ready = 1`, to present `NEXT` with this block (R109, its first wait). -/
  | present (block : Block) (after : AfterBlock)
  /-- `COMPRESS_STEP` waits until `ready = 1`, its `NEXT` accepted (R109, its second wait). -/
  | await (after : AfterBlock)
  deriving DecidableEq, Repr

/-- The core command a fault records (spec/60_exceptions.md section 3, column "info recorded"). -/
inductive CoreCommand where
  | init
  | next
  deriving DecidableEq, Repr

/-- The framing operation a fault records (spec/60_exceptions.md section 3, column "info recorded"). -/
inductive FramingOp where
  | updateByte
  | update
  | finalize
  deriving DecidableEq, Repr

/-- The faults of spec/60_exceptions.md section 3 with what each records. Each ends the run, as R191 asks of a model:
safe, since no claim can be made about what follows. -/
inductive Fault where
  /-- Code 1 (R192). Raised by `UPDATE_BYTE` and `UPDATE` when the bit count would reach `2^64`. Safe. -/
  | lengthOverflow (attemptedBytes : Nat)
  /-- Code 2 (R193). Raised by `UPDATE_BYTE`, `UPDATE` and `FINALIZE` in phase `FINALIZED`. Safe. -/
  | useAfterFinalize (op : FramingOp)
  /-- Code 3 (R194). Raised by `UPDATE_BYTE`, `UPDATE` and `FINALIZE` in phase `UNCONSTRUCTED`. Safe. -/
  | notConstructed (op : FramingOp)
  /-- Code 4 (R195). Raised by `INIT` and `NEXT` presented while `phase = BUSY`. Safe. -/
  | coreBusyViolation (cmd : CoreCommand)
  /-- Code 5 (R196). Raised by `NEXT` when no `INIT` has been accepted since reset. Safe. -/
  | coreUninitialised
  /-- Code 6 (R197). Raised by `cmd = 11`, in either phase. Safe. -/
  | reservedCommand
  deriving DecidableEq, Repr

/-- The steps the spec tells a model to refuse. -/
inductive Refusal where
  /-- An instruction that has no meaning yet (no arm of this model uses it). Safe. -/
  | notModelled (mnemonic : String)
  /-- A read of `digest` while `digest_valid = 0`: "a model returns no value for it (refuses the read)" (R199, R225).
  Raised by `Action.observe .digest`. Safe. -/
  | digestNotValid
  /-- `ConcurrentAccess`, code 7: "A model gives the second agent no step (it is refused)" (R198, R227).
  Raised by `Action.foreign`, and by an instruction or an `UPDATE` asked while a framing operation is in progress, which
  no one but a second driver can ask (R61, R198; assumption log 8). Safe. -/
  | concurrentAccess
  deriving DecidableEq, Repr

/-- The state of one engine and of the host that drives it. -/
structure State where
  /-- The chaining state `H[0..7]` (R20, R21). -/
  H : Words8
  /-- At least one `INIT` was accepted since reset, that is, `H` holds a value (R26, R37, R196). -/
  initSinceReset : Bool
  /-- The working registers `a..h` (R22). -/
  regs : Working
  /-- The message schedule `W[0..63]` (R23). -/
  W : Words64
  /-- The round counter `t`, values 0 to 64 (R24). -/
  t : Fin 65
  /-- `phase` (R25). -/
  phase : Phase
  /-- The flag and output `ready` (R26). -/
  ready : Bool
  /-- The flag and output `digest_valid` (R26). -/
  digestValid : Bool
  /-- The initial vector `IV[0..7]` (R29): nothing writes it. -/
  IV : Words8
  /-- The round constants `K[0..63]` (R30): nothing writes it. -/
  K : Words64
  /-- `pending_buffer`, oldest byte first (R33, R67). -/
  pendingBuffer : List Byte
  /-- `total_bit_length` (R34). -/
  totalBitLength : BitVec 64
  /-- `fe_phase` (R35). -/
  fePhase : FePhase
  /-- What the framing layer is in the middle of (R61, R101, R109; assumption log 9). -/
  task : FramingTask
  /-- The model's own field: what the host will still do, in order (R79; assumption log 3). -/
  script : List HostLine
  /-- The model's own field: what the host has got so far, oldest first (R120, R155; assumption log 4). -/
  observed : List Observation
  deriving DecidableEq, Repr

/-- The state after reset (R37). `H`, `a..h`, `W` and `t` are unspecified there: the zeros are the model's choice
(assumption log 2); no operation is in progress. `IV` and `K` hold the hardware's constant tables, whose values are OPEN. -/
def State.reset : State where
  H := Vector.replicate 8 0
  initSinceReset := false
  regs := ⟨0, 0, 0, 0, 0, 0, 0, 0⟩
  W := Vector.replicate 64 0
  t := 0
  phase := .idle
  ready := true
  digestValid := false
  IV := Config.iv
  K := Config.k
  pendingBuffer := []
  totalBitLength := 0
  fePhase := .unconstructed
  task := .nothing
  script := []
  observed := []

end Sys2Proof.Machine
end

