-- ==== Sys2Proof/Machine/Compression.lean ====
section
/-! DEFINITION. The block compression as pure functions (spec/42_core_compression.md R145 to R151, R154). -/

namespace Sys2Proof.Machine

/-- The schedule load: `W[0..15]` from the block, the other entries as they are (R146, R153 ACCEPT). -/
def loadSchedule (block : Block) (W : Words64) : Words64 :=
  Vector.ofFn fun t : Fin 64 => if t.val < 16 then blockWord block t.val else W[t.val]

/-- `add32(σ1(W[t-2]), W[t-7], σ0(W[t-15]), W[t-16])`, for `16 <= t <= 63` (R147). -/
def scheduleWord (W : Words64) (t : Fin 64) : Word :=
  add32 [smallSigma1 W[t.val - 2], W[t.val - 7], smallSigma0 W[t.val - 15], W[t.val - 16]]

/-- Entry `t` of the schedule made from the earlier ones; the first sixteen stand as loaded (R147, R153 ROUND). -/
def scheduleStep (W : Words64) (t : Fin 64) : Words64 :=
  if 16 ≤ t.val then W.set t.val (scheduleWord W t) else W

/-- `Schedule(B)`: the 64 words of the message schedule (R146, R147). -/
def schedule (block : Block) : Words64 :=
  (List.finRange 64).foldl scheduleStep (loadSchedule block (Vector.replicate 64 0))

/-- The working-register load, `a = word0 ... h = word7` (R148). -/
def workingOf (H : Words8) : Working := ⟨H[0], H[1], H[2], H[3], H[4], H[5], H[6], H[7]⟩

/-- The working registers as a vector of eight words, `a` first (R21). -/
def workingWords (r : Working) : Words8 := #v[r.a, r.b, r.c, r.d, r.e, r.f, r.g, r.h]

/-- `T1 = h + Σ1(e) + Ch(e,f,g) + K[t] + W[t]` (R149). -/
def roundT1 (r : Working) (kt wt : Word) : Word := add32 [r.h, bigSigma1 r.e, ch r.e r.f r.g, kt, wt]

/-- `T2 = Σ0(a) + Maj(a,b,c)` (R149). -/
def roundT2 (r : Working) : Word := add32 [bigSigma0 r.a, maj r.a r.b r.c]

/-- One round: every right-hand side uses the values from before the round (R149). -/
def round (r : Working) (kt wt : Word) : Working where
  a := add32 [roundT1 r kt wt, roundT2 r]
  b := r.a
  c := r.b
  d := r.c
  e := add32 [r.d, roundT1 r kt wt]
  f := r.e
  g := r.f
  h := r.g

/-- The 64 rounds, `t = 0, 1, ..., 63` in this order (R150). -/
def runRounds (K W : Words64) (r : Working) : Working :=
  (List.finRange 64).foldl (fun r t => round r K[t.val] W[t.val]) r

/-- The feed-forward: `H[i] + (a..h)[i]` modulo `2^32`, word by word (R151). -/
def feedForward (H : Words8) (r : Working) : Words8 :=
  Vector.zipWith (fun x y => add32 [x, y]) H (workingWords r)

/-- `Compress(Hin, B, K)` (R145). -/
def compress (Hin : Words8) (block : Block) (K : Words64) : Words8 :=
  feedForward Hin (runRounds K (schedule block) (workingOf Hin))

/-- The sliding window of sixteen schedule words at `ACCEPT` (R154). -/
def windowLoad (block : Block) : Vector Word 16 := Vector.ofFn fun i : Fin 16 => blockWord block i.val

/-- The new word of the window, `add32(σ1(w[14]), w[9], σ0(w[1]), w[0])` (R154). -/
def windowNew (w : Vector Word 16) : Word := add32 [smallSigma1 w[14], w[9], smallSigma0 w[1], w[0]]

/-- `w[i] <- w[i+1]` for `i = 0..14`, `w[15] <- new` (R154). -/
def windowShift (w : Vector Word 16) (new : Word) : Vector Word 16 :=
  Vector.ofFn fun i : Fin 16 => if h : i.val < 15 then w[i.val + 1] else new

/-- One round over the window: the word it uses as `W[t]`, and the window after it (R154). -/
def windowStep (w : Vector Word 16) (t : Fin 64) : Word × Vector Word 16 :=
  if h : t.val < 16 then (w[t.val], w) else (windowNew w, windowShift w (windowNew w))

/-- The 64 rounds with only sixteen schedule words held (R154). -/
def runRoundsWindow (K : Words64) (block : Block) (r : Working) : Working :=
  ((List.finRange 64).foldl
    (fun (p : Working × Vector Word 16) t =>
      (round p.1 K[t.val] (windowStep p.2 t).1, (windowStep p.2 t).2))
    (r, windowLoad block)).1

end Sys2Proof.Machine
end

