-- ==== Sys2Proof/Machine/Flags.lean ====
section
/-! DEFINITION. What sets and clears `phase` and the two flags `ready` and `digest_valid` (spec/10_state.md R25, R26). -/

namespace Sys2Proof.Machine

/-- Acceptance of `NEXT`: `phase <- BUSY ; ready <- 0 ; digest_valid <- 0` (R143, R153). -/
def State.goBusy (s : State) : State := { s with phase := .busy, ready := false, digestValid := false }

/-- Completion of `NEXT`: `phase <- IDLE ; ready <- 1 ; digest_valid <- 1` (R152). -/
def State.goIdle (s : State) : State := { s with phase := .idle, ready := true, digestValid := true }

/-- Acceptance of `INIT`: `digest_valid <- 1`; `phase` stays `IDLE`, `ready` stays 1 (R142). From here on `H` holds a
value (R26). -/
def State.flagsOfInit (s : State) : State := { s with digestValid := true, initSinceReset := true }

end Sys2Proof.Machine
end

