-- ==== Sys2Proof/Machine/Ops.lean ====
section
/-! DEFINITION. The named operations over registers, buffer and outputs; faults; the reset event; the core's own steps;
COMPRESS_STEP (spec/10_state.md, spec/20_memory.md R66, R67, spec/42_core_compression.md R153, spec/70_reset_and_hazards.md R220). -/

namespace Sys2Proof.Machine

/-- What an operation answers. -/
abbrev Result := Host.Outcome State Fault Refusal

/-- The next operation runs on the state the first one left; a fault or a refusal stops. -/
def andThen (r : Result) (f : State → Result) : Result :=
  match r with
  | .next s => f s
  | .fault e => .fault e
  | .refused e => .refused e

/-- `raise F(info)` (R191, R202): the operation does not take place and nothing it would write is written; the outcome
is the fault. There is no trap entry: no state is saved, no mode changes, no handler is fetched, and there is no return
(R203). -/
def raise (f : Fault) : Result := .fault f

/-- The codes of spec/60_exceptions.md section 3: labels that no register holds (D20). -/
def faultCode : Fault → Nat
  | .lengthOverflow _ => 1
  | .useAfterFinalize _ => 2
  | .notConstructed _ => 3
  | .coreBusyViolation _ => 4
  | .coreUninitialised => 5
  | .reservedCommand => 6

/-- The code of the one named condition that a model refuses instead of faulting (R198). -/
def refusalCode (r : Refusal) : Option Nat := if r = .concurrentAccess then some 7 else none

/-- The `reset` event (R220, R221), in any phase. A framing operation in progress is abandoned with
everything else. `IV` and `K` are unaffected, and so are the host's own fields. What `H`, `a..h`, `W`, `t` hold afterwards
is unspecified: assumption log 2. -/
def State.resetEvent (s : State) : State :=
  { State.reset with IV := s.IV, K := s.K, script := s.script, observed := s.observed }

/-- `INIT`'s write of the chaining state, `H[i] <- IV[i]` (R142). -/
def State.loadIV (s : State) : State := { s with H := s.IV }

/-- `MemWrite(PBUF, len(PBUF), n, v)`: append at the end of `pending_buffer` (R66, R67). -/
def State.appendPending (s : State) (bytes : List Byte) : State :=
  { s with pendingBuffer := s.pendingBuffer ++ bytes }

/-- `MemRead(PBUF, 0, 64)`: the 64 oldest bytes (R66). -/
def State.frontBlock (s : State) : List Byte := s.pendingBuffer.take 64

/-- The buffer without its 64 oldest bytes (R67, R103). -/
def State.dropFrontBlock (s : State) : State := { s with pendingBuffer := s.pendingBuffer.drop 64 }

/-- `pending_buffer <- []`. -/
def State.clearPending (s : State) : State := { s with pendingBuffer := [] }

/-- `total_bit_length <- total_bit_length + 8 n` (R34, R107). -/
def State.countBytes (s : State) (n : Nat) : State :=
  { s with totalBitLength := s.totalBitLength + BitVec.ofNat 64 (8 * n) }

/-- `total_bit_length + 8 n >= 2^64`, in unbounded integers (R107). -/
def State.wouldOverflow (s : State) (n : Nat) : Bool := 2 ^ 64 ≤ s.totalBitLength.toNat + 8 * n

/-- The host gets a value (R120, R155). -/
def State.record (s : State) (o : Observation) : State := { s with observed := s.observed ++ [o] }

/-- The `digest` output: a plain view of `H`, with no register of its own (R31). -/
def State.digest (s : State) : BitVec 256 := digestOf s.H

/-- ACCEPT (R153): `W[0..15]` from the block, `a..h` from `H`, `t <- 0`, the core busy. -/
def State.acceptNext (s : State) (block : Block) : State :=
  { s with W := loadSchedule block s.W, regs := workingOf s.H, t := 0 }.goBusy

/-- ROUND (R153), for `t <= 63`. -/
def State.roundStep (s : State) (t : Fin 64) : State :=
  let W := scheduleStep s.W t
  { s with W := W, regs := round s.regs s.K[t.val] W[t.val], t := t.succ }

/-- FINISH (R153), for `t = 64`: the feed-forward (R151) and the completion (R152). -/
def State.finishStep (s : State) : State := { s with H := feedForward s.H s.regs }.goIdle

/-- The one step a busy core takes: ROUND while `t <= 63`, FINISH when `t = 64` (R153). -/
def State.coreStep (s : State) : State :=
  if h : s.t.val < 64 then s.roundStep ⟨s.t.val, h⟩ else s.finishStep

/-- The core samples `cmd = INIT` (R142, R195). -/
def State.sampleInit (s : State) : Result :=
  if s.phase = .busy then raise (.coreBusyViolation .init) else .next s.loadIV.flagsOfInit

/-- The core samples `cmd = NEXT` with a block (R143, R195, R196; the order of the faults: R201). -/
def State.sampleNext (s : State) (block : Block) : Result :=
  if s.phase = .busy then raise (.coreBusyViolation .next)
  else if s.initSinceReset = false then raise .coreUninitialised
  else .next (s.acceptNext block)

/-- What the framing layer is in the middle of, set (R61). -/
def State.setTask (s : State) (task : FramingTask) : State := { s with task := task }

/-- What follows the block in progress changes `fe_phase`: it ends a `FINALIZE` (R128). -/
def AfterBlock.changesPhase : AfterBlock → Bool
  | .drain => false
  | .padSecond _ => true
  | .digest => true

/-- The operation in progress changes `fe_phase` when it returns: a `CONSTRUCT` or a `FINALIZE` (R35). -/
def FramingTask.changesPhase : FramingTask → Bool
  | .nothing => false
  | .construct => true
  | .present _ after => after.changesPhase
  | .await after => after.changesPhase

/-- A framing operation starts only when none is in progress: each operation completes before the next begins, so one
that is asked for earlier comes from a second driver and has no step (R61, R198; assumption log 8). -/
def startOperation (f : State → Result) (s : State) : Result :=
  if s.task = .nothing then f s else .refused .concurrentAccess

/-- An operation of the framing layer that is legal while accumulating only, and the faults it raises in the other two
phases before anything is written (R193, R194, R201). -/
def guardPhase (op : FramingOp) (body : State → Result) (s : State) : Result :=
  match s.fePhase with
  | .unconstructed => raise (.notConstructed op)
  | .finalized => raise (.useAfterFinalize op)
  | .accumulating => body s

/-- A command for the idle core of an operation in progress comes from a second driver and has no step: the framing
layer is the only driver of its core (R100, R198; assumption log 8). -/
def coreCommand (f : State → Result) (s : State) : Result :=
  if s.phase = .idle ∧ s.task ≠ .nothing then .refused .concurrentAccess else f s

/-- `COMPRESS_STEP(B)` up to the acceptance of its `NEXT`, and where the operation goes on afterwards (R109): while the
core is busy the operation waits; an idle core is presented `NEXT` with the block, and the operation waits again. -/
def compressStep (block : Block) (after : AfterBlock) (s : State) : Result :=
  if s.phase = .busy then .next (s.setTask (.present block after))
  else andThen (s.sampleNext block) fun s' => .next (s'.setTask (.await after))

end Sys2Proof.Machine
end

