-- ==== Sys2Proof/Machine/CoreCommands.lean ====
section
/-! DEFINITION. The three commands of the core (spec/42_core_compression.md R141 to R143). -/

namespace Sys2Proof.Machine

/-- `IDLE` (R141): no state is read or written; legal in both phases. That a compression in progress continues is the
machine's own turn (`State.turn`), which the step function gives it. -/
def execIdle (s : State) : Result := .next s

/-- `INIT` (R142). -/
def execInit (s : State) : Result := coreCommand State.sampleInit s

/-- `NEXT block` (R143): its effect at acceptance. The 64 rounds and the completion are the core's own steps
(R153; assumption log 5). -/
def execNext (block : Block) (s : State) : Result := coreCommand (fun s' => s'.sampleNext block) s

end Sys2Proof.Machine
end

