-- ==== Sys2Proof/Machine/FramingFinalize.lean ====
section
/-! DEFINITION. The framing layer: padding, finalization and the digest string (spec/41_framing_finalize.md R120 to R128),
up to each point at which `FINALIZE` waits for `ready = 1` and on from it. -/

namespace Sys2Proof.Machine

/-- Step 2 (R122): append a single `0x80` byte. -/
def padByte (s : State) : State := s.appendPending [0x80]

/-- Step 3 (R123): zero-pad to 64 bytes. -/
def padBlock (s : State) : State := s.appendPending (zeros (64 - s.pendingBuffer.length))

/-- Steps 4 and 5 (R124, R125): zero-pad to 56 bytes, append the 8-byte big-endian length. -/
def padLength (L : BitVec 64) (s : State) : State :=
  (s.appendPending (zeros (56 - s.pendingBuffer.length))).appendPending (be64bytes L)

/-- The whole buffer goes to the core; it is emptied only afterwards (R123, R126, R128). -/
def compressBuffer (after : AfterBlock) (s : State) : Result :=
  compressStep (blockOfBytes s.pendingBuffer) after s

/-- Steps 4 to 6 (R124 to R126). -/
def padLastBlock (L : BitVec 64) (s : State) : Result := compressBuffer .digest (padLength L s)

/-- Steps 1 to 3 (R121 to R123; spec/90_conflicts.md C1): if the buffer exceeds 56 bytes with its `0x80`, it is zero-padded
to 64 and handed over first. -/
def finalize (s : State) : Result :=
  let s' := padByte s
  if 56 < s'.pendingBuffer.length then compressBuffer (.padSecond s.totalBitLength) (padBlock s')
  else padLastBlock s.totalBitLength s'

/-- Step 7 and the end of the operation (R127, R128): the buffer is emptied, the engine is finalized, and the host gets
the digest string. -/
def returnDigest (s : State) : State :=
  { s with pendingBuffer := [], fePhase := .finalized, task := .nothing }.record (.digestStr (digestString s.H))

/-- `FINALIZE` (R120), with the checks it makes before anything is written. -/
def execFinalize (s : State) : Result := startOperation (guardPhase .finalize finalize) s

end Sys2Proof.Machine
end

