-- ==== Sys2Proof/Machine/FramingUpdate.lean ====
section
/-! DEFINITION. The framing layer: construction and update (spec/40_framing_update.md R101 to R108). Each operation goes on
by itself up to the next point at which it waits for `ready = 1`; what it does there is told by the field `task`. -/

namespace Sys2Proof.Machine

/-- `CONSTRUCT` once the core is ready (R101): `INIT`, which leaves `ready = 1`, and a fresh engine. -/
def constructNow (s : State) : Result :=
  andThen s.sampleInit fun s' =>
    .next { s' with pendingBuffer := [], totalBitLength := 0, fePhase := .accumulating, task := .nothing }

/-- `CONSTRUCT`, "wait until ready = 1" first (R101). -/
def construct (s : State) : Result := if s.phase = .busy then .next (s.setTask .construct) else constructNow s

/-- `CONSTRUCT` (R101): legal in every `fe_phase`. -/
def execConstruct (s : State) : Result := startOperation construct s

/-- The drain loop's condition, and one trip of it (R103, R108): while the buffer holds 64 bytes or more, its 64 oldest
go to the core; with fewer the operation is over. -/
def drain (s : State) : Result :=
  if s.pendingBuffer.length < 64 then .next (s.setTask .nothing)
  else compressStep (blockOfBytes s.frontBlock) .drain s.dropFrontBlock

/-- The checks `UPDATE_BYTE` and `UPDATE` make before anything is written, then `body` (R102, R103, R201). -/
def guardUpdate (op : FramingOp) (n : Nat) (body : State → Result) : State → Result :=
  guardPhase op fun s => if s.wouldOverflow n then raise (.lengthOverflow n) else body s

/-- What `UPDATE_BYTE b` writes (R102): the byte, the count, and, when it is the 64th of a block, one `NEXT`. -/
def feedByte (b : Byte) (s : State) : Result :=
  let s' := (s.appendPending [b]).countBytes 1
  if s'.pendingBuffer.length = 64 then compressStep (blockOfBytes s'.frontBlock) .drain s'.clearPending else .next s'

/-- `UPDATE_BYTE b` (R102). -/
def execUpdateByte (b : Byte) (s : State) : Result := startOperation (guardUpdate .updateByte 1 (feedByte b)) s

/-- What `UPDATE bytes` writes (R103): the bytes, the count, then the drain loop. -/
def feedBytes (bytes : List Byte) (s : State) : Result := drain ((s.appendPending bytes).countBytes bytes.length)

/-- The checks of an `UPDATE` of `n` bytes, alone: nothing is written (R80, R103, R107). They come after an operation that
changes `fe_phase` has returned (R61); a compression in progress does not concern them. -/
def checkUpdate (n : Nat) (s : State) : Result :=
  if s.task.changesPhase then .refused .concurrentAccess else guardUpdate .update n .next s

/-- `UPDATE bytes` (R103), a pseudo-operation with no encoding (R80). -/
def opUpdate (bytes : List Byte) (s : State) : Result :=
  startOperation (guardUpdate .update bytes.length (feedBytes bytes)) s

end Sys2Proof.Machine
end

