-- ==== Sys2Proof/Machine/Dispatch.lean ====
section
/-! DEFINITION. One arm per instruction. -/

namespace Sys2Proof.Machine

def exec (i : Instr) (s : State) : Host.Outcome State Fault Refusal :=
  match i with
  | .idle => Sys2Proof.Machine.execIdle s
  | .init => Sys2Proof.Machine.execInit s
  | .next block => Sys2Proof.Machine.execNext block s
  | .construct => Sys2Proof.Machine.execConstruct s
  | .updateByte b => Sys2Proof.Machine.execUpdateByte b s
  | .finalize => Sys2Proof.Machine.execFinalize s

end Sys2Proof.Machine
end

