-- ==== Sys2Proof/Machine/Turn.lean ====
section
/-! DEFINITION. What the machine does by itself, while the host presents nothing: a busy core takes its step, and the
operation that waited for an idle core goes on (spec/42_core_compression.md R153; spec/40_framing_update.md R101, R109). -/

namespace Sys2Proof.Machine

/-- The operation in progress goes on, the core being ready: from the wait it stood in up to its next wait, or to its
end (R101, R103, R109, R123 to R128). -/
def State.resume (s : State) : Result :=
  match s.task with
  | .nothing => .next s
  | .construct => constructNow s
  | .present block after => compressStep block after s
  | .await .drain => drain s
  | .await (.padSecond L) => padLastBlock L s.clearPending
  | .await .digest => .next (returnDigest s)

/-- One turn of the machine: a busy core takes its one step (R153), for which a framing operation in progress waits
(R61, R109); with the core idle the operation goes on; with none in progress nothing changes (R140, R210). -/
def State.turn (s : State) : Result := if s.phase = .busy then .next s.coreStep else s.resume

/-- The machine is not done with what it was asked for: a `NEXT` or a framing operation is in progress. A host that waits
for its command or operation to complete waits while this holds (R61, R223). -/
def State.occupied (s : State) : Bool := s.phase == .busy || s.task != .nothing

/-- The host still waits for what a line of its waits for. -/
def State.waitsFor (s : State) (wait : Wait) : Bool :=
  match wait with
  | .no => false
  | .phase => s.task.changesPhase
  | .completion => s.occupied

end Sys2Proof.Machine
end

