-- ==== Sys2Proof/Machine/HostPort.lean ====
section
/-! DEFINITION. The host's side: words presented at the ports, the events and observations of spec/60_exceptions.md
R211, and the script lines with their expansions (spec/30_encoding.md R79, R80). -/

namespace Sys2Proof.Machine

/-- While the host presents `IDLE` or nothing at all, what is in progress continues (R140, R141, R223). -/
def State.afterCommand (i : Instr) (s : State) : Result := if i = .idle then s.turn else .next s

/-- A port samples a word: the instruction it decodes to is executed. `cmd = 11` is the fault `ReservedCommand` in
either phase (R76, R197); `fop = 00` is not an operation and changes nothing (R78). -/
def presentWord (w : PortWord) (s : State) : Result :=
  match decode w with
  | .ok i => andThen (exec i s) fun s' => s'.afterCommand i
  | .error .reservedCommand => raise .reservedCommand
  | .error .nothingPresented => s.turn

/-- The host reads an output: the read changes nothing but what the host knows (R58). `ready` and `digest_valid` may be
read at any time (R211), `digest` only while `digest_valid = 1`: otherwise the read is refused (R155, R199, R225). -/
def observe (sig : Signal) (s : State) : Result :=
  match sig with
  | .ready => .next (s.record (.ready s.ready))
  | .digestValid => .next (s.record (.digestValid s.digestValid))
  | .digest => if s.digestValid then .next (s.record (.digest s.digest)) else .refused .digestNotValid

/-- One action on the instance. -/
def act (a : Action) (s : State) : Result :=
  match a with
  | .reset => .next s.resetEvent
  | .present w => presentWord w s
  | .update bytes => opUpdate bytes s
  | .checkUpdate n => checkUpdate n s
  | .observe sig => observe sig s
  | .foreign _ => .refused .concurrentAccess

/-- The host's turn: with no line left, or while it waits before its next line for what it asked earlier to complete, the
command port is undriven, which is `IDLE` (R61, R223; spec/92_eei_decisions.md D4), and the machine takes its own turn;
otherwise the next line is taken. -/
def hostTurn (s : State) : Result :=
  match s.script with
  | [] => presentWord (encode .idle) s
  | line :: rest =>
    if s.waitsFor line.wait then presentWord (encode .idle) s
    else act line.act { s with script := rest }

/-- The state in which the very next step runs the instruction of a table word: the word is the host's next line, and
the host does not wait. A number that is no word of either port is not presented. -/
def placeTableWord (s : State) (nbits w : Nat) : State :=
  match portWordOfTable nbits w with
  | none => s
  | some p => { s with script := ⟨.no, .present p⟩ :: s.script }

/-- A line that presents an instruction's word once the machine is done with what came before (R61, R79). -/
def presentLine (i : Instr) : HostLine := ⟨.completion, .present (encode i)⟩

/-- A line that presents an instruction's word without waiting (R79). -/
def presentNowLine (i : Instr) : HostLine := ⟨.no, .present (encode i)⟩

/-- The reset event in the middle of whatever is in progress (R220, R221). The script language has no line for it: its own
`RESET` comes after the wait of the line before (R79; assumption log 3). -/
def resetNowLine : HostLine := ⟨.no, .reset⟩

/-- The ASCII byte of a character (R80). -/
def asciiByte (c : Char) : Byte := BitVec.ofNat 8 c.toNat

/-- `UPDATE`: its expansion into `UPDATE_BYTE` lines, each of which waits for the one before, after the checks that
`UPDATE` makes once for the whole sequence (R80). The checks wait as the first byte's line does. With no byte there is no
such line and nothing but the checks (R193, vector V60.11), so they wait for no compression, only for the `fe_phase` they
are about. That they are a line of their own is the model's choice (assumption log 16). -/
def updateLines (bytes : List Byte) : List HostLine :=
  match bytes with
  | [] => [⟨.phase, .checkUpdate 0⟩]
  | b :: bs => ⟨.completion, .checkUpdate (b :: bs).length⟩ :: (b :: bs).map fun b => presentLine (.updateByte b)

/-- `HASH`: `CONSTRUCT`, `UPDATE`, `FINALIZE` (R80). -/
def hashLines (bytes : List Byte) : List HostLine :=
  presentLine .construct :: updateLines bytes ++ [presentLine .finalize]

/-- What a script line that meets `ScriptLine.wf` asks of the instance, in order (R79, R80). The wait that ends a
line is made before the next one, `RESET` and `READ` too; `NEXT!` and `INIT!` skip it, and an `UPDATE` of no byte leaves it
to the line after it (assumption log 3, 16). -/
def expandLine : ScriptLine → List HostLine
  | .reset => [⟨.completion, .reset⟩]
  | .idle => [presentLine .idle]
  | .init => [presentLine .init]
  | .next bytes => [presentLine (.next (blockOfBytes bytes))]
  | .read => [⟨.completion, .observe .digest⟩]
  | .construct => [presentLine .construct]
  | .updateByte b => [presentLine (.updateByte b)]
  | .finalize => [presentLine .finalize]
  | .nextNow bytes => [presentNowLine (.next (blockOfBytes bytes))]
  | .initNow => [presentNowLine .init]
  | .update bytes => updateLines bytes
  | .updateText text => updateLines (text.map asciiByte)
  | .hash bytes => hashLines bytes
  | .hashText text => hashLines (text.map asciiByte)
  | .compress bytes => [presentLine (.next (blockOfBytes bytes))]

/-- A script as the host's lines. -/
def expandScript (lines : List ScriptLine) : List HostLine := lines.flatMap expandLine

end Sys2Proof.Machine
end

