-- ==== Sys2Proof/Safety.lean ====
section
/-! DEFINITION. The terms in which claims are stated: turns of the machine and the completion of what is in progress, the
invariants, when a run is over, what a host can tell apart, the blocks and the padding of a message, and which line a step takes. -/

namespace Sys2Proof.Machine

/-- `n` turns of the machine, the host presenting nothing, stopping at the first fault or refusal. -/
def State.turns : Nat → State → Result
  | 0, s => .next s
  | n + 1, s => andThen s.turn (State.turns n)

/-- How many turns a framing operation takes once the block it has handed over is compressed, with `pending` bytes in the
buffer: a turn that ends it, and 66 for each block still to come (R153, R230). -/
def AfterBlock.turnsLeft (pending : Nat) : AfterBlock → Nat
  | .drain => 1 + 66 * (pending / 64)
  | .padSecond _ => 67
  | .digest => 1

/-- How many turns an operation in progress takes from an idle core on. -/
def FramingTask.turnsLeft (pending : Nat) : FramingTask → Nat
  | .nothing => 0
  | .construct => 1
  | .present _ after => 66 + after.turnsLeft pending
  | .await after => after.turnsLeft pending

/-- How many turns the machine takes until nothing is in progress any more. -/
def State.turnsLeft (s : State) : Nat :=
  (if s.phase = .busy then 65 - s.t.val else 0) + s.task.turnsLeft s.pendingBuffer.length

/-- The machine when what is in progress has completed, the host presenting nothing meanwhile: the `NEXT`, and the framing
operation with every `NEXT` it issues (R61, R144). -/
def State.complete (s : State) : Result := s.turns s.turnsLeft

/-- An outcome, and then the completion of what it has left in progress. -/
def completed (r : Result) : Result := andThen r State.complete

/-- What the operation in progress goes on with when the block it hands over is compressed. -/
def FramingTask.after : FramingTask → Option AfterBlock
  | .nothing => none
  | .construct => none
  | .present _ after => some after
  | .await after => some after

/-- The operation in progress is `FINALIZE`: the buffer holds a whole padding block. -/
def FramingTask.finalizing (task : FramingTask) : Bool :=
  match task.after with
  | none => false
  | some .drain => false
  | some (.padSecond _) => true
  | some .digest => true

/-- The invariants the spec states of the machine. -/
structure Inv (s : State) : Prop where
  /-- `ready = 1` exactly when `phase = IDLE` (R26). -/
  ready_iff : s.ready = true ↔ s.phase = .idle
  /-- `digest_valid = 1` exactly when `phase = IDLE` and `H` holds a value (R26). -/
  digestValid_iff : s.digestValid = true ↔ s.phase = .idle ∧ s.initSinceReset = true
  /-- A busy core has a chaining value (R196: a `NEXT` is accepted only then). -/
  busy_init : s.phase = .busy → s.initSinceReset = true
  /-- The buffer never holds a whole block between operations (R33, R106). -/
  pending_lt : s.task = .nothing → s.pendingBuffer.length < 64
  /-- The low three bits of the counter are always 0 (R34). -/
  total_dvd : 8 ∣ s.totalBitLength.toNat
  /-- While accumulating, the buffer's length is the number of bytes fed, modulo 64 (R106), until padding is added. -/
  pending_total : s.fePhase = .accumulating → s.task.finalizing = false →
    s.pendingBuffer.length % 64 = s.totalBitLength.toNat / 8 % 64
  /-- Outside `ACCUMULATING` the buffer is empty (R33, R37, R128). -/
  pending_nil : s.fePhase ≠ .accumulating → s.pendingBuffer = []
  /-- An unconstructed engine has counted nothing (R37). -/
  total_zero : s.fePhase = .unconstructed → s.totalBitLength = 0
  /-- A constructed engine has a chaining value (R101). -/
  constructed_init : s.fePhase ≠ .unconstructed → s.initSinceReset = true
  /-- Only while accumulating has an operation a `NEXT` to issue (R102, R103, R120). -/
  task_phase : s.task.after ≠ none → s.fePhase = .accumulating
  /-- While `FINALIZE` waits for a padding block the buffer is that block (R123, R126). -/
  finalizing_length : s.task.finalizing = true → s.pendingBuffer.length = 64
  /-- Padding is not counted: the length that `FINALIZE` captured is still the counter's (R121). -/
  original_length : ∀ L, s.task.after = some (.padSecond L) → L = s.totalBitLength

/-- A framing-level run is over: `FINALIZE` has returned and the core is idle with a valid digest (R231). -/
def framingRunOver (s : State) : Prop :=
  s.fePhase = .finalized ∧ s.task = .nothing ∧ s.phase = .idle ∧ s.ready = true ∧ s.digestValid = true

/-- A core-level run is over: every command of the finite list has been taken and `ready = 1` is seen again (R231). -/
def coreRunOver (s : State) : Prop := s.script = [] ∧ s.task = .nothing ∧ s.phase = .idle ∧ s.ready = true

/-- Two states that agree on everything but what R36 says no port shows and no `NEXT` carries over: `a..h`, `W` and `t`
of an idle core. Of a busy core they agree on `a..h` and `t`, and on the schedule words already made (R22, R23). -/
structure SameButHidden (s s' : State) : Prop where
  H : s'.H = s.H
  initSinceReset : s'.initSinceReset = s.initSinceReset
  phase : s'.phase = s.phase
  ready : s'.ready = s.ready
  digestValid : s'.digestValid = s.digestValid
  IV : s'.IV = s.IV
  K : s'.K = s.K
  pendingBuffer : s'.pendingBuffer = s.pendingBuffer
  totalBitLength : s'.totalBitLength = s.totalBitLength
  fePhase : s'.fePhase = s.fePhase
  task : s'.task = s.task
  script : s'.script = s.script
  observed : s'.observed = s.observed
  busy_regs : s.phase = .busy → s'.regs = s.regs
  busy_t : s.phase = .busy → s'.t = s.t
  busy_W : s.phase = .busy → ∀ j : Fin 64, j.val < max 16 s.t.val → s'.W[j.val] = s.W[j.val]

/-- Block `i` of a byte stream, its bytes `64i .. 64i+63` (R129). -/
def blockAt (stream : List Byte) (i : Nat) : Block := blockOfBytes ((stream.drop (64 * i)).take 64)

/-- The chaining value after the first `n` blocks of a byte stream: `C_0 = H`, `C_(j+1) = Compress(C_j, B_j, K)`
(R157). -/
def chain (K : Words64) (H : Words8) (stream : List Byte) (n : Nat) : Words8 :=
  (List.range n).foldl (fun H i => compress H (blockAt stream i) K) H

/-- `z = (55 - n) mod 64` (R129). -/
def padZeros (n : Nat) : Nat := (55 + 64 - n % 64) % 64

/-- What `FINALIZE` appends to the message, for a partial block of `p` bytes and the length field `L` (R122 to
R125, R129). -/
def padding (p : Nat) (L : BitVec 64) : List Byte := [0x80] ++ zeros (padZeros p) ++ be64bytes L

/-- `P(M) = M ++ [0x80] ++ zeros(z) ++ be64bytes(8n)` (R129). -/
def paddedMessage (M : List Byte) : List Byte := M ++ padding M.length (BitVec.ofNat 64 (8 * M.length))

/-- The number of blocks of the padded form of a message of `n` bytes (R129). -/
def blockCount (n : Nat) : Nat := if n % 64 ≤ 55 then n / 64 + 1 else n / 64 + 2

/-- `n` steps of the machine, stopping at the first fault or refusal. -/
def runSteps : Nat → State → Result
  | 0, s => .next s
  | n + 1, s => andThen (step s) (runSteps n)

/-- The action the next step takes: none when no line is left or the host waits before its next one. -/
def takenAction (s : State) : Option Action :=
  match s.script with
  | [] => none
  | line :: _ => if s.waitsFor line.wait then none else some line.act

/-- The instruction the next step runs, where the line it takes presents one. -/
def takenInstr (s : State) : Option Instr :=
  match takenAction s with
  | some (.present w) => (decode w).toOption
  | _ => none

/-- Two outcomes a host cannot tell apart: next states that agree but for hidden state, or the same stop. -/
def sameOutcome : Result → Result → Prop
  | .next s, .next s' => SameButHidden s s'
  | .fault e, .fault e' => e = e'
  | .refused e, .refused e' => e = e'
  | _, _ => False

end Sys2Proof.Machine
end

