-- ==== Sys2Proof/Certificates/Slice0/Obligations.lean ====
section
/-! DEFINITION. The statements for the provers, in the order of the spec's files: encoding (30), primitives (43),
schedule and rounds (42), the core's commands and steps (42, 60, 70), the framing layer (40, 41), faults, observation and
reset (60, 70), and the rules about the whole machine. `s.complete` is the state in which what `s` has in progress has
completed, `completed r` the completed outcome: the waits of R101 and R109 are turns of the machine (assumption log 9). -/

open Sys2Proof Sys2Proof.Machine

/-! ### Encoding -/

/-- R70 to R75, R78: no bit of an operand is lost by the encoding, for every instruction. -/
def Obligations.DecodeEncodeRoundTrip : Prop :=
  ∀ i : Instr, i.wf = true → decode (encode i) = .ok i

/-- R71, R73, R74, R75, R76: `cmd` alone tells the command, every value of `block` is legal, and `cmd = 11` is refused
with the fault `ReservedCommand` in either phase. -/
def Obligations.CommandWordsDecodeByCmd : Prop :=
  ∀ block : Block,
    decode (.core (0b00#2 ++ block)) = .ok .idle ∧
    decode (.core (0b01#2 ++ block)) = .ok .init ∧
    decode (.core (0b10#2 ++ block)) = .ok (.next block) ∧
    decode (.core (0b11#2 ++ block)) = .error .reservedCommand ∧
    ∀ s : State, presentWord (.core (0b11#2 ++ block)) s = .fault .reservedCommand

/-- R78: `fop` alone tells the operation, `byte` is used by `UPDATE_BYTE` as it is, and `fop = 00` is no operation and
changes nothing; what is in progress goes on (assumption log 17). -/
def Obligations.OperationWordsDecodeByFop : Prop :=
  ∀ b : Byte,
    decode (.framing (0b00#2 ++ b)) = .error .nothingPresented ∧
    decode (.framing (0b01#2 ++ b)) = .ok .construct ∧
    decode (.framing (0b10#2 ++ b)) = .ok (.updateByte b) ∧
    decode (.framing (0b11#2 ++ b)) = .ok .finalize ∧
    ∀ s : State, presentWord (.framing (0b00#2 ++ b)) s = s.turn ∧
      (s.phase = .idle → s.task = .nothing → s.turn = .next s)

/-- The words of spec/95_test_vectors.md V30.1 to V30.9, written out as numbers, decode to what they stand for. That a
number of 520 bits is a command word and one of 16 bits an operation word is the model's choice (assumption log 10). -/
def Obligations.SampleWordsDecode : Prop :=
  decodeTableWord 520 0 = some .idle ∧
  decodeTableWord 520 ((1 <<< 512) - 1) = some .idle ∧
  decodeTableWord 520 (1 <<< 512) = some .init ∧
  decodeTableWord 520 ((1 <<< 512) + (0x61626380 <<< 480)) = some .init ∧
  decodeTableWord 520 ((2 <<< 512) + (0x61626380 <<< 480) + 0x18) =
    some (.next (BitVec.ofNat 512 ((0x61626380 <<< 480) + 0x18))) ∧
  decodeTableWord 520 (3 <<< 512) = none ∧
  decodeTableWord 16 0x100 = some .construct ∧
  decodeTableWord 16 0x1ff = some .construct ∧
  decodeTableWord 16 0x261 = some (.updateByte 0x61) ∧
  decodeTableWord 16 0x300 = some .finalize

/-- R51, R52: the port read as one 512-bit big-endian number is the block's bytes in message order, and words are taken
from it big-endian. Every block is the block of exactly one sequence of 64 bytes. -/
def Obligations.BlockPortIsBigEndian : Prop :=
  (∀ bytes : List Byte, (hlen : bytes.length = 64) →
    (∀ j : Nat, (hj : j < 64) → (blockOfBytes bytes).extractLsb' (504 - 8 * j) 8 = bytes[j]) ∧
    ∀ t : Nat, (ht : t < 16) →
      (schedule (blockOfBytes bytes))[t] = (blockOfBytes bytes).extractLsb' (480 - 32 * t) 32 ∧
      (schedule (blockOfBytes bytes))[t].toNat =
        bytes[4 * t].toNat * 2 ^ 24 + bytes[4 * t + 1].toNat * 2 ^ 16 + bytes[4 * t + 2].toNat * 2 ^ 8 +
          bytes[4 * t + 3].toNat) ∧
  ∀ block : Block, ∃! bytes : List Byte, bytes.length = 64 ∧ blockOfBytes bytes = block

/-! ### Primitives -/

/-- R170, R158: `add32` is the sum modulo `2^32`; order and grouping of the addends do not matter. R170 gives it two
addends or more; that the empty sum is 0 and a single word itself is the model's choice (assumption log 12). -/
def Obligations.Add32IsSumModulo : Prop :=
  (∀ xs : List Word, (add32 xs).toNat = (xs.map BitVec.toNat).sum % 2 ^ 32) ∧
  (∀ xs ys : List Word, xs.Perm ys → add32 xs = add32 ys) ∧
  (∀ xs ys : List Word, add32 (xs ++ ys) = add32 [add32 xs, add32 ys]) ∧
  (∀ x : Word, add32 [x, 0] = x) ∧
  ∀ (r : Working) (kt wt : Word),
    roundT1 r kt wt = add32 [r.h, bigSigma1 r.e, ch r.e r.f r.g, add32 [kt, wt]]

/-- R171: bit `i` of `rotr(x, n)` is bit `(i + n) mod 32` of `x`, and no bit is lost. -/
def Obligations.RotrMovesEveryBit : Prop :=
  ∀ (x : Word) (n : Nat), 1 ≤ n → n ≤ 31 →
    (rotr x n).toNat = ((x.toNat >>> n) ||| (x.toNat <<< (32 - n))) % 2 ^ 32 ∧
    (∀ i : Nat, i < 32 → (rotr x n).getLsbD i = x.getLsbD ((i + n) % 32)) ∧
    rotr (rotr x n) (32 - n) = x ∧
    (List.range 32).countP (rotr x n).getLsbD = (List.range 32).countP x.getLsbD

/-- R172: `shr(x, n) = floor(x / 2^n)`. -/
def Obligations.ShrIsFloorDivision : Prop :=
  ∀ (x : Word) (n : Nat), (shr x n).toNat = x.toNat / 2 ^ n

/-- R173: `Ch` is a multiplexer steered by its third argument. -/
def Obligations.ChSelectsByThirdArgument : Prop :=
  ∀ x y z : Word,
    (∀ i : Nat, i < 32 → (ch x y z).getLsbD i = if z.getLsbD i then x.getLsbD i else y.getLsbD i) ∧
    ch x y z = (x &&& z) ^^^ (y &&& ~~~z) ∧ ch x y z = add32 [x &&& z, y &&& ~~~z] ∧
    ch x y 0 = y ∧ ch x y 0xffffffff = x ∧ ch x x z = x ∧ ch 0 0 z = 0

/-- R174: `Maj` is a multiplexer steered by its first argument; it is not the majority function and not symmetric. -/
def Obligations.MajSelectsByFirstArgument : Prop :=
  (∀ x y z : Word,
    (∀ i : Nat, i < 32 → (maj x y z).getLsbD i = if x.getLsbD i then z.getLsbD i else y.getLsbD i) ∧
    maj x y z = (x &&& z) ||| (~~~x &&& y) ∧
    maj 0 y z = y ∧ maj 0xffffffff y z = z ∧ maj x y y = y) ∧
  ∀ i : Nat, i < 32 → ∃ x y z : Word,
    (maj x y z).getLsbD i ≠ (x &&& y ^^^ x &&& z ^^^ y &&& z).getLsbD i ∧ maj x y z ≠ maj y x z

/-- R175 to R178: each of the four functions is the XOR of its three rotated or shifted copies, bit by bit, and is linear
over XOR. -/
def Obligations.SigmasXorTheirRotations : Prop :=
  (∀ (x : Word) (i : Nat), i < 32 →
    (bigSigma0 x).getLsbD i =
      ((x.getLsbD ((i + 17) % 32) ^^ x.getLsbD ((i + 23) % 32)) ^^ x.getLsbD ((i + 30) % 32)) ∧
    (bigSigma1 x).getLsbD i =
      ((x.getLsbD ((i + 3) % 32) ^^ x.getLsbD ((i + 19) % 32)) ^^ x.getLsbD ((i + 28) % 32)) ∧
    (smallSigma0 x).getLsbD i =
      ((x.getLsbD ((i + 11) % 32) ^^ x.getLsbD ((i + 24) % 32)) ^^ (decide (i + 3 < 32) && x.getLsbD (i + 3))) ∧
    (smallSigma1 x).getLsbD i =
      ((x.getLsbD ((i + 29) % 32) ^^ x.getLsbD ((i + 31) % 32)) ^^ (decide (i + 10 < 32) && x.getLsbD (i + 10)))) ∧
  ∀ x y : Word,
    bigSigma0 (x ^^^ y) = bigSigma0 x ^^^ bigSigma0 y ∧ bigSigma1 (x ^^^ y) = bigSigma1 x ^^^ bigSigma1 y ∧
    smallSigma0 (x ^^^ y) = smallSigma0 x ^^^ smallSigma0 y ∧
    smallSigma1 (x ^^^ y) = smallSigma1 x ^^^ smallSigma1 y

/-- R179, R180: `be32` reads four bytes first byte most significant and is a bijection; `be64bytes` writes eight bytes
most significant first. -/
def Obligations.ByteConversionsAreBigEndian : Prop :=
  (∀ b0 b1 b2 b3 : Byte,
    (be32 [b0, b1, b2, b3]).toNat = b0.toNat * 2 ^ 24 + b1.toNat * 2 ^ 16 + b2.toNat * 2 ^ 8 + b3.toNat) ∧
  (∀ w : Word, ∃! bytes : List Byte, bytes.length = 4 ∧ be32 bytes = w) ∧
  ∀ v : BitVec 64,
    (be64bytes v).length = 8 ∧
    (∀ k : Nat, k < 8 → (be64bytes v)[k]? = some (v.extractLsb' (56 - 8 * k) 8)) ∧
    natOfBytes (be64bytes v) = v.toNat

/-- R181: eight lowercase hexadecimal digits, the most significant first, leading zeros kept. -/
def Obligations.HexEightDigits : Prop :=
  ∀ w : Word, (hex8 w).length = 8 ∧
    ∀ k : Nat, k < 8 →
      (hex8 w)[k]? =
        ['0', '1', '2', '3', '4', '5', '6', '7', '8', '9', 'a', 'b', 'c', 'd', 'e', 'f'][w.toNat / 16 ^ (7 - k) % 16]?

/-! ### Schedule and rounds -/

/-- R146, R147: the first 16 words are the block's, the others follow the recurrence; the all-zero block gives zeros. -/
def Obligations.ScheduleFollowsRecurrence : Prop :=
  (∀ block : Block,
    (∀ t : Nat, (ht : t < 16) →
      (schedule block)[t] =
        be32 [blockByte block (4 * t), blockByte block (4 * t + 1), blockByte block (4 * t + 2),
          blockByte block (4 * t + 3)]) ∧
    ∀ t : Nat, (hlo : 16 ≤ t) → (hhi : t < 64) →
      (schedule block)[t] =
        add32 [smallSigma1 (schedule block)[t - 2], (schedule block)[t - 7], smallSigma0 (schedule block)[t - 15],
          (schedule block)[t - 16]]) ∧
  ∀ t : Nat, (ht : t < 64) → (schedule 0)[t] = 0

/-- R154: the 64 rounds with a sliding window of sixteen schedule words give what the 64-word schedule gives; from the
sixteenth round on the window holds the last sixteen words. -/
def Obligations.SlidingWindowAgrees : Prop :=
  (∀ (K : Words64) (block : Block) (r : Working), runRoundsWindow K block r = runRounds K (schedule block) r) ∧
  ∀ (block : Block) (t i : Nat), (hlo : 16 ≤ t) → (hhi : t ≤ 64) → (hi : i < 16) →
    (((List.finRange 64).take t).foldl (fun w u => (windowStep w u).2) (windowLoad block))[i] =
      (schedule block)[t - 16 + i]

/-- R149 and the ROUND of R153: while rounds are left, the turn of a busy core makes schedule word `t`, runs round `t` on
it and on `K[t]`, and goes on to `t + 1`; nothing else changes. -/
def Obligations.BusyCoreRunsOneRound : Prop :=
  ∀ (s : State) (ht : s.t.val < 64), s.phase = .busy →
    ∃ (W : Words64) (t : Fin 65),
      t.val = s.t.val + 1 ∧
      (∀ j : Nat, (hj : j < 64) → j ≠ s.t.val ∨ s.t.val < 16 → W[j] = s.W[j]) ∧
      (16 ≤ s.t.val →
        W[s.t.val] =
          add32 [smallSigma1 s.W[s.t.val - 2], s.W[s.t.val - 7], smallSigma0 s.W[s.t.val - 15],
            s.W[s.t.val - 16]]) ∧
      s.turn = .next { s with
        W := W
        t := t
        regs :=
          { a := add32 [add32 [s.regs.h, bigSigma1 s.regs.e, ch s.regs.e s.regs.f s.regs.g, s.K[s.t.val], W[s.t.val]],
                   add32 [bigSigma0 s.regs.a, maj s.regs.a s.regs.b s.regs.c]]
            b := s.regs.a
            c := s.regs.b
            d := s.regs.c
            e := add32 [s.regs.d,
                   add32 [s.regs.h, bigSigma1 s.regs.e, ch s.regs.e s.regs.f s.regs.g, s.K[s.t.val], W[s.t.val]]]
            f := s.regs.e
            g := s.regs.f
            h := s.regs.g } }

/-- R151, R152 and the FINISH of R153: after round 63 the turn of a busy core adds the registers word by word into the
chaining state, `phase` becomes `IDLE` and both flags rise. Nothing else changes: that `a..h`, `W` and `t`, unspecified
from here on (R144), keep their values is the model's choice (assumption log 5). -/
def Obligations.FinishAddsRegisters : Prop :=
  ∀ s : State, s.t.val = 64 → s.phase = .busy →
    ∃ H : Words8,
      (H[0].toNat = (s.H[0].toNat + s.regs.a.toNat) % 2 ^ 32 ∧ H[1].toNat = (s.H[1].toNat + s.regs.b.toNat) % 2 ^ 32 ∧
        H[2].toNat = (s.H[2].toNat + s.regs.c.toNat) % 2 ^ 32 ∧ H[3].toNat = (s.H[3].toNat + s.regs.d.toNat) % 2 ^ 32 ∧
        H[4].toNat = (s.H[4].toNat + s.regs.e.toNat) % 2 ^ 32 ∧ H[5].toNat = (s.H[5].toNat + s.regs.f.toNat) % 2 ^ 32 ∧
        H[6].toNat = (s.H[6].toNat + s.regs.g.toNat) % 2 ^ 32 ∧ H[7].toNat = (s.H[7].toNat + s.regs.h.toNat) % 2 ^ 32) ∧
      s.turn = .next { s with H := H, phase := .idle, ready := true, digestValid := true }

/-- R143, R144, R145, R153: from an idle core with a chaining value `NEXT` is accepted; for the 64 rounds the core is
busy, both flags are down and `H` is as it was; with the 65th further step of the core the command has completed: `H` is
`Compress(H, block, K)`, the core is idle and both flags are up. `a..h`, `W` and `t` are left with unspecified values, and
nothing else has changed. (That `NEXT` is its acceptance and the rounds are later steps: assumption log 5. An idle core inside
a framing operation takes no `NEXT` of the host's: `OperationInProgressRefusesOthers`.) -/
def Obligations.NextCompletesAsAtomicForm : Prop :=
  ∀ (s : State) (block : Block), s.phase = .idle → s.task = .nothing → s.initSinceReset = true →
    ∃ u : State, exec (.next block) s = .next u ∧
      (∀ n : Nat, n ≤ 64 → ∃ v, u.turns n = .next v ∧
        v.phase = .busy ∧ v.ready = false ∧ v.digestValid = false ∧ v.H = s.H ∧ v.t.val = n) ∧
      ∃ (regs : Working) (W : Words64) (t : Fin 65),
        u.turns 65 = .next { s with
          H := compress s.H block s.K, regs := regs, W := W, t := t, ready := true, digestValid := true } ∧
        u.complete = u.turns 65

/-- R145: `Compress` is the schedule, the 64 rounds from `a..h = Hin`, and the feed-forward, written out in terms of the
round after round values. -/
def Obligations.CompressRunsSixtyFourRounds : Prop :=
  ∀ (Hin : Words8) (block : Block) (K : Words64) (v : Nat → Working),
    v 0 = ⟨Hin[0], Hin[1], Hin[2], Hin[3], Hin[4], Hin[5], Hin[6], Hin[7]⟩ →
    (∀ t : Nat, (ht : t < 64) → v (t + 1) = round (v t) K[t] (schedule block)[t]) →
    compress Hin block K =
      #v[add32 [Hin[0], (v 64).a], add32 [Hin[1], (v 64).b], add32 [Hin[2], (v 64).c], add32 [Hin[3], (v 64).d],
        add32 [Hin[4], (v 64).e], add32 [Hin[5], (v 64).f], add32 [Hin[6], (v 64).g], add32 [Hin[7], (v 64).h]]

/-! ### The core's commands -/

/-- R141: `IDLE` reads and writes no state and is legal in both phases; a compression in progress continues. (That what is
in progress goes on by one turn in the same step of the machine: assumption log 17.) -/
def Obligations.IdleDoesNothing : Prop :=
  (∀ s : State, exec .idle s = .next s) ∧
  ∀ (s : State) (wait : Wait) (rest : List HostLine) (block : Block),
    s.script = ⟨wait, .present (.core (0b00#2 ++ block))⟩ :: rest → s.waitsFor wait = false →
    step s = State.turn { s with script := rest }

/-- R142: `INIT` from an idle core loads the initial vector and raises `digest_valid`; `a..h`, `W`, `t` and everything
else stay; two `INIT`s in a row equal one. While busy it is the fault `CoreBusyViolation`. That an `INIT` has been
accepted since reset is recorded. -/
def Obligations.InitLoadsInitialVector : Prop :=
  ∀ s : State,
    (s.phase = .idle → s.task = .nothing →
      exec .init s = .next { s with H := s.IV, digestValid := true, initSinceReset := true } ∧
      andThen (exec .init s) (exec .init) = exec .init s) ∧
    (s.phase = .busy → exec .init s = .fault (.coreBusyViolation .init))

/-- R143, R153 ACCEPT, R195, R196, R201: when `NEXT` is accepted and what acceptance writes; when it faults instead, the
busy core first. -/
def Obligations.NextAcceptance : Prop :=
  ∀ (s : State) (block : Block),
    (s.phase = .busy → exec (.next block) s = .fault (.coreBusyViolation .next)) ∧
    (s.phase = .idle → s.task = .nothing → s.initSinceReset = false →
      exec (.next block) s = .fault .coreUninitialised) ∧
    (s.phase = .idle → s.task = .nothing → s.initSinceReset = true →
      ∃ W : Words64,
        (∀ t : Nat, (ht : t < 16) → W[t] = block.extractLsb' (480 - 32 * t) 32) ∧
        (∀ t : Nat, (hlo : 16 ≤ t) → (hhi : t < 64) → W[t] = s.W[t]) ∧
        exec (.next block) s = .next { s with
          W := W
          regs := ⟨s.H[0], s.H[1], s.H[2], s.H[3], s.H[4], s.H[5], s.H[6], s.H[7]⟩
          t := 0
          phase := .busy
          ready := false
          digestValid := false })

/-- R195: `INIT` or `NEXT` presented while the core is busy is `CoreBusyViolation`, whatever the block bits; `IDLE`
while busy is no violation. -/
def Obligations.BusyCommandsFault : Prop :=
  ∀ (s : State) (block : Block), s.phase = .busy →
    presentWord (.core (0b01#2 ++ block)) s = .fault (.coreBusyViolation .init) ∧
    presentWord (.core (0b10#2 ++ block)) s = .fault (.coreBusyViolation .next) ∧
    ∃ u, presentWord (.core (0b00#2 ++ block)) s = .next u

/-- R230: a busy core that is presented nothing reaches `IDLE` after exactly `65 - t` of its own steps. (One of its own
steps in each step of the machine: assumption log 3.) -/
def Obligations.BusyCoreBecomesReady : Prop :=
  ∀ (s : State), s.phase = .busy → (∀ line rest, s.script = line :: rest → line.wait = .completion) →
    (∀ n : Nat, n < 65 - s.t.val → ∃ u, runSteps n s = .next u ∧ u.phase = .busy ∧ u.script = s.script) ∧
    ∃ u, runSteps (65 - s.t.val) s = .next u ∧ u.phase = .idle ∧ u.ready = true ∧ u.digestValid = true ∧
      u.script = s.script ∧ u.fePhase = s.fePhase ∧ u.task = s.task ∧ u.pendingBuffer = s.pendingBuffer ∧
      u.totalBitLength = s.totalBitLength ∧ u.observed = s.observed

/-- R157, R231: after `INIT; NEXT B_0; ...; NEXT B_(k-1)` the chaining state is `C_k`, where `C_0 = IV` and
`C_(j+1) = Compress(C_j, B_j, K)`; each `NEXT` takes 66 steps, and the core-level run is
over. (The script: assumption log 3.) -/
def Obligations.CommandsChainBlocks : Prop :=
  ∀ (s : State) (blocks : List Block), s.phase = .idle → s.task = .nothing →
    s.script = presentLine .init :: blocks.map (fun b => presentLine (.next b)) →
    ∃ u, runSteps (1 + 66 * blocks.length) s = .next u ∧
      u.H = blocks.foldl (fun H b => compress H b s.K) s.IV ∧ u.phase = .idle ∧ u.digestValid = true ∧ u.script = [] ∧
      (s.ready = true → coreRunOver u)

/-! ### The framing layer -/

/-- R101: `CONSTRUCT` is legal in every `fe_phase`; it waits until ready, then gives a fresh engine, whatever message was
in progress. (The wait is turns of the machine: assumption log 9.) -/
def Obligations.ConstructMakesFreshEngine : Prop :=
  ∀ s : State, s.task = .nothing →
    (s.phase = .idle →
      exec .construct s = .next { s with
        H := s.IV, digestValid := true, initSinceReset := true
        pendingBuffer := [], totalBitLength := 0, fePhase := .accumulating }) ∧
    (s.phase = .busy →
      exec .construct s = .next { s with task := .construct } ∧
      ∃ v, completed (exec .construct s) = .next v ∧ v.H = s.IV ∧ v.pendingBuffer = [] ∧ v.totalBitLength = 0 ∧
        v.fePhase = .accumulating ∧ v.task = .nothing ∧ v.phase = .idle ∧ v.ready = true ∧ v.digestValid = true ∧
        v.IV = s.IV ∧ v.K = s.K ∧ v.script = s.script ∧ v.observed = s.observed)

/-- R102: while accumulating, `UPDATE_BYTE b` appends `b` and counts 8 bits; only the 64th byte of a block triggers a
`NEXT`, which takes the whole block and leaves the buffer empty; the operation completes when that `NEXT` has. `a..h`,
`W`, `t` are left unspecified by a `NEXT`; nothing else changes. (The wait is turns of the machine: assumption log 9.) -/
def Obligations.UpdateByteFeedsOneByte : Prop :=
  ∀ (s : State) (b : Byte), s.task = .nothing → s.fePhase = .accumulating →
    s.totalBitLength.toNat + 8 < 2 ^ 64 →
    (s.pendingBuffer.length ≠ 63 →
      ∃ L : BitVec 64, L.toNat = s.totalBitLength.toNat + 8 ∧
        exec (.updateByte b) s = .next { s with pendingBuffer := s.pendingBuffer ++ [b], totalBitLength := L }) ∧
    (s.pendingBuffer.length = 63 → s.phase = .idle → s.initSinceReset = true →
      ∃ (u : State) (L : BitVec 64) (regs : Working) (W : Words64) (t : Fin 65),
        L.toNat = s.totalBitLength.toNat + 8 ∧
        exec (.updateByte b) s = .next u ∧
        u.phase = .busy ∧ u.H = s.H ∧ u.pendingBuffer = [] ∧ u.totalBitLength = L ∧ u.fePhase = .accumulating ∧
        u.complete = .next { s with
          H := compress s.H (blockOfBytes (s.pendingBuffer ++ [b])) s.K
          pendingBuffer := [], totalBitLength := L
          regs := regs, W := W, t := t, ready := true, digestValid := true })

/-- R192, R193, R194, R201: when the framing operations raise, and what. That `LengthOverflow` records the number of bytes
of the refused update is the model's reading (assumption log 7). -/
def Obligations.FramingFaults : Prop :=
  ∀ (s : State) (b : Byte) (bytes : List Byte), s.task = .nothing →
    (s.fePhase = .unconstructed →
      exec (.updateByte b) s = .fault (.notConstructed .updateByte) ∧
      opUpdate bytes s = .fault (.notConstructed .update) ∧
      exec .finalize s = .fault (.notConstructed .finalize)) ∧
    (s.fePhase = .finalized →
      exec (.updateByte b) s = .fault (.useAfterFinalize .updateByte) ∧
      opUpdate bytes s = .fault (.useAfterFinalize .update) ∧
      exec .finalize s = .fault (.useAfterFinalize .finalize)) ∧
    (s.fePhase = .accumulating →
      (2 ^ 64 ≤ s.totalBitLength.toNat + 8 → exec (.updateByte b) s = .fault (.lengthOverflow 1)) ∧
      (2 ^ 64 ≤ s.totalBitLength.toNat + 8 * bytes.length →
        opUpdate bytes s = .fault (.lengthOverflow bytes.length)))

/-- R103, R108: `UPDATE bytes` appends, counts, and hands the whole blocks of buffer and bytes to the core, oldest
first: `floor((p + n) / 64)` of them, with `(p + n) mod 64` bytes left. `a..h`, `W`, `t` are left unspecified; nothing
else changes. (The waits are turns of the machine: assumption log 9.) -/
def Obligations.UpdateDrainsWholeBlocks : Prop :=
  ∀ (s : State) (bytes : List Byte), Inv s → s.task = .nothing → s.phase = .idle → s.fePhase = .accumulating →
    s.totalBitLength.toNat + 8 * bytes.length < 2 ^ 64 →
    ∃ (u : State) (L : BitVec 64) (regs : Working) (W : Words64) (t : Fin 65) (rest : List Byte),
      L.toNat = s.totalBitLength.toNat + 8 * bytes.length ∧
      rest = (s.pendingBuffer ++ bytes).drop (64 * ((s.pendingBuffer.length + bytes.length) / 64)) ∧
      rest.length = (s.pendingBuffer.length + bytes.length) % 64 ∧
      opUpdate bytes s = .next u ∧ u.totalBitLength = L ∧ u.H = s.H ∧
      u.complete = .next { s with
        H := chain s.K s.H (s.pendingBuffer ++ bytes) ((s.pendingBuffer.length + bytes.length) / 64)
        pendingBuffer := rest, totalBitLength := L, regs := regs, W := W, t := t }

/-- R104: splitting one update into two, at any byte boundary, gives the same state, as long as neither raises
`LengthOverflow`; the second starts when the first has completed. (That `a..h`, `W` and `t` of the idle core, which R104 does
not list, agree too rests on the model's keeping them: assumption log 5; completion: assumption log 9.) -/
def Obligations.UpdateIsChunkInvariant : Prop :=
  ∀ (s : State) (xs ys : List Byte), s.fePhase = .accumulating →
    s.totalBitLength.toNat + 8 * (xs.length + ys.length) < 2 ^ 64 →
    andThen (completed (opUpdate xs s)) (fun u => completed (opUpdate ys u)) = completed (opUpdate (xs ++ ys) s)

/-- R104, R80: `UPDATE bytes` equals `UPDATE_BYTE` applied to each byte in order, each started when the one before has
completed, from every state that meets the invariants; a sequence that would overflow part-way is the one exception, where
`UPDATE` raises and writes nothing. That the fault records the number of bytes of the refused update is the model's
reading (assumption log 7). (That `a..h`, `W` and `t` of the idle core agree too rests on the model's keeping them: assumption
log 5; completion: assumption log 9.) -/
def Obligations.UpdateEqualsBytewiseExpansion : Prop :=
  ∀ (s : State) (bytes : List Byte), Inv s → s.task = .nothing → s.fePhase = .accumulating →
    (s.totalBitLength.toNat + 8 * bytes.length < 2 ^ 64 →
      bytes.foldl (fun r b => andThen r fun u => completed (exec (.updateByte b) u)) s.complete =
        completed (opUpdate bytes s)) ∧
    (2 ^ 64 ≤ s.totalBitLength.toNat + 8 * bytes.length →
      opUpdate bytes s = .fault (.lengthOverflow bytes.length) ∧
      ∀ n : Nat, s.totalBitLength.toNat + 8 * n < 2 ^ 64 → n ≤ bytes.length →
        ∃ u, (bytes.take n).foldl (fun r b => andThen r fun u => completed (exec (.updateByte b) u)) s.complete =
          .next u)

/-- R105: an empty update is a no-op. -/
def Obligations.EmptyUpdateIsNoOp : Prop :=
  ∀ s : State, s.task = .nothing → s.fePhase = .accumulating → s.pendingBuffer.length < 64 → opUpdate [] s = .next s

/-- R120 to R128: from an idle engine that is accumulating, `FINALIZE` pads the partial block of `p` bytes, hands one
block to the core when `p <= 55` and two when `p >= 56`, empties the buffer, keeps the counter, becomes finalized and
returns the digest string of the chaining state it leaves; nothing is returned before. `a..h`, `W`, `t` are left
unspecified; nothing else changes. (The waits are turns of the machine: assumption log 9; the record: assumption log
4.) -/
def Obligations.FinalizePadsAndReturnsDigest : Prop :=
  ∀ s : State, Inv s → s.task = .nothing → s.phase = .idle → s.fePhase = .accumulating →
    ∃ (u : State) (H : Words8) (regs : Working) (W : Words64) (t : Fin 65),
      H = chain s.K s.H (s.pendingBuffer ++ padding s.pendingBuffer.length s.totalBitLength)
        (if s.pendingBuffer.length ≤ 55 then 1 else 2) ∧
      exec .finalize s = .next u ∧ u.phase = .busy ∧ u.H = s.H ∧ u.fePhase = .accumulating ∧
      u.totalBitLength = s.totalBitLength ∧ u.observed = s.observed ∧
      u.complete = .next { s with
        H := H, regs := regs, W := W, t := t
        pendingBuffer := [], fePhase := .finalized
        observed := s.observed ++ [.digestStr (digestString H)] }

/-- R127, R131, R133: what `FINALIZE` returns is a string of 64 characters, all of `0123456789abcdef`; character
`8i + k` is the digit of `H[i][31-4k : 28-4k]`; the string is the `digest` port written most significant digit first.
That the string is appended to a record of what the host has got is the model's choice (assumption log 4). -/
def Obligations.DigestStringForm : Prop :=
  ∀ s u : State, completed (exec .finalize s) = .next u →
    ∃ str : List Char, u.observed = s.observed ++ [.digestStr str] ∧ str.length = 64 ∧
      (∀ c ∈ str, c ∈ ['0', '1', '2', '3', '4', '5', '6', '7', '8', '9', 'a', 'b', 'c', 'd', 'e', 'f']) ∧
      (∀ i k : Nat, (hi : i < 8) → k < 8 → str[8 * i + k]? = some (hexDigit (u.H[i].extractLsb' (28 - 4 * k) 4))) ∧
      ∀ j : Nat, j < 64 → str[j]? = some (hexDigit (u.digest.extractLsb' (252 - 4 * j) 4))

/-- R31: the digest port shows `H[0]` in bits 255:224 and `H[7]` in bits 31:0. -/
def Obligations.DigestPortOrder : Prop :=
  ∀ (s : State) (i : Nat), (hi : i < 8) → s.digest.extractLsb' (224 - 32 * i) 32 = s.H[i]

/-- R129: the padded form of a message of `n` bytes is a whole number of blocks, `floor(n / 64) + 1` or
`floor(n / 64) + 2`, and starts with the message. -/
def Obligations.PaddedMessageIsWholeBlocks : Prop :=
  ∀ M : List Byte,
    (paddedMessage M).length = 64 * blockCount M.length ∧ M <+: paddedMessage M ∧
    (M.length % 64 ≤ 55 → blockCount M.length = M.length / 64 + 1) ∧
    (56 ≤ M.length % 64 → blockCount M.length = M.length / 64 + 2) ∧
    padZeros M.length ≤ 63 ∧ (padZeros M.length + M.length) % 64 = 55

/-- R80, R129, R130, R157: the script line `HASH M`, with the message in hexadecimal or as an ASCII text, for every
message whose length the counter can count (the empty one among them), from every idle state that meets the invariants,
if the host's next line waits (a reset that does not would cut it short), returns the digest string of the chaining value that starts
from `IV` and takes the blocks of the padded message in order; the first `floor(n / 64)` blocks are handed over by the
update. (The script, what the host has got, the steps it takes, the one step for the checks of the
`UPDATE`: assumption log 3, 4, 9, 16.) -/
def Obligations.HashReturnsDigestOfPaddedMessage : Prop :=
  ∀ (s : State) (line : ScriptLine) (M : List Byte) (rest : List HostLine),
    Inv s → s.task = .nothing → s.phase = .idle →
    (line = .hash M ∨
      ∃ text, line = .hashText text ∧ line.wf = true ∧ M.map BitVec.toNat = text.map Char.toNat) →
    s.script = expandLine line ++ rest → (∀ l rest', rest = l :: rest' → l.wait = .completion) → 8 * M.length < 2 ^ 64 →
    (∃ u, runSteps (2 + M.length + 66 * (M.length / 64)) s = .next u ∧
      u.H = chain s.K s.IV (paddedMessage M) (M.length / 64) ∧
      u.pendingBuffer = M.drop (64 * (M.length / 64)) ∧ u.occupied = false) ∧
    ∃ u, runSteps (3 + M.length + 66 * blockCount M.length) s = .next u ∧
      u.H = chain s.K s.IV (paddedMessage M) (blockCount M.length) ∧
      u.observed = s.observed ++ [.digestStr (digestString u.H)] ∧
      framingRunOver u ∧ u.script = rest ∧ u.IV = s.IV ∧ u.K = s.K

/-- R101, R134: nothing of what an engine did before survives `CONSTRUCT`: two engines with the same constant tables are
then the same but for hidden state (and for what their hosts do and have got). -/
def Obligations.ConstructedEnginesAgree : Prop :=
  ∀ s s' : State, Inv s → Inv s' → s.task = .nothing → s'.task = .nothing →
    s'.IV = s.IV → s'.K = s.K → s'.script = s.script → s'.observed = s.observed →
    sameOutcome (completed (exec .construct s)) (completed (exec .construct s'))

/-- R201, R109: a framing operation, from a state that meets the invariants, never causes a fault of the core, neither
when it starts nor in any later turn of it. -/
def Obligations.FramingNeverFaultsCore : Prop :=
  ∀ (s : State) (r : Result), Inv s →
    (r = s.turn ∨ (s.task = .nothing ∧
      (r = exec .construct s ∨ (∃ b, r = exec (.updateByte b) s) ∨ (∃ bytes, r = opUpdate bytes s) ∨
        r = exec .finalize s))) →
    (∀ cmd, r ≠ .fault (.coreBusyViolation cmd)) ∧ r ≠ .fault .coreUninitialised ∧ r ≠ .fault .reservedCommand ∧
    ∀ e, r ≠ .refused e

/-- R109, R61: a framing operation that is asked for while the core is still busy with a command of the host's own (R233)
leaves the core alone and waits: it comes to what the same operation comes to when it is asked for after that command has
completed. (The wait is turns of the machine: assumption log 9; that `a..h`, `W` and `t` of the idle core agree too rests on
the model's keeping them: assumption log 5.) -/
def Obligations.FramingOperationsWaitForTheCore : Prop :=
  ∀ s : State, s.task = .nothing →
    (∃ v : State, s.complete = .next v ∧ v.phase = .idle ∧ v.task = .nothing ∧
      completed (exec .construct s) = completed (exec .construct v) ∧
      completed (exec .finalize s) = completed (exec .finalize v) ∧
      (∀ b, completed (exec (.updateByte b) s) = completed (exec (.updateByte b) v)) ∧
      ∀ bytes, completed (opUpdate bytes s) = completed (opUpdate bytes v)) ∧
    ∀ u : State, s.phase = .busy →
      (exec .construct s = .next u ∨ exec .finalize s = .next u ∨ (∃ b, exec (.updateByte b) s = .next u) ∨
        ∃ bytes, opUpdate bytes s = .next u) →
      u.phase = .busy ∧ u.t = s.t ∧ u.H = s.H ∧ u.regs = s.regs ∧ u.W = s.W ∧ u.ready = s.ready ∧
        u.digestValid = s.digestValid

/-- R230, R132, R108: every framing operation terminates. From a state that meets the invariants every turn of what is in
progress goes on and brings it one turn nearer to its end, and while the host waits the machine gets there. An `UPDATE_BYTE`
takes one `NEXT` or none, an `UPDATE` `floor((p + n) / 64)`, a `FINALIZE` one or two; that each takes 66 turns is the
model's count (assumption log 9, 3). -/
def Obligations.FramingOperationsTerminate : Prop :=
  ∀ s : State, Inv s →
    (s.occupied = true ↔ 0 < s.turnsLeft) ∧
    (s.occupied = true → ∃ u, s.turn = .next u ∧ u.turnsLeft + 1 = s.turnsLeft) ∧
    ((∀ line rest, s.script = line :: rest → line.wait = .completion) →
      ∃ u, runSteps s.turnsLeft s = .next u ∧ s.complete = .next u ∧ u.phase = .idle ∧ u.ready = true ∧
        u.task = .nothing ∧ u.script = s.script) ∧
    (s.task = .nothing → s.phase = .idle → ∀ u : State,
      (∀ b, exec (.updateByte b) s = .next u → u.turnsLeft = if s.pendingBuffer.length = 63 then 66 else 0) ∧
      (∀ bytes, opUpdate bytes s = .next u →
        u.turnsLeft = 66 * ((s.pendingBuffer.length + bytes.length) / 64)) ∧
      (exec .finalize s = .next u → u.turnsLeft = 66 * if s.pendingBuffer.length ≤ 55 then 1 else 2))

/-- R61, R100, R198: while a framing operation is in progress no other operation starts and the idle core takes no command
that is not the operation's: whoever asks is a second driver and is refused (assumption log 8). -/
def Obligations.OperationInProgressRefusesOthers : Prop :=
  ∀ (s : State) (block : Block) (b : Byte) (bytes : List Byte), s.task ≠ .nothing →
    exec .construct s = .refused .concurrentAccess ∧ exec (.updateByte b) s = .refused .concurrentAccess ∧
    exec .finalize s = .refused .concurrentAccess ∧ opUpdate bytes s = .refused .concurrentAccess ∧
    (s.phase = .idle →
      exec .init s = .refused .concurrentAccess ∧ exec (.next block) s = .refused .concurrentAccess)

/-! ### Observation, reset, the host -/

/-- R155, R199, R225, R58: `digest` reads as `H[0] ‖ ... ‖ H[7]` while `digest_valid = 1` and is refused otherwise;
`ready` and `digest_valid` may always be read; a read changes nothing but what the host has got. -/
def Obligations.ReadingOutputs : Prop :=
  ∀ s : State,
    (s.digestValid = true →
      observe .digest s = .next { s with observed := s.observed ++ [.digest (
        s.H[0] ++ s.H[1] ++ s.H[2] ++ s.H[3] ++ s.H[4] ++ s.H[5] ++ s.H[6] ++ s.H[7])] }) ∧
    (s.digestValid = false → observe .digest s = .refused .digestNotValid) ∧
    observe .ready s = .next { s with observed := s.observed ++ [.ready s.ready] } ∧
    observe .digestValid s = .next { s with observed := s.observed ++ [.digestValid s.digestValid] }

/-- R220, R221, R37: the reset event, in any phase, even during a compression and inside a framing operation: the core is
idle and ready, `H` has no value any more (a read of `digest` is refused and `NEXT` is `CoreUninitialised`), the framing
layer is unconstructed and empty, no operation is in progress, the constant tables are unaffected. (The script:
assumption log 3.) -/
def Obligations.ResetEventForgetsEverything : Prop :=
  ∀ (s : State) (wait : Wait) (rest : List HostLine),
    s.script = ⟨wait, .reset⟩ :: rest → s.waitsFor wait = false →
    ∃ u, step s = .next u ∧ u.phase = .idle ∧ u.ready = true ∧ u.digestValid = false ∧ u.initSinceReset = false ∧
      u.pendingBuffer = [] ∧ u.totalBitLength = 0 ∧ u.fePhase = .unconstructed ∧ u.task = .nothing ∧ u.IV = s.IV ∧
      u.K = s.K ∧ u.script = rest ∧ u.observed = s.observed ∧ observe .digest u = .refused .digestNotValid ∧
      ∀ block, exec (.next block) u = .fault .coreUninitialised

/-- R220, R221: a reset may come between any two steps of what is in progress, be it a `NEXT` of the host's own or one that
a framing operation has issued: for every number `n` of turns short of the whole, a reset after `n` turns abandons it.
Until then, while its rounds last, `H` is as before; no feed-forward happens, no string is returned, `H` has no value
afterwards, and nothing of the operation is left. (The script, the count of turns: assumption log 3, 9.) -/
def Obligations.ResetAbandonsWhatIsInProgress : Prop :=
  ∀ (s : State) (n : Nat) (rest : List HostLine), Inv s → n < s.turnsLeft →
    s.script = List.replicate n ⟨.no, .present (encode .idle)⟩ ++ ⟨.no, .reset⟩ :: rest →
    (∃ v, runSteps n s = .next v ∧ v.occupied = true ∧ v.observed = s.observed ∧
      (s.phase = .busy → n < 65 - s.t.val → v.phase = .busy ∧ v.H = s.H ∧ v.t.val = s.t.val + n)) ∧
    ∃ u, runSteps (n + 1) s = .next u ∧ u.phase = .idle ∧ u.ready = true ∧ u.digestValid = false ∧
      u.initSinceReset = false ∧ u.pendingBuffer = [] ∧ u.totalBitLength = 0 ∧ u.fePhase = .unconstructed ∧
      u.task = .nothing ∧ u.IV = s.IV ∧ u.K = s.K ∧ u.observed = s.observed ∧ u.script = rest ∧
      observe .digest u = .refused .digestNotValid ∧ ∀ block, exec (.next block) u = .fault .coreUninitialised

/-- R37, R222: the state after reset, and what the host must do first. (That no operation is in progress is said of the
model's field `task`: assumption log 9.) -/
def Obligations.ResetStateAndStartUp : Prop :=
  State.reset.phase = .idle ∧ State.reset.ready = true ∧ State.reset.digestValid = false ∧
  State.reset.pendingBuffer = [] ∧ State.reset.totalBitLength = 0 ∧ State.reset.fePhase = .unconstructed ∧
  State.reset.task = .nothing ∧
  (∀ block, exec (.next block) State.reset = .fault .coreUninitialised) ∧
  (∀ b, exec (.updateByte b) State.reset = .fault (.notConstructed .updateByte)) ∧
  (∀ bytes, opUpdate bytes State.reset = .fault (.notConstructed .update)) ∧
  exec .finalize State.reset = .fault (.notConstructed .finalize) ∧
  (∃ u, exec .init State.reset = .next u ∧ u.H = State.reset.IV ∧ u.digestValid = true) ∧
  ∃ u, exec .construct State.reset = .next u ∧ u.H = State.reset.IV ∧ u.fePhase = .accumulating

/-- A step runs the decoded instruction: the next line is taken from the script, the word it presents is decoded and
executed, and, if it is `IDLE`, what is in progress continues. The host waits first where the line says so (R61, R79,
R223). The script and the wait are the model's: assumption log 3, 17. -/
def Obligations.StepRunsDecodedInstruction : Prop :=
  ∀ (s : State) (wait : Wait) (w : PortWord) (rest : List HostLine) (i : Instr),
    s.script = ⟨wait, .present w⟩ :: rest → s.waitsFor wait = false → decode w = .ok i →
    (i ≠ .idle → step s = exec i { s with script := rest }) ∧
    (i = .idle → step s = andThen (exec i { s with script := rest }) State.turn)

/-- The word placed for the next step is the one the next step runs, in every state (assumption log 3, 10). -/
def Obligations.PlacedWordRunsNext : Prop :=
  ∀ (s : State) (nbits w : Nat) (i : Instr), decodeTableWord nbits w = some i →
    (i ≠ .idle → step (s.withFetchWord nbits w) = exec i s) ∧
    (i = .idle → step (s.withFetchWord nbits w) = s.turn)

/-- R223, R61, R140: while the core is busy (in a round or due for the feed-forward) or a framing operation is in progress
the host holds its next line back and presents nothing, and the machine takes its turn: a busy core its step; with no line
left the port is undriven; with nothing in progress nothing changes. (Assumption log 3, 9.) -/
def Obligations.HostWaitsWhileBusy : Prop :=
  ∀ s : State,
    (∀ act rest, s.script = ⟨.completion, act⟩ :: rest → s.phase = .busy ∨ s.task ≠ .nothing → step s = s.turn) ∧
    (s.script = [] → step s = s.turn) ∧
    (s.phase = .busy → s.turn = .next s.coreStep) ∧
    (s.phase = .idle → s.task = .nothing → s.turn = .next s)

/-- R198, R227: a second driver has no step on the machine: whatever it presents is refused (assumption log 8). -/
def Obligations.SecondDriverRefused : Prop :=
  ∀ (s : State) (wait : Wait) (w : PortWord) (rest : List HostLine),
    s.script = ⟨wait, .foreign w⟩ :: rest → s.waitsFor wait = false → step s = .refused .concurrentAccess

/-! ### The whole machine -/

/-- R26, R33, R34, R35, R106, R121: every step keeps the invariants, from every state that meets them. (The clauses about
what is in progress are about the model's field `task`: assumption log 9.) -/
def Obligations.StepKeepsInvariants : Prop :=
  ∀ s u : State, Inv s → step s = .next u → Inv u

/-- The state after reset meets the invariants (R37). -/
def Obligations.ResetMeetsInvariants : Prop :=
  Inv State.reset

/-- R29, R30: no step writes the constant tables. -/
def Obligations.ConstantTablesNeverWritten : Prop :=
  ∀ s u : State, step s = .next u → u.IV = s.IV ∧ u.K = s.K

/-- R35: only the reset event, `CONSTRUCT` and `FINALIZE` change `fe_phase`: the reset event at once to `UNCONSTRUCTED`,
`CONSTRUCT` to `ACCUMULATING` when it presents its `INIT`, `FINALIZE` to `FINALIZED` when it returns. Only they begin what
does so later. (That these operations may take several steps: assumption log 9.) -/
def Obligations.LifecycleChangesOnlyByThree : Prop :=
  ∀ s u : State, step s = .next u →
    (takenAction s = some .reset → u.fePhase = .unconstructed) ∧
    (takenInstr s = some .construct → u.fePhase = .accumulating ∨ u.task = .construct) ∧
    (takenInstr s = some .finalize → u.task.finalizing = true) ∧
    (u.fePhase ≠ s.fePhase →
      (takenAction s = some .reset ∧ u.fePhase = .unconstructed) ∨
      ((takenInstr s = some .construct ∨ s.task = .construct) ∧ u.fePhase = .accumulating) ∨
      (s.task = .await .digest ∧ u.fePhase = .finalized)) ∧
    (u.task = .construct → s.task = .construct ∨ takenInstr s = some .construct) ∧
    (u.task.finalizing = true → s.task.finalizing = true ∨ takenInstr s = some .finalize)

/-- R34, R107: the counter never wraps: in every step it stays, counts 8 for each byte an update feeds, exactly, or goes
to 0 by `CONSTRUCT` (when it presents its `INIT`: assumption log 9) or the reset event. -/
def Obligations.LengthCounterNeverWraps : Prop :=
  ∀ s u : State, step s = .next u →
    (u.totalBitLength = s.totalBitLength ∨
      (∃ b, takenInstr s = some (.updateByte b) ∧ u.totalBitLength.toNat = s.totalBitLength.toNat + 8) ∨
      (∃ bytes, takenAction s = some (.update bytes) ∧
        u.totalBitLength.toNat = s.totalBitLength.toNat + 8 * bytes.length) ∨
      ((takenInstr s = some .construct ∨ s.task = .construct ∨ takenAction s = some .reset) ∧
        u.totalBitLength = 0))

/-- R21, R100, R102: the chaining state changes only by the completion of a `NEXT`, by `INIT`, by the `INIT` of a
`CONSTRUCT` (in its first step, or after its wait: assumption log 9), and by the reset event. No update and no `FINALIZE`
writes it otherwise. -/
def Obligations.ChainingStateChangesOnlyBy : Prop :=
  ∀ s u : State, step s = .next u → u.H ≠ s.H →
    (s.phase = .busy ∧ s.t.val = 64 ∧ u.phase = .idle ∧ u.H = feedForward s.H s.regs) ∨
    ((takenInstr s = some .init ∨ takenInstr s = some .construct ∨ s.task = .construct) ∧ u.H = s.IV) ∨
    takenAction s = some .reset

/-- R36, R22, R23: what `a..h`, `W` and `t` hold while the core is idle can never be told from outside: two states that
differ only in hidden state answer every step alike. -/
def Obligations.HiddenStateNeverShows : Prop :=
  ∀ s s' : State, SameButHidden s s' → sameOutcome (step s) (step s')

/-- R231: when `FINALIZE` has returned, the framing-level run is over: `fe_phase = FINALIZED`, the core idle and ready
with a valid digest. -/
def Obligations.FinalizeEndsTheRun : Prop :=
  ∀ s u : State, completed (exec .finalize s) = .next u → framingRunOver u

/-! ### Scripts -/

/-- R79, R80, R103, R105, R193, R194. First: a line of the script language, `RESET` and `READ` among them, is taken when
what the lines before asked has completed: until then the machine takes its turns, and the line is still there. `RESET` then
resets; what the host has got until then it keeps. `NEXT!` and `INIT!` are presented at once, whatever is in progress.
Second: `UPDATE` of no byte is nothing but its checks, in whatever the core is in the middle of: the line is taken at once
and changes nothing, so a `NEXT!` or `INIT!` after it meets the core as it would without it. In the other two phases it
raises. Only while an operation that changes `fe_phase` is in progress does it wait for that to return. (That the wait of a
line is made before the next one: assumption log 3; turns and the operation in progress: log 9; the line and the step for
the checks: log 16.) -/
def Obligations.ScriptLinesWaitForTheLineBefore : Prop :=
  (∀ (s : State) (line : ScriptLine) (rest : List HostLine), Inv s → s.script = expandLine line ++ rest →
      ((∀ bytes, line ≠ .nextNow bytes) → line ≠ .initNow → line ≠ .update [] → line ≠ .updateText [] →
        (∀ n : Nat, n ≤ s.turnsLeft → runSteps n s = s.turns n) ∧
        ∃ u, s.complete = .next u ∧ u.occupied = false ∧ u.script = s.script ∧
          (line = .reset → ∃ v, step u = .next v ∧ v.phase = .idle ∧ v.ready = true ∧ v.digestValid = false ∧
            v.initSinceReset = false ∧ v.pendingBuffer = [] ∧ v.totalBitLength = 0 ∧ v.fePhase = .unconstructed ∧
            v.task = .nothing ∧ v.IV = s.IV ∧ v.K = s.K ∧ v.script = rest ∧ v.observed = u.observed)) ∧
      (∀ bytes, line = .nextNow bytes → step s = exec (.next (blockOfBytes bytes)) { s with script := rest }) ∧
      (line = .initNow → step s = exec .init { s with script := rest })) ∧
  ∀ (s : State) (line : ScriptLine) (rest : List HostLine), line = .update [] ∨ line = .updateText [] →
    s.script = expandLine line ++ rest →
    (s.task = .construct ∨ s.task.finalizing = true → step s = s.turn) ∧
    (s.task ≠ .construct → s.task.finalizing = false →
      (s.fePhase = .accumulating → step s = .next { s with script := rest }) ∧
      (s.fePhase = .unconstructed → step s = .fault (.notConstructed .update)) ∧
      (s.fePhase = .finalized → step s = .fault (.useAfterFinalize .update)) ∧
      (s.fePhase = .accumulating → s.phase = .busy →
        (∀ bytes rest', rest = expandLine (.nextNow bytes) ++ rest' → runSteps 2 s = .fault (.coreBusyViolation .next)) ∧
        ∀ rest', rest = expandLine .initNow ++ rest' → runSteps 2 s = .fault (.coreBusyViolation .init)))

/-- R80, R103, R107: the script line `UPDATE`. Its checks are made once for the whole sequence, before anything changes; a
sequence that is too long, and one in another phase, raises whole. Otherwise its bytes are fed one by one, each after the
one before has completed, and the next line of the script comes when the last byte has been fed: it meets the core busy
exactly when that byte completes a block, whatever came before. With that completed too, the blocks of the buffer and the
bytes have gone to the core, oldest first, and the rest is held, as by the operation of R103. `UPDATE` with no byte changes
nothing. (The script, its steps, the one step for the checks: assumption log 3, 9, 16; the count a fault records: log 7.) -/
def Obligations.UpdateLineFeedsByteByByte : Prop :=
  ∀ (s : State) (line : ScriptLine) (bytes : List Byte) (rest : List HostLine),
    Inv s → s.task = .nothing → s.phase = .idle →
    (line = .update bytes ∨
      ∃ text, line = .updateText text ∧ line.wf = true ∧ bytes.map BitVec.toNat = text.map Char.toNat) →
    s.script = expandLine line ++ rest →
    (s.fePhase = .unconstructed → step s = .fault (.notConstructed .update)) ∧
    (s.fePhase = .finalized → step s = .fault (.useAfterFinalize .update)) ∧
    (s.fePhase = .accumulating → 2 ^ 64 ≤ s.totalBitLength.toNat + 8 * bytes.length →
      step s = .fault (.lengthOverflow bytes.length)) ∧
    (s.fePhase = .accumulating → bytes = [] → step s = .next { s with script := rest }) ∧
    (s.fePhase = .accumulating → bytes ≠ [] → s.totalBitLength.toNat + 8 * bytes.length < 2 ^ 64 →
      ∃ u v, runSteps (1 + bytes.length + 66 * ((s.pendingBuffer.length + bytes.length - 1) / 64)) s = .next u ∧
        u.script = rest ∧ (u.phase = .busy ↔ (s.pendingBuffer.length + bytes.length) % 64 = 0) ∧
        (u.task = .nothing ↔ (s.pendingBuffer.length + bytes.length) % 64 ≠ 0) ∧
        u.complete = .next v ∧ v.phase = .idle ∧ v.task = .nothing ∧ v.script = rest ∧
        v.H = chain s.K s.H (s.pendingBuffer ++ bytes) ((s.pendingBuffer.length + bytes.length) / 64) ∧
        v.pendingBuffer =
          (s.pendingBuffer ++ bytes).drop (64 * ((s.pendingBuffer.length + bytes.length) / 64)) ∧
        v.totalBitLength.toNat = s.totalBitLength.toNat + 8 * bytes.length ∧ v.fePhase = .accumulating ∧
        v.ready = true ∧ v.digestValid = true ∧ v.IV = s.IV ∧ v.K = s.K ∧ v.observed = s.observed)
end

