-- ==== Sys2Proof/Laws/Compression.lean ====
section
/-! SUPPORT. The schedule and the rounds, one step at a time: what `n` steps of them leave, and that the schedule
depends on the block only (spec/42_core_compression.md R146, R147, R150, R154). -/

namespace Sys2Proof.Machine

/-- The schedule after its entries below `n` have been made. -/
def scheduleTo (W : Words64) (n : Nat) : Words64 := ((List.finRange 64).take n).foldl scheduleStep W

/-- The working registers after the first `n` rounds over the finished schedule `W`. -/
def roundsTo (K W : Words64) (r : Working) (n : Nat) : Working :=
  ((List.finRange 64).take n).foldl (fun r t => round r K[t.val] W[t.val]) r

theorem take_finRange_succ (n : Nat) (hn : n < 64) :
    (List.finRange 64).take (n + 1) = (List.finRange 64).take n ++ [⟨n, hn⟩] := by
  rw [← List.take_append_getElem (by simpa using hn)]
  simp

@[simp] theorem scheduleTo_zero (W : Words64) : scheduleTo W 0 = W := rfl

theorem scheduleTo_succ (W : Words64) (n : Nat) (hn : n < 64) :
    scheduleTo W (n + 1) = scheduleStep (scheduleTo W n) ⟨n, hn⟩ := by
  simp [scheduleTo, take_finRange_succ n hn]

@[simp] theorem roundsTo_zero (K W : Words64) (r : Working) : roundsTo K W r 0 = r := rfl

theorem roundsTo_succ (K W : Words64) (r : Working) (n : Nat) (hn : n < 64) :
    roundsTo K W r (n + 1) = round (roundsTo K W r n) K[n] W[n] := by
  simp [roundsTo, take_finRange_succ n hn]

theorem take_finRange_all : (List.finRange 64).take 64 = List.finRange 64 :=
  List.take_of_length_le (by simp)

theorem schedule_eq_scheduleTo (block : Block) :
    schedule block = scheduleTo (loadSchedule block (Vector.replicate 64 0)) 64 := by
  simp only [schedule, scheduleTo, take_finRange_all]

theorem runRounds_eq_roundsTo (K W : Words64) (r : Working) : runRounds K W r = roundsTo K W r 64 := by
  simp only [runRounds, roundsTo, take_finRange_all]

/-- One schedule step writes entry `t`, and only from the sixteenth on. -/
theorem scheduleStep_getElem (W : Words64) (t : Fin 64) (j : Nat) (hj : j < 64) :
    (scheduleStep W t)[j] = if 16 ≤ t.val ∧ t.val = j then scheduleWord W t else W[j] := by
  unfold scheduleStep
  by_cases h : 16 ≤ t.val
  · simp [h, Vector.getElem_set]
  · simp [h]

theorem scheduleStep_getElem_ne (W : Words64) (t : Fin 64) (j : Nat) (hj : j < 64) (h : t.val ≠ j) :
    (scheduleStep W t)[j] = W[j] := by
  simp [scheduleStep_getElem, h]

/-- Entries below `n` are not touched by the steps from `n` on. -/
theorem scheduleTo_getElem_stable (W : Words64) (j n m : Nat) (hj : j < n) (hnm : n ≤ m) (hm : m ≤ 64) :
    (scheduleTo W m)[j] = (scheduleTo W n)[j] := by
  induction m, hnm using Nat.le_induction with
  | base => rfl
  | succ m hnm ih =>
    rw [getElem_congr_coll (scheduleTo_succ W m (by omega)),
      scheduleStep_getElem_ne _ _ _ (by omega) (by simp; omega), ih (by omega)]

/-- An entry that no step has made yet is still as loaded. -/
theorem scheduleTo_getElem_ge (W : Words64) (j n : Nat) (hn : n ≤ j) (hj : j < 64) :
    (scheduleTo W n)[j] = W[j] := by
  induction n with
  | zero => rfl
  | succ n ih =>
    rw [getElem_congr_coll (scheduleTo_succ W n (by omega)),
      scheduleStep_getElem_ne _ _ _ hj (by simp; omega), ih (by omega)]

/-- The first sixteen entries stand as loaded. -/
theorem scheduleTo_getElem_lt16 (W : Words64) (j n : Nat) (hj : j < 16) (hn : n ≤ 64) :
    (scheduleTo W n)[j] = W[j] := by
  induction n with
  | zero => rfl
  | succ n ih =>
    rw [getElem_congr_coll (scheduleTo_succ W n (by omega)), scheduleStep_getElem, ih (by omega)]
    simp only [ite_eq_right_iff]
    omega

/-- The word made for entry `t` depends on earlier entries only. -/
theorem scheduleWord_congr (W W' : Words64) (t : Fin 64) (ht : 16 ≤ t.val)
    (h : ∀ j : Nat, (hj : j < t.val) → W'[j] = W[j]) : scheduleWord W' t = scheduleWord W t := by
  unfold scheduleWord
  rw [h _ (by omega), h _ (by omega), h _ (by omega), h _ (by omega)]

/-- Two schedules that agree on their first sixteen entries agree on every entry made so far. -/
theorem scheduleTo_congr (W W' : Words64) (h : ∀ j : Nat, (hj : j < 16) → W'[j] = W[j]) (n : Nat)
    (hn : n ≤ 64) (j : Nat) (hj : j < max 16 n) (hj' : j < 64) :
    (scheduleTo W' n)[j] = (scheduleTo W n)[j] := by
  induction n generalizing j with
  | zero => exact h j (by omega)
  | succ n ih =>
    rw [getElem_congr_coll (scheduleTo_succ W n (by omega)), getElem_congr_coll (scheduleTo_succ W' n (by omega)),
      scheduleStep_getElem, scheduleStep_getElem]
    split
    · rename_i hc
      exact scheduleWord_congr _ _ _ hc.1 fun i hi => ih (by omega) i (by simp at hi; omega) (by simp at hi; omega)
    · rename_i hc
      exact ih (by omega) j (by simp only [not_and] at hc; omega) hj'

@[simp] theorem loadSchedule_getElem (block : Block) (W : Words64) (j : Nat) (hj : j < 64) :
    (loadSchedule block W)[j] = if j < 16 then blockWord block j else W[j] := by
  simp [loadSchedule]

/-- The 64 schedule steps after a load give `Schedule(B)`, whatever the array held before the load (R147: it depends on
`B` only). -/
theorem scheduleTo_loadSchedule (block : Block) (W : Words64) :
    scheduleTo (loadSchedule block W) 64 = schedule block := by
  have h : ∀ i : Nat, (hi : i < 16) →
      (loadSchedule block W)[i] = (loadSchedule block (Vector.replicate 64 0))[i] := by
    intro i hi
    rw [loadSchedule_getElem, loadSchedule_getElem, if_pos hi, if_pos hi]
  rw [schedule_eq_scheduleTo]
  apply Vector.ext
  intro j hj
  exact scheduleTo_congr _ _ h 64 (Nat.le_refl _) j (by omega) hj

/-- R146: the first sixteen words of the schedule are the block's. -/
theorem schedule_getElem_lt16 (block : Block) (j : Nat) (hj : j < 16) :
    (schedule block)[j] = blockWord block j := by
  rw [getElem_congr_coll (schedule_eq_scheduleTo block), scheduleTo_getElem_lt16 _ _ _ hj (by omega)]
  simp [hj]

/-- Entry `t >= 16` of the finished schedule is the word that `scheduleWord` makes of it. -/
theorem schedule_getElem_ge16 (block : Block) (t : Fin 64) (ht : 16 ≤ t.val) :
    (schedule block)[t.val] = scheduleWord (schedule block) t := by
  rw [schedule_eq_scheduleTo, scheduleTo_getElem_stable _ t.val (t.val + 1) 64 (by omega) (by omega) (by omega),
    getElem_congr_coll (scheduleTo_succ _ t.val t.isLt), scheduleStep_getElem]
  simp only [ht, true_and, ite_true]
  exact scheduleWord_congr _ _ _ ht fun j hj => (scheduleTo_getElem_stable _ j t.val 64 hj (by omega) (by omega)).symm

@[simp] theorem feedForward_getElem (H : Words8) (r : Working) (i : Nat) (hi : i < 8) :
    (feedForward H r)[i] = add32 [H[i], (workingWords r)[i]] := by
  simp [feedForward]

end Sys2Proof.Machine
end

