-- ==== Sys2Proof/Laws/State.lean ====
section
/-! SUPPORT. One lemma per field per update of the state: what the update leaves in that field. -/

namespace Sys2Proof.Machine

variable (s : State)

@[simp] theorem State.goBusy_H : (s.goBusy).H = s.H := rfl
@[simp] theorem State.goBusy_initSinceReset : (s.goBusy).initSinceReset = s.initSinceReset := rfl
@[simp] theorem State.goBusy_regs : (s.goBusy).regs = s.regs := rfl
@[simp] theorem State.goBusy_W : (s.goBusy).W = s.W := rfl
@[simp] theorem State.goBusy_t : (s.goBusy).t = s.t := rfl
@[simp] theorem State.goBusy_phase : (s.goBusy).phase = .busy := rfl
@[simp] theorem State.goBusy_ready : (s.goBusy).ready = false := rfl
@[simp] theorem State.goBusy_digestValid : (s.goBusy).digestValid = false := rfl
@[simp] theorem State.goBusy_IV : (s.goBusy).IV = s.IV := rfl
@[simp] theorem State.goBusy_K : (s.goBusy).K = s.K := rfl
@[simp] theorem State.goBusy_pendingBuffer : (s.goBusy).pendingBuffer = s.pendingBuffer := rfl
@[simp] theorem State.goBusy_totalBitLength : (s.goBusy).totalBitLength = s.totalBitLength := rfl
@[simp] theorem State.goBusy_fePhase : (s.goBusy).fePhase = s.fePhase := rfl
@[simp] theorem State.goBusy_task : (s.goBusy).task = s.task := rfl
@[simp] theorem State.goBusy_script : (s.goBusy).script = s.script := rfl
@[simp] theorem State.goBusy_observed : (s.goBusy).observed = s.observed := rfl

@[simp] theorem State.goIdle_H : (s.goIdle).H = s.H := rfl
@[simp] theorem State.goIdle_initSinceReset : (s.goIdle).initSinceReset = s.initSinceReset := rfl
@[simp] theorem State.goIdle_regs : (s.goIdle).regs = s.regs := rfl
@[simp] theorem State.goIdle_W : (s.goIdle).W = s.W := rfl
@[simp] theorem State.goIdle_t : (s.goIdle).t = s.t := rfl
@[simp] theorem State.goIdle_phase : (s.goIdle).phase = .idle := rfl
@[simp] theorem State.goIdle_ready : (s.goIdle).ready = true := rfl
@[simp] theorem State.goIdle_digestValid : (s.goIdle).digestValid = true := rfl
@[simp] theorem State.goIdle_IV : (s.goIdle).IV = s.IV := rfl
@[simp] theorem State.goIdle_K : (s.goIdle).K = s.K := rfl
@[simp] theorem State.goIdle_pendingBuffer : (s.goIdle).pendingBuffer = s.pendingBuffer := rfl
@[simp] theorem State.goIdle_totalBitLength : (s.goIdle).totalBitLength = s.totalBitLength := rfl
@[simp] theorem State.goIdle_fePhase : (s.goIdle).fePhase = s.fePhase := rfl
@[simp] theorem State.goIdle_task : (s.goIdle).task = s.task := rfl
@[simp] theorem State.goIdle_script : (s.goIdle).script = s.script := rfl
@[simp] theorem State.goIdle_observed : (s.goIdle).observed = s.observed := rfl

@[simp] theorem State.flagsOfInit_H : (s.flagsOfInit).H = s.H := rfl
@[simp] theorem State.flagsOfInit_initSinceReset : (s.flagsOfInit).initSinceReset = true := rfl
@[simp] theorem State.flagsOfInit_regs : (s.flagsOfInit).regs = s.regs := rfl
@[simp] theorem State.flagsOfInit_W : (s.flagsOfInit).W = s.W := rfl
@[simp] theorem State.flagsOfInit_t : (s.flagsOfInit).t = s.t := rfl
@[simp] theorem State.flagsOfInit_phase : (s.flagsOfInit).phase = s.phase := rfl
@[simp] theorem State.flagsOfInit_ready : (s.flagsOfInit).ready = s.ready := rfl
@[simp] theorem State.flagsOfInit_digestValid : (s.flagsOfInit).digestValid = true := rfl
@[simp] theorem State.flagsOfInit_IV : (s.flagsOfInit).IV = s.IV := rfl
@[simp] theorem State.flagsOfInit_K : (s.flagsOfInit).K = s.K := rfl
@[simp] theorem State.flagsOfInit_pendingBuffer : (s.flagsOfInit).pendingBuffer = s.pendingBuffer := rfl
@[simp] theorem State.flagsOfInit_totalBitLength : (s.flagsOfInit).totalBitLength = s.totalBitLength := rfl
@[simp] theorem State.flagsOfInit_fePhase : (s.flagsOfInit).fePhase = s.fePhase := rfl
@[simp] theorem State.flagsOfInit_task : (s.flagsOfInit).task = s.task := rfl
@[simp] theorem State.flagsOfInit_script : (s.flagsOfInit).script = s.script := rfl
@[simp] theorem State.flagsOfInit_observed : (s.flagsOfInit).observed = s.observed := rfl

@[simp] theorem State.loadIV_H : (s.loadIV).H = s.IV := rfl
@[simp] theorem State.loadIV_initSinceReset : (s.loadIV).initSinceReset = s.initSinceReset := rfl
@[simp] theorem State.loadIV_regs : (s.loadIV).regs = s.regs := rfl
@[simp] theorem State.loadIV_W : (s.loadIV).W = s.W := rfl
@[simp] theorem State.loadIV_t : (s.loadIV).t = s.t := rfl
@[simp] theorem State.loadIV_phase : (s.loadIV).phase = s.phase := rfl
@[simp] theorem State.loadIV_ready : (s.loadIV).ready = s.ready := rfl
@[simp] theorem State.loadIV_digestValid : (s.loadIV).digestValid = s.digestValid := rfl
@[simp] theorem State.loadIV_IV : (s.loadIV).IV = s.IV := rfl
@[simp] theorem State.loadIV_K : (s.loadIV).K = s.K := rfl
@[simp] theorem State.loadIV_pendingBuffer : (s.loadIV).pendingBuffer = s.pendingBuffer := rfl
@[simp] theorem State.loadIV_totalBitLength : (s.loadIV).totalBitLength = s.totalBitLength := rfl
@[simp] theorem State.loadIV_fePhase : (s.loadIV).fePhase = s.fePhase := rfl
@[simp] theorem State.loadIV_task : (s.loadIV).task = s.task := rfl
@[simp] theorem State.loadIV_script : (s.loadIV).script = s.script := rfl
@[simp] theorem State.loadIV_observed : (s.loadIV).observed = s.observed := rfl

@[simp] theorem State.appendPending_H (bytes : List Byte) : (s.appendPending bytes).H = s.H := rfl
@[simp] theorem State.appendPending_initSinceReset (bytes : List Byte) : (s.appendPending bytes).initSinceReset = s.initSinceReset := rfl
@[simp] theorem State.appendPending_regs (bytes : List Byte) : (s.appendPending bytes).regs = s.regs := rfl
@[simp] theorem State.appendPending_W (bytes : List Byte) : (s.appendPending bytes).W = s.W := rfl
@[simp] theorem State.appendPending_t (bytes : List Byte) : (s.appendPending bytes).t = s.t := rfl
@[simp] theorem State.appendPending_phase (bytes : List Byte) : (s.appendPending bytes).phase = s.phase := rfl
@[simp] theorem State.appendPending_ready (bytes : List Byte) : (s.appendPending bytes).ready = s.ready := rfl
@[simp] theorem State.appendPending_digestValid (bytes : List Byte) : (s.appendPending bytes).digestValid = s.digestValid := rfl
@[simp] theorem State.appendPending_IV (bytes : List Byte) : (s.appendPending bytes).IV = s.IV := rfl
@[simp] theorem State.appendPending_K (bytes : List Byte) : (s.appendPending bytes).K = s.K := rfl
@[simp] theorem State.appendPending_pendingBuffer (bytes : List Byte) : (s.appendPending bytes).pendingBuffer = s.pendingBuffer ++ bytes := rfl
@[simp] theorem State.appendPending_totalBitLength (bytes : List Byte) : (s.appendPending bytes).totalBitLength = s.totalBitLength := rfl
@[simp] theorem State.appendPending_fePhase (bytes : List Byte) : (s.appendPending bytes).fePhase = s.fePhase := rfl
@[simp] theorem State.appendPending_task (bytes : List Byte) : (s.appendPending bytes).task = s.task := rfl
@[simp] theorem State.appendPending_script (bytes : List Byte) : (s.appendPending bytes).script = s.script := rfl
@[simp] theorem State.appendPending_observed (bytes : List Byte) : (s.appendPending bytes).observed = s.observed := rfl

@[simp] theorem State.dropFrontBlock_H : (s.dropFrontBlock).H = s.H := rfl
@[simp] theorem State.dropFrontBlock_initSinceReset : (s.dropFrontBlock).initSinceReset = s.initSinceReset := rfl
@[simp] theorem State.dropFrontBlock_regs : (s.dropFrontBlock).regs = s.regs := rfl
@[simp] theorem State.dropFrontBlock_W : (s.dropFrontBlock).W = s.W := rfl
@[simp] theorem State.dropFrontBlock_t : (s.dropFrontBlock).t = s.t := rfl
@[simp] theorem State.dropFrontBlock_phase : (s.dropFrontBlock).phase = s.phase := rfl
@[simp] theorem State.dropFrontBlock_ready : (s.dropFrontBlock).ready = s.ready := rfl
@[simp] theorem State.dropFrontBlock_digestValid : (s.dropFrontBlock).digestValid = s.digestValid := rfl
@[simp] theorem State.dropFrontBlock_IV : (s.dropFrontBlock).IV = s.IV := rfl
@[simp] theorem State.dropFrontBlock_K : (s.dropFrontBlock).K = s.K := rfl
@[simp] theorem State.dropFrontBlock_pendingBuffer : (s.dropFrontBlock).pendingBuffer = s.pendingBuffer.drop 64 := rfl
@[simp] theorem State.dropFrontBlock_totalBitLength : (s.dropFrontBlock).totalBitLength = s.totalBitLength := rfl
@[simp] theorem State.dropFrontBlock_fePhase : (s.dropFrontBlock).fePhase = s.fePhase := rfl
@[simp] theorem State.dropFrontBlock_task : (s.dropFrontBlock).task = s.task := rfl
@[simp] theorem State.dropFrontBlock_script : (s.dropFrontBlock).script = s.script := rfl
@[simp] theorem State.dropFrontBlock_observed : (s.dropFrontBlock).observed = s.observed := rfl

@[simp] theorem State.clearPending_H : (s.clearPending).H = s.H := rfl
@[simp] theorem State.clearPending_initSinceReset : (s.clearPending).initSinceReset = s.initSinceReset := rfl
@[simp] theorem State.clearPending_regs : (s.clearPending).regs = s.regs := rfl
@[simp] theorem State.clearPending_W : (s.clearPending).W = s.W := rfl
@[simp] theorem State.clearPending_t : (s.clearPending).t = s.t := rfl
@[simp] theorem State.clearPending_phase : (s.clearPending).phase = s.phase := rfl
@[simp] theorem State.clearPending_ready : (s.clearPending).ready = s.ready := rfl
@[simp] theorem State.clearPending_digestValid : (s.clearPending).digestValid = s.digestValid := rfl
@[simp] theorem State.clearPending_IV : (s.clearPending).IV = s.IV := rfl
@[simp] theorem State.clearPending_K : (s.clearPending).K = s.K := rfl
@[simp] theorem State.clearPending_pendingBuffer : (s.clearPending).pendingBuffer = [] := rfl
@[simp] theorem State.clearPending_totalBitLength : (s.clearPending).totalBitLength = s.totalBitLength := rfl
@[simp] theorem State.clearPending_fePhase : (s.clearPending).fePhase = s.fePhase := rfl
@[simp] theorem State.clearPending_task : (s.clearPending).task = s.task := rfl
@[simp] theorem State.clearPending_script : (s.clearPending).script = s.script := rfl
@[simp] theorem State.clearPending_observed : (s.clearPending).observed = s.observed := rfl

@[simp] theorem State.countBytes_H (n : Nat) : (s.countBytes n).H = s.H := rfl
@[simp] theorem State.countBytes_initSinceReset (n : Nat) : (s.countBytes n).initSinceReset = s.initSinceReset := rfl
@[simp] theorem State.countBytes_regs (n : Nat) : (s.countBytes n).regs = s.regs := rfl
@[simp] theorem State.countBytes_W (n : Nat) : (s.countBytes n).W = s.W := rfl
@[simp] theorem State.countBytes_t (n : Nat) : (s.countBytes n).t = s.t := rfl
@[simp] theorem State.countBytes_phase (n : Nat) : (s.countBytes n).phase = s.phase := rfl
@[simp] theorem State.countBytes_ready (n : Nat) : (s.countBytes n).ready = s.ready := rfl
@[simp] theorem State.countBytes_digestValid (n : Nat) : (s.countBytes n).digestValid = s.digestValid := rfl
@[simp] theorem State.countBytes_IV (n : Nat) : (s.countBytes n).IV = s.IV := rfl
@[simp] theorem State.countBytes_K (n : Nat) : (s.countBytes n).K = s.K := rfl
@[simp] theorem State.countBytes_pendingBuffer (n : Nat) : (s.countBytes n).pendingBuffer = s.pendingBuffer := rfl
@[simp] theorem State.countBytes_totalBitLength (n : Nat) : (s.countBytes n).totalBitLength = s.totalBitLength + BitVec.ofNat 64 (8 * n) := rfl
@[simp] theorem State.countBytes_fePhase (n : Nat) : (s.countBytes n).fePhase = s.fePhase := rfl
@[simp] theorem State.countBytes_task (n : Nat) : (s.countBytes n).task = s.task := rfl
@[simp] theorem State.countBytes_script (n : Nat) : (s.countBytes n).script = s.script := rfl
@[simp] theorem State.countBytes_observed (n : Nat) : (s.countBytes n).observed = s.observed := rfl

@[simp] theorem State.setTask_H (task : FramingTask) : (s.setTask task).H = s.H := rfl
@[simp] theorem State.setTask_initSinceReset (task : FramingTask) : (s.setTask task).initSinceReset = s.initSinceReset := rfl
@[simp] theorem State.setTask_regs (task : FramingTask) : (s.setTask task).regs = s.regs := rfl
@[simp] theorem State.setTask_W (task : FramingTask) : (s.setTask task).W = s.W := rfl
@[simp] theorem State.setTask_t (task : FramingTask) : (s.setTask task).t = s.t := rfl
@[simp] theorem State.setTask_phase (task : FramingTask) : (s.setTask task).phase = s.phase := rfl
@[simp] theorem State.setTask_ready (task : FramingTask) : (s.setTask task).ready = s.ready := rfl
@[simp] theorem State.setTask_digestValid (task : FramingTask) : (s.setTask task).digestValid = s.digestValid := rfl
@[simp] theorem State.setTask_IV (task : FramingTask) : (s.setTask task).IV = s.IV := rfl
@[simp] theorem State.setTask_K (task : FramingTask) : (s.setTask task).K = s.K := rfl
@[simp] theorem State.setTask_pendingBuffer (task : FramingTask) : (s.setTask task).pendingBuffer = s.pendingBuffer := rfl
@[simp] theorem State.setTask_totalBitLength (task : FramingTask) : (s.setTask task).totalBitLength = s.totalBitLength := rfl
@[simp] theorem State.setTask_fePhase (task : FramingTask) : (s.setTask task).fePhase = s.fePhase := rfl
@[simp] theorem State.setTask_task (task : FramingTask) : (s.setTask task).task = task := rfl
@[simp] theorem State.setTask_script (task : FramingTask) : (s.setTask task).script = s.script := rfl
@[simp] theorem State.setTask_observed (task : FramingTask) : (s.setTask task).observed = s.observed := rfl

@[simp] theorem State.record_H (o : Observation) : (s.record o).H = s.H := rfl
@[simp] theorem State.record_initSinceReset (o : Observation) : (s.record o).initSinceReset = s.initSinceReset := rfl
@[simp] theorem State.record_regs (o : Observation) : (s.record o).regs = s.regs := rfl
@[simp] theorem State.record_W (o : Observation) : (s.record o).W = s.W := rfl
@[simp] theorem State.record_t (o : Observation) : (s.record o).t = s.t := rfl
@[simp] theorem State.record_phase (o : Observation) : (s.record o).phase = s.phase := rfl
@[simp] theorem State.record_ready (o : Observation) : (s.record o).ready = s.ready := rfl
@[simp] theorem State.record_digestValid (o : Observation) : (s.record o).digestValid = s.digestValid := rfl
@[simp] theorem State.record_IV (o : Observation) : (s.record o).IV = s.IV := rfl
@[simp] theorem State.record_K (o : Observation) : (s.record o).K = s.K := rfl
@[simp] theorem State.record_pendingBuffer (o : Observation) : (s.record o).pendingBuffer = s.pendingBuffer := rfl
@[simp] theorem State.record_totalBitLength (o : Observation) : (s.record o).totalBitLength = s.totalBitLength := rfl
@[simp] theorem State.record_fePhase (o : Observation) : (s.record o).fePhase = s.fePhase := rfl
@[simp] theorem State.record_task (o : Observation) : (s.record o).task = s.task := rfl
@[simp] theorem State.record_script (o : Observation) : (s.record o).script = s.script := rfl
@[simp] theorem State.record_observed (o : Observation) : (s.record o).observed = s.observed ++ [o] := rfl

@[simp] theorem State.resetEvent_H : (s.resetEvent).H = Vector.replicate 8 0 := rfl
@[simp] theorem State.resetEvent_initSinceReset : (s.resetEvent).initSinceReset = false := rfl
@[simp] theorem State.resetEvent_regs : (s.resetEvent).regs = ⟨0, 0, 0, 0, 0, 0, 0, 0⟩ := rfl
@[simp] theorem State.resetEvent_W : (s.resetEvent).W = Vector.replicate 64 0 := rfl
@[simp] theorem State.resetEvent_t : (s.resetEvent).t = 0 := rfl
@[simp] theorem State.resetEvent_phase : (s.resetEvent).phase = .idle := rfl
@[simp] theorem State.resetEvent_ready : (s.resetEvent).ready = true := rfl
@[simp] theorem State.resetEvent_digestValid : (s.resetEvent).digestValid = false := rfl
@[simp] theorem State.resetEvent_IV : (s.resetEvent).IV = s.IV := rfl
@[simp] theorem State.resetEvent_K : (s.resetEvent).K = s.K := rfl
@[simp] theorem State.resetEvent_pendingBuffer : (s.resetEvent).pendingBuffer = [] := rfl
@[simp] theorem State.resetEvent_totalBitLength : (s.resetEvent).totalBitLength = 0 := rfl
@[simp] theorem State.resetEvent_fePhase : (s.resetEvent).fePhase = .unconstructed := rfl
@[simp] theorem State.resetEvent_task : (s.resetEvent).task = .nothing := rfl
@[simp] theorem State.resetEvent_script : (s.resetEvent).script = s.script := rfl
@[simp] theorem State.resetEvent_observed : (s.resetEvent).observed = s.observed := rfl

@[simp] theorem State.acceptNext_H (block : Block) : (s.acceptNext block).H = s.H := rfl
@[simp] theorem State.acceptNext_initSinceReset (block : Block) : (s.acceptNext block).initSinceReset = s.initSinceReset := rfl
@[simp] theorem State.acceptNext_regs (block : Block) : (s.acceptNext block).regs = workingOf s.H := rfl
@[simp] theorem State.acceptNext_W (block : Block) : (s.acceptNext block).W = loadSchedule block s.W := rfl
@[simp] theorem State.acceptNext_t (block : Block) : (s.acceptNext block).t = 0 := rfl
@[simp] theorem State.acceptNext_phase (block : Block) : (s.acceptNext block).phase = .busy := rfl
@[simp] theorem State.acceptNext_ready (block : Block) : (s.acceptNext block).ready = false := rfl
@[simp] theorem State.acceptNext_digestValid (block : Block) : (s.acceptNext block).digestValid = false := rfl
@[simp] theorem State.acceptNext_IV (block : Block) : (s.acceptNext block).IV = s.IV := rfl
@[simp] theorem State.acceptNext_K (block : Block) : (s.acceptNext block).K = s.K := rfl
@[simp] theorem State.acceptNext_pendingBuffer (block : Block) : (s.acceptNext block).pendingBuffer = s.pendingBuffer := rfl
@[simp] theorem State.acceptNext_totalBitLength (block : Block) : (s.acceptNext block).totalBitLength = s.totalBitLength := rfl
@[simp] theorem State.acceptNext_fePhase (block : Block) : (s.acceptNext block).fePhase = s.fePhase := rfl
@[simp] theorem State.acceptNext_task (block : Block) : (s.acceptNext block).task = s.task := rfl
@[simp] theorem State.acceptNext_script (block : Block) : (s.acceptNext block).script = s.script := rfl
@[simp] theorem State.acceptNext_observed (block : Block) : (s.acceptNext block).observed = s.observed := rfl

@[simp] theorem State.roundStep_H (t : Fin 64) : (s.roundStep t).H = s.H := rfl
@[simp] theorem State.roundStep_initSinceReset (t : Fin 64) : (s.roundStep t).initSinceReset = s.initSinceReset := rfl
@[simp] theorem State.roundStep_regs (t : Fin 64) : (s.roundStep t).regs = round s.regs s.K[t.val] (scheduleStep s.W t)[t.val] := rfl
@[simp] theorem State.roundStep_W (t : Fin 64) : (s.roundStep t).W = scheduleStep s.W t := rfl
@[simp] theorem State.roundStep_t (t : Fin 64) : (s.roundStep t).t = t.succ := rfl
@[simp] theorem State.roundStep_phase (t : Fin 64) : (s.roundStep t).phase = s.phase := rfl
@[simp] theorem State.roundStep_ready (t : Fin 64) : (s.roundStep t).ready = s.ready := rfl
@[simp] theorem State.roundStep_digestValid (t : Fin 64) : (s.roundStep t).digestValid = s.digestValid := rfl
@[simp] theorem State.roundStep_IV (t : Fin 64) : (s.roundStep t).IV = s.IV := rfl
@[simp] theorem State.roundStep_K (t : Fin 64) : (s.roundStep t).K = s.K := rfl
@[simp] theorem State.roundStep_pendingBuffer (t : Fin 64) : (s.roundStep t).pendingBuffer = s.pendingBuffer := rfl
@[simp] theorem State.roundStep_totalBitLength (t : Fin 64) : (s.roundStep t).totalBitLength = s.totalBitLength := rfl
@[simp] theorem State.roundStep_fePhase (t : Fin 64) : (s.roundStep t).fePhase = s.fePhase := rfl
@[simp] theorem State.roundStep_task (t : Fin 64) : (s.roundStep t).task = s.task := rfl
@[simp] theorem State.roundStep_script (t : Fin 64) : (s.roundStep t).script = s.script := rfl
@[simp] theorem State.roundStep_observed (t : Fin 64) : (s.roundStep t).observed = s.observed := rfl

@[simp] theorem State.finishStep_H : (s.finishStep).H = feedForward s.H s.regs := rfl
@[simp] theorem State.finishStep_initSinceReset : (s.finishStep).initSinceReset = s.initSinceReset := rfl
@[simp] theorem State.finishStep_regs : (s.finishStep).regs = s.regs := rfl
@[simp] theorem State.finishStep_W : (s.finishStep).W = s.W := rfl
@[simp] theorem State.finishStep_t : (s.finishStep).t = s.t := rfl
@[simp] theorem State.finishStep_phase : (s.finishStep).phase = .idle := rfl
@[simp] theorem State.finishStep_ready : (s.finishStep).ready = true := rfl
@[simp] theorem State.finishStep_digestValid : (s.finishStep).digestValid = true := rfl
@[simp] theorem State.finishStep_IV : (s.finishStep).IV = s.IV := rfl
@[simp] theorem State.finishStep_K : (s.finishStep).K = s.K := rfl
@[simp] theorem State.finishStep_pendingBuffer : (s.finishStep).pendingBuffer = s.pendingBuffer := rfl
@[simp] theorem State.finishStep_totalBitLength : (s.finishStep).totalBitLength = s.totalBitLength := rfl
@[simp] theorem State.finishStep_fePhase : (s.finishStep).fePhase = s.fePhase := rfl
@[simp] theorem State.finishStep_task : (s.finishStep).task = s.task := rfl
@[simp] theorem State.finishStep_script : (s.finishStep).script = s.script := rfl
@[simp] theorem State.finishStep_observed : (s.finishStep).observed = s.observed := rfl

end Sys2Proof.Machine
end

