-- ==== Sys2Proof/Laws/CoreSteps.lean ====
section
/-! SUPPORT. What the core's own steps can do, and what a busy core is when it has finished
(spec/42_core_compression.md R144, R153; spec/70_reset_and_hazards.md R230). -/

namespace Sys2Proof.Machine

@[simp] theorem andThen_next (s : State) (f : State → Result) : andThen (.next s) f = f s := rfl
@[simp] theorem andThen_fault (e : Fault) (f : State → Result) : andThen (.fault e) f = .fault e := rfl
@[simp] theorem andThen_refused (e : Refusal) (f : State → Result) : andThen (.refused e) f = .refused e := rfl

theorem andThen_assoc (r : Result) (f g : State → Result) :
    andThen (andThen r f) g = andThen r fun s => andThen (f s) g := by
  cases r <;> rfl

theorem andThen_eq_next {r : Result} {f : State → Result} {t : State} :
    andThen r f = .next t ↔ ∃ s, r = .next s ∧ f s = .next t := by
  cases r <;> simp

theorem phase_ne_busy {p : Phase} : p ≠ .busy ↔ p = .idle := by cases p <;> simp

theorem coreStep_round (s : State) (h : s.t.val < 64) : s.coreStep = s.roundStep ⟨s.t.val, h⟩ := by
  simp [State.coreStep, h]

theorem coreStep_finish (s : State) (h : s.t.val = 64) : s.coreStep = s.finishStep := by
  simp [State.coreStep, h]

/-- A core step is a round or the feed-forward. -/
theorem coreStep_cases (s : State) :
    (∃ h : s.t.val < 64, s.coreStep = s.roundStep ⟨s.t.val, h⟩) ∨ (s.t.val = 64 ∧ s.coreStep = s.finishStep) := by
  by_cases h : s.t.val < 64
  · exact .inl ⟨h, coreStep_round s h⟩
  · exact .inr ⟨by omega, coreStep_finish s (by omega)⟩

/-- The fields that no step of the core touches. -/
theorem coreStep_frame (s : State) :
    s.coreStep.initSinceReset = s.initSinceReset ∧ s.coreStep.IV = s.IV ∧ s.coreStep.K = s.K ∧
      s.coreStep.pendingBuffer = s.pendingBuffer ∧ s.coreStep.totalBitLength = s.totalBitLength ∧
      s.coreStep.fePhase = s.fePhase ∧ s.coreStep.task = s.task ∧ s.coreStep.script = s.script ∧
      s.coreStep.observed = s.observed := by
  obtain ⟨_, h⟩ | ⟨_, h⟩ := coreStep_cases s <;> simp [h]

@[simp] theorem coreStep_initSinceReset (s : State) : s.coreStep.initSinceReset = s.initSinceReset :=
  (coreStep_frame s).1
@[simp] theorem coreStep_IV (s : State) : s.coreStep.IV = s.IV := (coreStep_frame s).2.1
@[simp] theorem coreStep_K (s : State) : s.coreStep.K = s.K := (coreStep_frame s).2.2.1
@[simp] theorem coreStep_pendingBuffer (s : State) : s.coreStep.pendingBuffer = s.pendingBuffer :=
  (coreStep_frame s).2.2.2.1
@[simp] theorem coreStep_totalBitLength (s : State) : s.coreStep.totalBitLength = s.totalBitLength :=
  (coreStep_frame s).2.2.2.2.1
@[simp] theorem coreStep_fePhase (s : State) : s.coreStep.fePhase = s.fePhase := (coreStep_frame s).2.2.2.2.2.1
@[simp] theorem coreStep_task (s : State) : s.coreStep.task = s.task := (coreStep_frame s).2.2.2.2.2.2.1
@[simp] theorem coreStep_script (s : State) : s.coreStep.script = s.script := (coreStep_frame s).2.2.2.2.2.2.2.1
@[simp] theorem coreStep_observed (s : State) : s.coreStep.observed = s.observed :=
  (coreStep_frame s).2.2.2.2.2.2.2.2

/-- `n` steps of the core. -/
def State.coreSteps : Nat → State → State
  | 0, s => s
  | n + 1, s => State.coreSteps n s.coreStep

@[simp] theorem coreSteps_zero (s : State) : s.coreSteps 0 = s := rfl

theorem coreSteps_succ (n : Nat) (s : State) : s.coreSteps (n + 1) = s.coreStep.coreSteps n := rfl

theorem coreSteps_succ' (n : Nat) (s : State) : s.coreSteps (n + 1) = (s.coreSteps n).coreStep := by
  induction n generalizing s with
  | zero => rfl
  | succ n ih => rw [coreSteps_succ, ih, ← coreSteps_succ]

/-- What the core is given besides its own fields is carried through its steps unchanged. -/
theorem coreSteps_framing (n : Nat) (s : State) (p : List Byte) (L : BitVec 64) (f : FePhase) (task : FramingTask)
    (lines : List HostLine) (o : List Observation) :
    ({ s with
        pendingBuffer := p, totalBitLength := L, fePhase := f, task := task, script := lines
        observed := o } : State).coreSteps n =
      { s.coreSteps n with
        pendingBuffer := p, totalBitLength := L, fePhase := f, task := task, script := lines, observed := o } := by
  induction n generalizing s with
  | zero => rfl
  | succ n ih =>
    rw [coreSteps_succ, coreSteps_succ, ← ih]
    congr 1
    unfold State.coreStep
    by_cases h : s.t.val < 64
    · rw [dif_pos h, dif_pos (by exact h)]
      rfl
    · rw [dif_neg h, dif_neg (by exact h)]
      rfl

theorem coreSteps_frame (n : Nat) (s : State) :
    (s.coreSteps n).initSinceReset = s.initSinceReset ∧ (s.coreSteps n).IV = s.IV ∧ (s.coreSteps n).K = s.K ∧
      (s.coreSteps n).pendingBuffer = s.pendingBuffer ∧ (s.coreSteps n).totalBitLength = s.totalBitLength ∧
      (s.coreSteps n).fePhase = s.fePhase ∧ (s.coreSteps n).task = s.task ∧ (s.coreSteps n).script = s.script ∧
      (s.coreSteps n).observed = s.observed := by
  induction n generalizing s with
  | zero => simp
  | succ n ih => simpa [coreSteps_succ] using ih s.coreStep

/-- A busy core stays busy for the rounds it has left; each step is one round. -/
theorem coreSteps_busy (s : State) (hb : s.phase = .busy) (n : Nat) (hn : s.t.val + n ≤ 64) :
    (s.coreSteps n).phase = .busy ∧ (s.coreSteps n).t.val = s.t.val + n ∧ (s.coreSteps n).H = s.H ∧
      (s.coreSteps n).ready = s.ready ∧ (s.coreSteps n).digestValid = s.digestValid := by
  induction n with
  | zero => simp [hb]
  | succ n ih =>
    obtain ⟨hp, ht, hH, hr, hd⟩ := ih (by omega)
    rw [coreSteps_succ', coreStep_round _ (by omega)]
    simp [hp, ht, hH, hr, hd]
    omega

/-- R230: after the rounds it has left and the feed-forward, a busy core is idle and its two flags are set. -/
theorem coreSteps_completes (s : State) (hb : s.phase = .busy) :
    (s.coreSteps (65 - s.t.val)).phase = .idle ∧ (s.coreSteps (65 - s.t.val)).ready = true ∧
      (s.coreSteps (65 - s.t.val)).digestValid = true := by
  obtain ⟨hp, ht, -⟩ := coreSteps_busy s hb (64 - s.t.val) (by omega)
  rw [show 65 - s.t.val = (64 - s.t.val) + 1 by omega, coreSteps_succ', coreStep_finish _ (by omega)]
  simp

/-- The state once the core is ready: a busy core has taken its last step, nothing else has happened. -/
def State.idled (s : State) : State := if s.phase = .busy then s.coreSteps (65 - s.t.val) else s

@[simp] theorem idled_idle {s : State} (h : s.phase = .idle) : s.idled = s := by simp [State.idled, h]

theorem idled_busy {s : State} (h : s.phase = .busy) : s.idled = s.coreSteps (65 - s.t.val) := by
  simp [State.idled, h]

@[simp] theorem idled_phase (s : State) : s.idled.phase = .idle := by
  by_cases h : s.phase = .busy
  · rw [idled_busy h]
    exact (coreSteps_completes s h).1
  · rw [idled_idle (phase_ne_busy.1 h)]
    exact phase_ne_busy.1 h

theorem idled_flags_busy {s : State} (h : s.phase = .busy) :
    s.idled.ready = true ∧ s.idled.digestValid = true := by
  rw [idled_busy h]
  exact (coreSteps_completes s h).2

theorem idled_frame (s : State) :
    s.idled.initSinceReset = s.initSinceReset ∧ s.idled.IV = s.IV ∧ s.idled.K = s.K ∧
      s.idled.pendingBuffer = s.pendingBuffer ∧ s.idled.totalBitLength = s.totalBitLength ∧
      s.idled.fePhase = s.fePhase ∧ s.idled.task = s.task ∧ s.idled.script = s.script ∧
      s.idled.observed = s.observed := by
  unfold State.idled
  split
  · exact coreSteps_frame _ s
  · simp

@[simp] theorem idled_initSinceReset (s : State) : s.idled.initSinceReset = s.initSinceReset := (idled_frame s).1
@[simp] theorem idled_IV (s : State) : s.idled.IV = s.IV := (idled_frame s).2.1
@[simp] theorem idled_K (s : State) : s.idled.K = s.K := (idled_frame s).2.2.1
@[simp] theorem idled_pendingBuffer (s : State) : s.idled.pendingBuffer = s.pendingBuffer := (idled_frame s).2.2.2.1
@[simp] theorem idled_totalBitLength (s : State) : s.idled.totalBitLength = s.totalBitLength :=
  (idled_frame s).2.2.2.2.1
@[simp] theorem idled_fePhase (s : State) : s.idled.fePhase = s.fePhase := (idled_frame s).2.2.2.2.2.1
@[simp] theorem idled_task (s : State) : s.idled.task = s.task := (idled_frame s).2.2.2.2.2.2.1
@[simp] theorem idled_script (s : State) : s.idled.script = s.script := (idled_frame s).2.2.2.2.2.2.2.1
@[simp] theorem idled_observed (s : State) : s.idled.observed = s.observed := (idled_frame s).2.2.2.2.2.2.2.2

/-- What the core is given besides its own fields does not change how it finishes. -/
theorem idled_framing (s : State) (p : List Byte) (L : BitVec 64) (f : FePhase) (task : FramingTask)
    (lines : List HostLine) (o : List Observation) :
    ({ s with
        pendingBuffer := p, totalBitLength := L, fePhase := f, task := task, script := lines
        observed := o } : State).idled =
      { s.idled with
        pendingBuffer := p, totalBitLength := L, fePhase := f, task := task, script := lines, observed := o } := by
  by_cases h : s.phase = .busy
  · rw [idled_busy h, idled_busy (by exact h), ← coreSteps_framing]
  · rw [idled_idle (phase_ne_busy.1 h), idled_idle (by exact phase_ne_busy.1 h)]

/-- After `n` rounds of a block: the schedule entries below `n` are made, the registers are those of `n` rounds over
the finished schedule. -/
theorem acceptNext_coreSteps (s : State) (block : Block) (n : Nat) (hn : n ≤ 64) :
    (s.acceptNext block).coreSteps n =
      { s.acceptNext block with
        W := scheduleTo (loadSchedule block s.W) n
        regs := roundsTo s.K (schedule block) (workingOf s.H) n
        t := ⟨n, by omega⟩ } := by
  induction n with
  | zero => rfl
  | succ n ih =>
    have hW : (scheduleStep (scheduleTo (loadSchedule block s.W) n) ⟨n, by omega⟩)[n] = (schedule block)[n] := by
      rw [← getElem_congr_coll (scheduleTo_succ _ n (by omega)), ← scheduleTo_loadSchedule block s.W]
      exact (scheduleTo_getElem_stable _ n (n + 1) 64 (by omega) (by omega) (by omega)).symm
    rw [coreSteps_succ', ih (by omega), coreStep_round _ (by simpa using by omega)]
    simp only [State.roundStep, State.acceptNext_K, hW, scheduleTo_succ _ n (show n < 64 by omega),
      roundsTo_succ _ _ _ n (show n < 64 by omega)]
    rfl

/-- What an accepted `NEXT` has left when it completes (R144). -/
def State.afterNext (s : State) (block : Block) : State :=
  { s with
    H := compress s.H block s.K
    regs := runRounds s.K (schedule block) (workingOf s.H)
    W := schedule block
    t := 64
    phase := .idle
    ready := true
    digestValid := true }

@[simp] theorem afterNext_H (s : State) (b : Block) : (s.afterNext b).H = compress s.H b s.K := rfl
@[simp] theorem afterNext_phase (s : State) (b : Block) : (s.afterNext b).phase = .idle := rfl
@[simp] theorem afterNext_ready (s : State) (b : Block) : (s.afterNext b).ready = true := rfl
@[simp] theorem afterNext_digestValid (s : State) (b : Block) : (s.afterNext b).digestValid = true := rfl
@[simp] theorem afterNext_initSinceReset (s : State) (b : Block) :
    (s.afterNext b).initSinceReset = s.initSinceReset := rfl
@[simp] theorem afterNext_IV (s : State) (b : Block) : (s.afterNext b).IV = s.IV := rfl
@[simp] theorem afterNext_K (s : State) (b : Block) : (s.afterNext b).K = s.K := rfl
@[simp] theorem afterNext_pendingBuffer (s : State) (b : Block) :
    (s.afterNext b).pendingBuffer = s.pendingBuffer := rfl
@[simp] theorem afterNext_totalBitLength (s : State) (b : Block) :
    (s.afterNext b).totalBitLength = s.totalBitLength := rfl
@[simp] theorem afterNext_fePhase (s : State) (b : Block) : (s.afterNext b).fePhase = s.fePhase := rfl
@[simp] theorem afterNext_task (s : State) (b : Block) : (s.afterNext b).task = s.task := rfl
@[simp] theorem afterNext_script (s : State) (b : Block) : (s.afterNext b).script = s.script := rfl
@[simp] theorem afterNext_observed (s : State) (b : Block) : (s.afterNext b).observed = s.observed := rfl

/-- R153: `ACCEPT`, 64 `ROUND`s and `FINISH` leave what the atomic form says. -/
theorem acceptNext_completes (s : State) (block : Block) : (s.acceptNext block).idled = s.afterNext block := by
  rw [idled_busy rfl]
  show (s.acceptNext block).coreSteps 65 = _
  rw [coreSteps_succ', acceptNext_coreSteps s block 64 (Nat.le_refl _), coreStep_finish _ (by simp)]
  simp only [State.finishStep, scheduleTo_loadSchedule, ← runRounds_eq_roundsTo]
  rfl

theorem sampleInit_idle {s : State} (h : s.phase = .idle) : s.sampleInit = .next s.loadIV.flagsOfInit := by
  simp [State.sampleInit, h]

theorem sampleInit_busy {s : State} (h : s.phase = .busy) : s.sampleInit = .fault (.coreBusyViolation .init) := by
  simp [State.sampleInit, h, raise]

theorem sampleNext_idle {s : State} (block : Block) (h : s.phase = .idle) (hi : s.initSinceReset = true) :
    s.sampleNext block = .next (s.acceptNext block) := by
  simp [State.sampleNext, h, hi]

theorem sampleNext_busy {s : State} (block : Block) (h : s.phase = .busy) :
    s.sampleNext block = .fault (.coreBusyViolation .next) := by
  simp [State.sampleNext, h, raise]

theorem sampleNext_uninitialised {s : State} (block : Block) (h : s.phase = .idle)
    (hi : s.initSinceReset = false) : s.sampleNext block = .fault .coreUninitialised := by
  simp [State.sampleNext, h, hi, raise]

end Sys2Proof.Machine
end

