-- ==== Sys2Proof/Laws/Decode.lean ====
section
/-! SUPPORT. The fields of a word that is made of its two fields (spec/30_encoding.md R70, R78). -/

namespace Sys2Proof

@[simp] theorem cmdField_append (cmd : BitVec 2) (block : Block) : cmdField (cmd ++ block) = cmd := by
  ext i hi
  simp only [cmdField, BitVec.getElem_extractLsb', BitVec.getLsbD_append]
  simp [BitVec.getLsbD_eq_getElem, hi]

@[simp] theorem blockField_append (cmd : BitVec 2) (block : Block) : blockField (cmd ++ block) = block := by
  ext i hi
  simp only [blockField, BitVec.getElem_extractLsb', BitVec.getLsbD_append]
  simp [BitVec.getLsbD_eq_getElem, hi]

@[simp] theorem fopField_append (fop : BitVec 2) (b : Byte) : fopField (fop ++ b) = fop := by
  ext i hi
  simp only [fopField, BitVec.getElem_extractLsb', BitVec.getLsbD_append]
  simp [BitVec.getLsbD_eq_getElem, hi]

@[simp] theorem byteField_append (fop : BitVec 2) (b : Byte) : byteField (fop ++ b) = b := by
  ext i hi
  simp only [byteField, BitVec.getElem_extractLsb', BitVec.getLsbD_append]
  simp [BitVec.getLsbD_eq_getElem, hi]

end Sys2Proof
end

