-- ==== Sys2Proof/Laws/Turns.lean ====
section
/-! SUPPORT. What one turn of the machine can do, how many turns are left, and what completes: the core's steps, then the
operation in progress from wait to wait (spec/40_framing_update.md R101, R109; spec/70_reset_and_hazards.md R230). -/

namespace Sys2Proof.Machine

@[simp] theorem occupied_eq_false {s : State} : s.occupied = false ↔ s.phase = .idle ∧ s.task = .nothing := by
  simp [State.occupied, phase_ne_busy]

@[simp] theorem waitsFor_no (s : State) : s.waitsFor .no = false := rfl
@[simp] theorem waitsFor_phase (s : State) : s.waitsFor .phase = s.task.changesPhase := rfl
@[simp] theorem waitsFor_completion (s : State) : s.waitsFor .completion = s.occupied := rfl

/-- What changes `fe_phase` when it returns (R35). -/
theorem changesPhase_eq_true {task : FramingTask} :
    task.changesPhase = true ↔ task = .construct ∨ task.finalizing = true := by
  rcases task with _ | _ | ⟨_, _ | _ | _⟩ | ⟨_ | _ | _⟩ <;>
    simp [FramingTask.changesPhase, AfterBlock.changesPhase, FramingTask.finalizing, FramingTask.after]

/-- With nothing in progress the host waits for nothing. -/
theorem waitsFor_unoccupied {s : State} (h : s.occupied = false) (wait : Wait) : s.waitsFor wait = false := by
  cases wait with
  | no => rfl
  | phase => rw [waitsFor_phase, (occupied_eq_false.1 h).2]; rfl
  | completion => exact h

theorem occupied_eq_true {s : State} : s.occupied = true ↔ s.phase = .busy ∨ s.task ≠ .nothing := by
  simp [State.occupied]

theorem turn_busy {s : State} (h : s.phase = .busy) : s.turn = .next s.coreStep := by simp [State.turn, h]

theorem turn_idle {s : State} (h : s.phase = .idle) : s.turn = s.resume := by simp [State.turn, h]

theorem resume_nothing {s : State} (h : s.task = .nothing) : s.resume = .next s := by simp [State.resume, h]

theorem turn_unoccupied {s : State} (h : s.phase = .idle) (ht : s.task = .nothing) : s.turn = .next s := by
  rw [turn_idle h, resume_nothing ht]

/-! ### Where an operation waits -/

theorem compressStep_busy (block : Block) (after : AfterBlock) {s : State} (h : s.phase = .busy) :
    compressStep block after s = .next (s.setTask (.present block after)) := by
  simp [compressStep, h]

theorem compressStep_idle (block : Block) (after : AfterBlock) {s : State} (h : s.phase = .idle)
    (hi : s.initSinceReset = true) :
    compressStep block after s = .next ((s.acceptNext block).setTask (.await after)) := by
  simp [compressStep, h, sampleNext_idle block h hi]

theorem compressStep_uninitialised (block : Block) (after : AfterBlock) {s : State} (h : s.phase = .idle)
    (hi : s.initSinceReset = false) : compressStep block after s = .fault .coreUninitialised := by
  simp [compressStep, h, sampleNext_uninitialised block h hi]

/-- All that a `COMPRESS_STEP` can answer before its second wait (R109). -/
theorem compressStep_cases (block : Block) (after : AfterBlock) (s : State) :
    (s.phase = .busy ∧ compressStep block after s = .next (s.setTask (.present block after))) ∨
    (s.phase = .idle ∧ s.initSinceReset = true ∧
      compressStep block after s = .next ((s.acceptNext block).setTask (.await after))) ∨
    (s.phase = .idle ∧ s.initSinceReset = false ∧ compressStep block after s = .fault .coreUninitialised) := by
  cases h : s.phase
  · cases hi : s.initSinceReset
    · simp [compressStep_uninitialised block after h hi]
    · simp [compressStep_idle block after h hi]
  · simp [compressStep_busy block after h]

/-- A fresh engine (R101). -/
def State.constructed (s : State) : State :=
  { s.loadIV.flagsOfInit with pendingBuffer := [], totalBitLength := 0, fePhase := .accumulating, task := .nothing }

@[simp] theorem constructed_H (s : State) : s.constructed.H = s.IV := rfl
@[simp] theorem constructed_initSinceReset (s : State) : s.constructed.initSinceReset = true := rfl
@[simp] theorem constructed_regs (s : State) : s.constructed.regs = s.regs := rfl
@[simp] theorem constructed_W (s : State) : s.constructed.W = s.W := rfl
@[simp] theorem constructed_t (s : State) : s.constructed.t = s.t := rfl
@[simp] theorem constructed_phase (s : State) : s.constructed.phase = s.phase := rfl
@[simp] theorem constructed_ready (s : State) : s.constructed.ready = s.ready := rfl
@[simp] theorem constructed_digestValid (s : State) : s.constructed.digestValid = true := rfl
@[simp] theorem constructed_IV (s : State) : s.constructed.IV = s.IV := rfl
@[simp] theorem constructed_K (s : State) : s.constructed.K = s.K := rfl
@[simp] theorem constructed_pendingBuffer (s : State) : s.constructed.pendingBuffer = [] := rfl
@[simp] theorem constructed_totalBitLength (s : State) : s.constructed.totalBitLength = 0 := rfl
@[simp] theorem constructed_fePhase (s : State) : s.constructed.fePhase = .accumulating := rfl
@[simp] theorem constructed_task (s : State) : s.constructed.task = .nothing := rfl
@[simp] theorem constructed_script (s : State) : s.constructed.script = s.script := rfl
@[simp] theorem constructed_observed (s : State) : s.constructed.observed = s.observed := rfl

theorem constructNow_idle {s : State} (h : s.phase = .idle) : constructNow s = .next s.constructed := by
  simp [constructNow, sampleInit_idle h]
  rfl

theorem construct_idle {s : State} (h : s.phase = .idle) : construct s = .next s.constructed := by
  simp [construct, h, constructNow_idle h]

theorem construct_busy {s : State} (h : s.phase = .busy) : construct s = .next (s.setTask .construct) := by
  simp [construct, h]

theorem drain_short {s : State} (h : s.pendingBuffer.length < 64) : drain s = .next (s.setTask .nothing) := by
  simp [drain, h]

theorem drain_long {s : State} (h : 64 ≤ s.pendingBuffer.length) :
    drain s = compressStep (blockOfBytes s.frontBlock) .drain s.dropFrontBlock := by
  simp [drain, Nat.not_lt.2 h]

@[simp] theorem returnDigest_H (s : State) : (returnDigest s).H = s.H := rfl
@[simp] theorem returnDigest_initSinceReset (s : State) : (returnDigest s).initSinceReset = s.initSinceReset := rfl
@[simp] theorem returnDigest_phase (s : State) : (returnDigest s).phase = s.phase := rfl
@[simp] theorem returnDigest_ready (s : State) : (returnDigest s).ready = s.ready := rfl
@[simp] theorem returnDigest_digestValid (s : State) : (returnDigest s).digestValid = s.digestValid := rfl
@[simp] theorem returnDigest_IV (s : State) : (returnDigest s).IV = s.IV := rfl
@[simp] theorem returnDigest_K (s : State) : (returnDigest s).K = s.K := rfl
@[simp] theorem returnDigest_pendingBuffer (s : State) : (returnDigest s).pendingBuffer = [] := rfl
@[simp] theorem returnDigest_totalBitLength (s : State) : (returnDigest s).totalBitLength = s.totalBitLength := rfl
@[simp] theorem returnDigest_fePhase (s : State) : (returnDigest s).fePhase = .finalized := rfl
@[simp] theorem returnDigest_task (s : State) : (returnDigest s).task = .nothing := rfl
@[simp] theorem returnDigest_script (s : State) : (returnDigest s).script = s.script := rfl
@[simp] theorem returnDigest_observed (s : State) :
    (returnDigest s).observed = s.observed ++ [.digestStr (digestString s.H)] := rfl

/-! ### How many turns are left -/

@[simp] theorem afterBlock_turnsLeft_pos (n : Nat) (after : AfterBlock) : 0 < after.turnsLeft n := by
  cases after <;> simp [AfterBlock.turnsLeft]

theorem turnsLeft_eq_zero {s : State} : s.turnsLeft = 0 ↔ s.occupied = false := by
  have ht : s.task.turnsLeft s.pendingBuffer.length = 0 ↔ s.task = .nothing := by
    cases s.task with
    | nothing => simp [FramingTask.turnsLeft]
    | construct => simp [FramingTask.turnsLeft]
    | present block after => simp [FramingTask.turnsLeft]
    | await after => simpa [FramingTask.turnsLeft] using Nat.ne_of_gt (afterBlock_turnsLeft_pos _ after)
  rw [occupied_eq_false, State.turnsLeft, Nat.add_eq_zero_iff, ht]
  cases s.phase <;> simp
  omega

/-- A `NEXT` just accepted takes 65 turns, and then the operation goes on (R153). -/
theorem accepted_turnsLeft (s : State) (block : Block) (after : AfterBlock) :
    ((s.acceptNext block).setTask (.await after)).turnsLeft = 65 + after.turnsLeft s.pendingBuffer.length := by
  simp [State.turnsLeft, FramingTask.turnsLeft]

theorem compressStep_turnsLeft {block : Block} {after : AfterBlock} {s u : State} (hp : s.phase = .idle)
    (h : compressStep block after s = .next u) : u.turnsLeft = 65 + after.turnsLeft s.pendingBuffer.length := by
  obtain ⟨hb, -⟩ | ⟨-, -, e⟩ | ⟨-, -, e⟩ := compressStep_cases block after s
  · rw [hp] at hb
    cases hb
  · rw [e] at h
    injection h with h
    rw [← h, accepted_turnsLeft]
  · rw [e] at h
    cases h

/-- R230: every turn of a machine that has something in progress brings it one turn nearer to its completion. -/
theorem turn_turnsLeft {s u : State} (ho : s.occupied = true) (h : s.turn = .next u) :
    u.turnsLeft + 1 = s.turnsLeft := by
  cases hp : s.phase with
  | busy =>
    rw [turn_busy hp] at h
    injection h with h
    subst h
    obtain ⟨hl, e⟩ | ⟨hl, e⟩ := coreStep_cases s
    · simp [e, State.turnsLeft, hp]
      omega
    · simp [e, State.turnsLeft, hp, hl]
      omega
  | idle =>
    rw [turn_idle hp, State.resume] at h
    have e : s.turnsLeft = s.task.turnsLeft s.pendingBuffer.length := by simp [State.turnsLeft, hp]
    rw [e]
    cases ht : s.task with
    | nothing => simp [State.occupied, hp, ht] at ho
    | construct =>
      simp only [ht] at h
      rw [constructNow_idle hp] at h
      injection h with h
      subst h
      simp [State.turnsLeft, FramingTask.turnsLeft, hp]
    | present block after =>
      simp only [ht] at h
      rw [compressStep_turnsLeft hp h, FramingTask.turnsLeft]
      omega
    | await after =>
      cases after with
      | drain =>
        simp only [ht] at h
        by_cases hl : s.pendingBuffer.length < 64
        · rw [drain_short hl] at h
          injection h with h
          subst h
          simp [State.turnsLeft, FramingTask.turnsLeft, AfterBlock.turnsLeft, hp]
          omega
        · rw [drain_long (by omega)] at h
          rw [compressStep_turnsLeft (by exact hp) h]
          simp [FramingTask.turnsLeft, AfterBlock.turnsLeft]
          omega
      | padSecond L =>
        simp only [ht] at h
        rw [compressStep_turnsLeft (by exact hp) h]
        simp [FramingTask.turnsLeft, AfterBlock.turnsLeft]
      | digest =>
        simp only [ht] at h
        injection h with h
        subst h
        simp [State.turnsLeft, FramingTask.turnsLeft, AfterBlock.turnsLeft, hp]

/-! ### Completion -/

@[simp] theorem completed_next (s : State) : completed (.next s) = s.complete := rfl
@[simp] theorem completed_fault (e : Fault) : completed (.fault e) = .fault e := rfl
@[simp] theorem completed_refused (e : Refusal) : completed (.refused e) = .refused e := rfl

theorem turns_succ (n : Nat) (s : State) : s.turns (n + 1) = andThen s.turn (State.turns n) := rfl

theorem turns_add (m n : Nat) (s : State) : s.turns (m + n) = andThen (s.turns m) (State.turns n) := by
  induction m generalizing s with
  | zero => simp [State.turns]
  | succ m ih =>
    rw [Nat.add_right_comm, turns_succ, turns_succ, andThen_assoc]
    congr 1
    funext u
    exact ih u

/-- While the core is busy the machine's turns are the core's steps. -/
theorem turns_busy (s : State) (hb : s.phase = .busy) (n : Nat) (hn : s.t.val + n ≤ 65) :
    s.turns n = .next (s.coreSteps n) := by
  induction n with
  | zero => rfl
  | succ n ih =>
    rw [turns_add n 1, ih (by omega), andThen_next, turns_succ, turn_busy (coreSteps_busy s hb n (by omega)).1,
      coreSteps_succ']
    rfl

theorem complete_unoccupied {s : State} (h : s.phase = .idle) (ht : s.task = .nothing) : s.complete = .next s := by
  rw [State.complete, turnsLeft_eq_zero.2 (occupied_eq_false.2 ⟨h, ht⟩)]
  rfl

/-- What is in progress completes after a turn as before it. -/
theorem complete_turn (s : State) : s.complete = completed s.turn := by
  by_cases ho : s.occupied = true
  · obtain ⟨n, hn⟩ : ∃ n, s.turnsLeft = n + 1 :=
      Nat.exists_eq_succ_of_ne_zero fun h => by simp [turnsLeft_eq_zero.1 h] at ho
    rw [State.complete, hn, turns_succ]
    cases h : s.turn with
    | next u =>
      have := turn_turnsLeft ho h
      rw [andThen_next, completed_next, State.complete, show u.turnsLeft = n by omega]
    | fault e => rfl
    | refused e => rfl
  · obtain ⟨hp, ht⟩ := occupied_eq_false.1 (by simpa using ho)
    rw [turn_unoccupied hp ht, completed_next]

/-- A busy core finishes first. -/
theorem complete_idled (s : State) : s.complete = s.idled.complete := by
  by_cases h : s.phase = .busy
  · have key : ∀ n, s.t.val + n ≤ 65 → s.complete = (s.coreSteps n).complete := by
      intro n hn
      induction n with
      | zero => rfl
      | succ n ih =>
        rw [ih (by omega), complete_turn, turn_busy (coreSteps_busy s h n (by omega)).1, completed_next,
          ← coreSteps_succ']
    rw [idled_busy h]
    exact key _ (by omega)
  · rw [idled_idle (phase_ne_busy.1 h)]

/-- With the core idle the operation in progress goes on. -/
theorem complete_idle {s : State} (h : s.phase = .idle) : s.complete = completed s.resume := by
  rw [complete_turn, turn_idle h]

/-- Writes of the framing layer and steps of the core do not disturb each other. -/
theorem idled_framing_own (s : State) (p : List Byte) (L : BitVec 64) (f : FePhase) (task : FramingTask) :
    ({ s with pendingBuffer := p, totalBitLength := L, fePhase := f, task := task } : State).idled =
      { s.idled with pendingBuffer := p, totalBitLength := L, fePhase := f, task := task } := by
  have h := idled_framing s p L f task s.script s.observed
  exact h.trans (by simp only [idled_script, idled_observed])

theorem idled_setTask (s : State) (task : FramingTask) : (s.setTask task).idled = s.idled.setTask task := by
  have h := idled_framing_own s s.pendingBuffer s.totalBitLength s.fePhase task
  simp only [State.setTask, idled_pendingBuffer, idled_totalBitLength, idled_fePhase]
  exact h

theorem idled_appendPending (s : State) (bytes : List Byte) :
    (s.appendPending bytes).idled = s.idled.appendPending bytes := by
  have h := idled_framing_own s (s.pendingBuffer ++ bytes) s.totalBitLength s.fePhase s.task
  simp only [State.appendPending, idled_pendingBuffer, idled_totalBitLength, idled_fePhase, idled_task]
  exact h

theorem idled_countBytes (s : State) (n : Nat) : (s.countBytes n).idled = s.idled.countBytes n := by
  have h := idled_framing_own s s.pendingBuffer (s.totalBitLength + BitVec.ofNat 64 (8 * n)) s.fePhase s.task
  simp only [State.countBytes, idled_pendingBuffer, idled_totalBitLength, idled_fePhase, idled_task]
  exact h

theorem idled_dropFrontBlock (s : State) : s.dropFrontBlock.idled = s.idled.dropFrontBlock := by
  have h := idled_framing_own s (s.pendingBuffer.drop 64) s.totalBitLength s.fePhase s.task
  simp only [State.dropFrontBlock, idled_pendingBuffer, idled_totalBitLength, idled_fePhase, idled_task]
  exact h

theorem idled_clearPending (s : State) : s.clearPending.idled = s.idled.clearPending := by
  have h := idled_framing_own s [] s.totalBitLength s.fePhase s.task
  simp only [State.clearPending, idled_totalBitLength, idled_fePhase, idled_task]
  exact h

theorem complete_setTask_nothing (s : State) : (s.setTask .nothing).complete = .next (s.idled.setTask .nothing) := by
  rw [complete_idled, idled_setTask, complete_unoccupied (by simp) rfl]

/-- What is in progress is a compression only: it completes. -/
theorem complete_nothing {s : State} (h : s.task = .nothing) : s.complete = .next s.idled := by
  rw [complete_idled, complete_unoccupied (by simp) (by simpa using h)]

/-- All that a `COMPRESS_STEP` comes to (R109): the core's own `NEXT` finishes, the block is compressed, the operation
goes on. -/
theorem completed_compressStep (block : Block) (after : AfterBlock) (s : State) :
    completed (compressStep block after s) =
      if s.initSinceReset = true then ((s.idled.afterNext block).setTask (.await after)).complete
      else .fault .coreUninitialised := by
  have key : ∀ v : State, v.phase = .idle → completed (compressStep block after v) =
      if v.initSinceReset = true then ((v.afterNext block).setTask (.await after)).complete
      else .fault .coreUninitialised := by
    intro v hv
    split
    · rename_i hi
      rw [compressStep_idle block after hv hi, completed_next, complete_idled, idled_setTask, acceptNext_completes]
    · rename_i hi
      rw [compressStep_uninitialised block after hv (by simpa using hi), completed_fault]
  by_cases hb : s.phase = .busy
  · rw [compressStep_busy block after hb, completed_next, complete_idled, idled_setTask, complete_idle (by simp)]
    show completed (compressStep block after (s.idled.setTask _)) = _
    rw [key _ (by simp)]
    simp only [State.setTask_initSinceReset, idled_initSinceReset]
    rfl
  · rw [key s (phase_ne_busy.1 hb), idled_idle (phase_ne_busy.1 hb)]

end Sys2Proof.Machine
end

