-- ==== Sys2Proof/Laws/Framing.lean ====
section
/-! SUPPORT. What the operations of the framing layer are made of: the chaining over a byte stream, the drain loop, the
checks of an operation, and the padding steps (spec/40_framing_update.md, spec/41_framing_finalize.md). -/

namespace Sys2Proof.Machine

@[simp] theorem chain_zero (K : Words64) (H : Words8) (stream : List Byte) : chain K H stream 0 = H := rfl

theorem blockAt_drop (stream : List Byte) (i : Nat) : blockAt (stream.drop 64) i = blockAt stream (i + 1) := by
  rw [blockAt, blockAt, List.drop_drop, show 64 + 64 * i = 64 * (i + 1) by omega]

/-- The oldest block first. -/
theorem chain_succ (K : Words64) (H : Words8) (stream : List Byte) (n : Nat) :
    chain K H stream (n + 1) = chain K (compress H (blockAt stream 0) K) (stream.drop 64) n := by
  simp only [chain, List.range_succ_eq_map, List.foldl_cons, List.foldl_map, blockAt_drop]

/-- The newest block last. -/
theorem chain_succ' (K : Words64) (H : Words8) (stream : List Byte) (n : Nat) :
    chain K H stream (n + 1) = compress (chain K H stream n) (blockAt stream n) K := by
  simp [chain, List.range_succ]

theorem chain_add (K : Words64) (H : Words8) (stream : List Byte) (m n : Nat) :
    chain K H stream (m + n) = chain K (chain K H stream m) (stream.drop (64 * m)) n := by
  induction m generalizing H stream with
  | zero => simp
  | succ m ih =>
    rw [show m + 1 + n = (m + n) + 1 by omega, chain_succ, ih, chain_succ, List.drop_drop,
      show 64 + 64 * m = 64 * (m + 1) by omega]

/-- The first `n` blocks are the same however the stream goes on after them. -/
theorem chain_append (K : Words64) (H : Words8) (stream more : List Byte) (n : Nat) (hn : 64 * n ≤ stream.length) :
    chain K H (stream ++ more) n = chain K H stream n := by
  induction n generalizing H stream with
  | zero => rw [chain_zero, chain_zero]
  | succ n ih =>
    have h64 : 64 ≤ stream.length := by omega
    have hd : 64 * n ≤ (stream.drop 64).length := by rw [List.length_drop]; omega
    have hb : blockAt (stream ++ more) 0 = blockAt stream 0 := by
      simp only [blockAt, Nat.mul_zero, List.drop_zero, List.take_append_of_le_length h64]
    rw [chain_succ, chain_succ, List.drop_append_of_le_length h64, ih _ _ hd, hb]

theorem frontBlock_eq (s : State) : blockOfBytes s.frontBlock = blockAt s.pendingBuffer 0 := by
  simp [State.frontBlock, blockAt]

/-- All that the drain loop comes to: the core's own `NEXT` finishes, then the trips follow one another. -/
theorem completed_drain (s : State) : completed (drain s) = (s.idled.setTask (.await .drain)).complete := by
  have hr : ∀ v : State, v.phase = .idle → (v.setTask (.await .drain)).complete =
      completed (drain (v.setTask (.await .drain))) := fun v hv => complete_idle (by simpa using hv)
  rw [hr _ (by simp)]
  by_cases h : s.pendingBuffer.length < 64
  · rw [drain_short h, drain_short (by simpa using h), completed_next, completed_next, complete_setTask_nothing,
      complete_setTask_nothing]
    simp [State.setTask]
  · rw [drain_long (by omega), drain_long (by simpa using by omega), completed_compressStep, completed_compressStep,
      idled_dropFrontBlock, idled_idle (s := (s.idled.setTask _).dropFrontBlock) (by simp)]
    simp only [State.dropFrontBlock_initSinceReset, State.setTask_initSinceReset, idled_initSinceReset,
      State.frontBlock, State.setTask_pendingBuffer, idled_pendingBuffer]
    rfl

/-- One trip of the drain loop, from an idle core with a chaining value (R103). -/
theorem complete_drain_long {s : State} (hp : s.phase = .idle) (hi : s.initSinceReset = true)
    (hl : 64 ≤ s.pendingBuffer.length) :
    (s.setTask (.await .drain)).complete =
      ((s.dropFrontBlock.afterNext (blockOfBytes s.frontBlock)).setTask (.await .drain)).complete := by
  have h := completed_drain s
  rw [idled_idle hp] at h
  rw [← h, drain_long hl, completed_compressStep, if_pos (by simpa using hi), idled_idle (by simpa using hp)]

theorem complete_drain_short {s : State} (hp : s.phase = .idle) (hl : s.pendingBuffer.length < 64) :
    (s.setTask (.await .drain)).complete = .next (s.setTask .nothing) := by
  have h := completed_drain s
  rw [idled_idle hp] at h
  rw [← h, drain_short hl, completed_next, complete_setTask_nothing, idled_idle hp]

/-- All that the drain loop comes to from an idle core with a chaining value (R103, R108): a trip for each whole block in
the buffer, the oldest block first. -/
theorem complete_drain {s : State} {n : Nat} (hn : n = s.pendingBuffer.length / 64) (hp : s.phase = .idle)
    (hi : s.initSinceReset = true) (hr : s.ready = true) (hd : s.digestValid = true) :
    ∃ regs W t, (s.setTask (.await .drain)).complete = .next { s with
      H := chain s.K s.H s.pendingBuffer n
      pendingBuffer := s.pendingBuffer.drop (64 * n)
      task := .nothing, regs := regs, W := W, t := t } := by
  induction n generalizing s with
  | zero => exact ⟨s.regs, s.W, s.t, complete_drain_short hp (by omega)⟩
  | succ n ih =>
    obtain ⟨regs, W, t, h⟩ := ih (s := s.dropFrontBlock.afterNext (blockOfBytes s.frontBlock)) (by simp; omega) rfl
      (by simpa using hi) rfl rfl
    refine ⟨regs, W, t, (complete_drain_long hp hi (by omega)).trans (h.trans ?_)⟩
    rw [frontBlock_eq]
    simp only [afterNext_H, afterNext_K, afterNext_pendingBuffer, State.dropFrontBlock_pendingBuffer,
      State.dropFrontBlock_H, State.dropFrontBlock_K, ← chain_succ, List.drop_drop]
    simp only [State.afterNext, State.dropFrontBlock, hp, hr, hd]
    congr 3
    omega

theorem wouldOverflow_eq_false {s : State} {n : Nat} (h : s.totalBitLength.toNat + 8 * n < 2 ^ 64) :
    s.wouldOverflow n = false := by
  simp only [State.wouldOverflow, decide_eq_false_iff_not]
  omega

theorem wouldOverflow_eq_true {s : State} {n : Nat} (h : 2 ^ 64 ≤ s.totalBitLength.toNat + 8 * n) :
    s.wouldOverflow n = true := by
  simpa only [State.wouldOverflow, decide_eq_true_iff] using h

/-- The counter counts exactly where the check passed (R107). -/
theorem countBytes_toNat {s : State} {n : Nat} (h : s.totalBitLength.toNat + 8 * n < 2 ^ 64) :
    (s.totalBitLength + BitVec.ofNat 64 (8 * n)).toNat = s.totalBitLength.toNat + 8 * n := by
  rw [BitVec.toNat_add, BitVec.toNat_ofNat, Nat.mod_eq_of_lt (a := 8 * n) (by omega), Nat.mod_eq_of_lt h]

theorem startOperation_nothing (f : State → Result) {s : State} (h : s.task = .nothing) :
    startOperation f s = f s := by
  simp [startOperation, h]

theorem startOperation_refused (f : State → Result) {s : State} (h : s.task ≠ .nothing) :
    startOperation f s = .refused .concurrentAccess := by
  simp [startOperation, h]

theorem startOperation_next {f : State → Result} {s u : State} (h : startOperation f s = .next u) :
    s.task = .nothing ∧ f s = .next u := by
  unfold startOperation at h
  split at h
  · exact ⟨‹_›, h⟩
  · cases h

theorem coreCommand_nothing (f : State → Result) {s : State} (h : s.task = .nothing) : coreCommand f s = f s := by
  simp [coreCommand, h]

theorem coreCommand_busy (f : State → Result) {s : State} (h : s.phase = .busy) : coreCommand f s = f s := by
  simp [coreCommand, h]

theorem coreCommand_refused (f : State → Result) {s : State} (hp : s.phase = .idle) (h : s.task ≠ .nothing) :
    coreCommand f s = .refused .concurrentAccess := by
  simp [coreCommand, hp, h]

/-- All that the phase of the framing layer lets an operation answer (R193, R194). -/
theorem guardPhase_cases (op : FramingOp) (body : State → Result) (s : State) :
    (s.fePhase = .unconstructed ∧ guardPhase op body s = .fault (.notConstructed op)) ∨
    (s.fePhase = .finalized ∧ guardPhase op body s = .fault (.useAfterFinalize op)) ∨
    (s.fePhase = .accumulating ∧ guardPhase op body s = body s) := by
  cases hf : s.fePhase <;> simp [guardPhase, hf, raise]

theorem guardPhase_accumulating (op : FramingOp) (body : State → Result) {s : State}
    (hf : s.fePhase = .accumulating) : guardPhase op body s = body s := by
  simp [guardPhase, hf]

/-- All that the checks of an update can answer (R102, R103, R201). -/
theorem guardUpdate_cases (op : FramingOp) (n : Nat) (body : State → Result) (s : State) :
    (s.fePhase = .unconstructed ∧ guardUpdate op n body s = .fault (.notConstructed op)) ∨
    (s.fePhase = .finalized ∧ guardUpdate op n body s = .fault (.useAfterFinalize op)) ∨
    (s.fePhase = .accumulating ∧ 2 ^ 64 ≤ s.totalBitLength.toNat + 8 * n ∧
      guardUpdate op n body s = .fault (.lengthOverflow n)) ∨
    (s.fePhase = .accumulating ∧ s.totalBitLength.toNat + 8 * n < 2 ^ 64 ∧
      guardUpdate op n body s = body s) := by
  obtain ⟨hf, e⟩ | ⟨hf, e⟩ | ⟨hf, e⟩ :=
    guardPhase_cases op (fun s => if s.wouldOverflow n then raise (.lengthOverflow n) else body s) s
  · exact .inl ⟨hf, e⟩
  · exact .inr (.inl ⟨hf, e⟩)
  · by_cases ho : 2 ^ 64 ≤ s.totalBitLength.toNat + 8 * n
    · exact .inr (.inr (.inl ⟨hf, ho, e.trans (if_pos (wouldOverflow_eq_true ho))⟩))
    · exact .inr (.inr (.inr ⟨hf, by omega, e.trans (if_neg (by simp [wouldOverflow_eq_false (s := s) (n := n) (by omega)]))⟩))

theorem guardUpdate_accumulating (op : FramingOp) (n : Nat) (body : State → Result) {s : State}
    (hf : s.fePhase = .accumulating) (ho : s.totalBitLength.toNat + 8 * n < 2 ^ 64) :
    guardUpdate op n body s = body s := by
  simp [guardUpdate, guardPhase, hf, wouldOverflow_eq_false ho]

@[simp] theorem zeros_length (n : Nat) : (zeros n).length = n := by simp [zeros]

@[simp] theorem be64bytes_length (v : BitVec 64) : (be64bytes v).length = 8 := by simp [be64bytes]

@[simp] theorem padByte_pendingBuffer (s : State) : (padByte s).pendingBuffer = s.pendingBuffer ++ [0x80] := rfl

@[simp] theorem padBlock_pendingBuffer (s : State) :
    (padBlock s).pendingBuffer = s.pendingBuffer ++ zeros (64 - s.pendingBuffer.length) := rfl

@[simp] theorem padLength_pendingBuffer (L : BitVec 64) (s : State) :
    (padLength L s).pendingBuffer =
      s.pendingBuffer ++ zeros (56 - s.pendingBuffer.length) ++ be64bytes L := rfl

/-- All that the last block of `FINALIZE` comes to, from an idle core with a chaining value (R124 to R128). -/
theorem completed_padLastBlock (L : BitVec 64) {s : State} (hp : s.phase = .idle) (hi : s.initSinceReset = true) :
    completed (padLastBlock L s) =
      .next (returnDigest ((padLength L s).afterNext (blockOfBytes (padLength L s).pendingBuffer))) := by
  rw [padLastBlock, compressBuffer, completed_compressStep, if_pos (by exact hi), idled_idle (by exact hp),
    complete_idle (by rfl)]
  exact complete_unoccupied (by rfl) rfl

/-- All that the first of two blocks of `FINALIZE` comes to (R123): the block compressed, the buffer cleared, and the
steps that follow. -/
theorem completed_firstBlock (L : BitVec 64) {s : State} (hp : s.phase = .idle) (hi : s.initSinceReset = true) :
    completed (compressBuffer (.padSecond L) s) =
      completed (padLastBlock L
        ((s.afterNext (blockOfBytes s.pendingBuffer)).clearPending.setTask (.await (.padSecond L)))) := by
  rw [compressBuffer, completed_compressStep, if_pos (by exact hi), idled_idle (by exact hp), complete_idle (by rfl)]
  rfl

end Sys2Proof.Machine
end

