-- ==== Sys2Proof/Laws/Step.lean ====
section
/-! SUPPORT. What one step can do: the machine's own turn while the host presents nothing, or the next line; and runs of
several steps. -/

namespace Sys2Proof.Machine

/-- An undriven command port is `IDLE`: the machine takes its turn (R140, R223). -/
theorem presentWord_idle (s : State) : presentWord (encode .idle) s = s.turn := by
  simp only [presentWord, encode, decode, decodeCore, cmdField_append, if_true]
  simp [exec, execIdle, State.afterCommand]

theorem step_nil {s : State} (h : s.script = []) : step s = s.turn := by
  simp [step, hostTurn, h, presentWord_idle]

theorem step_wait {s : State} {line : HostLine} {rest : List HostLine} (h : s.script = line :: rest)
    (hw : s.waitsFor line.wait = true) : step s = s.turn := by
  simp [step, hostTurn, h, presentWord_idle, hw]

theorem step_take {s : State} {wait : Wait} {a : Action} {rest : List HostLine} (h : s.script = ⟨wait, a⟩ :: rest)
    (hw : s.waitsFor wait = false) : step s = act a { s with script := rest } := by
  simp [step, hostTurn, h, hw]

/-- Everything a step can be: the machine's turn with the script as it was, or the next line taken. -/
theorem step_cases (s : State) :
    (takenAction s = none ∧ step s = s.turn) ∨
    ∃ a rest wait, s.script = ⟨wait, a⟩ :: rest ∧ s.waitsFor wait = false ∧ takenAction s = some a ∧
      step s = act a { s with script := rest } := by
  rcases hs : s.script with _ | ⟨⟨wait, a⟩, rest⟩
  · exact .inl ⟨by simp [takenAction, hs], step_nil hs⟩
  · cases hw : s.waitsFor wait with
    | true => exact .inl ⟨by simp [takenAction, hs, hw], step_wait hs hw⟩
    | false => exact .inr ⟨a, rest, wait, rfl, hw, by simp [takenAction, hs, hw], step_take hs hw⟩

/-- Everything a presented word can be: an instruction, the reserved command, or nothing. -/
theorem presentWord_cases (w : PortWord) (s : State) :
    (∃ i, decode w = .ok i ∧ presentWord w s = andThen (exec i s) fun u => u.afterCommand i) ∨
    (decode w = .error .reservedCommand ∧ presentWord w s = .fault .reservedCommand) ∨
    (decode w = .error .nothingPresented ∧ presentWord w s = s.turn) := by
  rcases h : decode w with e | i
  · cases e
    · exact .inr (.inl ⟨rfl, by simp [presentWord, h, raise]⟩)
    · exact .inr (.inr ⟨rfl, by simp [presentWord, h]⟩)
  · exact .inl ⟨i, rfl, by simp [presentWord, h]⟩

/-- After any command but `IDLE` nothing more happens in the step. -/
theorem andThen_afterCommand {i : Instr} (h : i ≠ .idle) (r : Result) :
    (andThen r fun u => u.afterCommand i) = r := by
  cases r <;> simp [State.afterCommand, h]

/-- The invariants say nothing of what the host will do. -/
theorem inv_withScript {s : State} (h : Inv s) (lines : List HostLine) : Inv { s with script := lines } :=
  ⟨h.1, h.2, h.3, h.4, h.5, h.6, h.7, h.8, h.9, h.10, h.11, h.12⟩

@[simp] theorem runSteps_zero (s : State) : runSteps 0 s = .next s := rfl

theorem runSteps_succ (n : Nat) (s : State) : runSteps (n + 1) s = andThen (step s) (runSteps n) := rfl

theorem runSteps_one (s : State) : runSteps 1 s = step s := by
  rw [runSteps_succ]
  cases step s <;> rfl

/-- A run in two parts. -/
theorem runSteps_add (m n : Nat) (s : State) : runSteps (m + n) s = andThen (runSteps m s) (runSteps n) := by
  induction m generalizing s with
  | zero => simp
  | succ m ih =>
    rw [Nat.add_right_comm, runSteps_succ, runSteps_succ, andThen_assoc]
    congr 1
    funext u
    exact ih u

theorem hostRun_next (M : Host.Core) (n : Nat) {s u : M.State} (h : M.step s = .next u) :
    M.run (n + 1) s = M.run n u := by
  simp [Host.Core.run, h]

theorem hostRun_fault (M : Host.Core) (n : Nat) {s : M.State} {e : M.Fault} (h : M.step s = .fault e) :
    M.run (n + 1) s = .fault e := by
  simp [Host.Core.run, h]

theorem hostRun_refused (M : Host.Core) (n : Nat) {s : M.State} {e : M.Refusal} (h : M.step s = .refused e) :
    M.run (n + 1) s = .refused e := by
  simp [Host.Core.run, h]

/-- The host's runs and these are the same. -/
theorem run_eq_runSteps (n : Nat) (s : State) : Host.Core.run core n s = runSteps n s := by
  induction n generalizing s with
  | zero => rfl
  | succ n ih =>
    rw [runSteps_succ]
    cases h : step s with
    | next u => exact (hostRun_next core n h).trans (ih u)
    | fault e => exact hostRun_fault core n h
    | refused e => exact hostRun_refused core n h

end Sys2Proof.Machine
end

