-- ==== Sys2Proof/Laws/Instructions.lean ====
section
/-! SUPPORT. What each instruction, each action, each turn of the machine can answer: one lemma for each, for later proofs
to cite instead of unfolding a meaning. -/

namespace Sys2Proof.Machine

/-- What no framing operation and no command touches: the tables, and the host's script. -/
def SameTables (s u : State) : Prop := u.IV = s.IV ∧ u.K = s.K ∧ u.script = s.script

/-- `INIT` (R142). -/
theorem execInit_next {s u : State} (h : exec .init s = .next u) :
    s.phase = .idle ∧ s.task = .nothing ∧ u = s.loadIV.flagsOfInit := by
  simp only [exec, execInit, coreCommand] at h
  split at h
  · cases h
  · rename_i hc
    simp only [State.sampleInit] at h
    split at h
    · cases h
    · rename_i hb
      injection h with h
      have hp := phase_ne_busy.1 hb
      exact ⟨hp, by simpa [hp] using hc, h.symm⟩

/-- A core that is free for the host takes a command as it samples it. -/
theorem execInit_free {s : State} (ht : s.task = .nothing) : exec .init s = s.sampleInit :=
  coreCommand_nothing State.sampleInit ht

theorem execInit_busy {s : State} (hb : s.phase = .busy) : exec .init s = s.sampleInit :=
  coreCommand_busy State.sampleInit hb

theorem execNext_free (block : Block) {s : State} (ht : s.task = .nothing) :
    exec (.next block) s = s.sampleNext block :=
  coreCommand_nothing (fun s' => s'.sampleNext block) ht

theorem execNext_busy (block : Block) {s : State} (hb : s.phase = .busy) :
    exec (.next block) s = s.sampleNext block :=
  coreCommand_busy (fun s' => s'.sampleNext block) hb

/-- `NEXT` (R143). -/
theorem execNext_next {s u : State} {block : Block} (h : exec (.next block) s = .next u) :
    s.phase = .idle ∧ s.task = .nothing ∧ s.initSinceReset = true ∧ u = s.acceptNext block := by
  simp only [exec, execNext, coreCommand] at h
  split at h
  · cases h
  · rename_i hc
    simp only [State.sampleNext] at h
    split at h
    · cases h
    · split at h
      · cases h
      · rename_i hb hi
        injection h with h
        have hp := phase_ne_busy.1 hb
        exact ⟨hp, by simpa [hp] using hc, by simpa using hi, h.symm⟩

/-- `CONSTRUCT` (R101): done at once by an idle core, otherwise it waits. -/
theorem execConstruct_next {s u : State} (h : exec .construct s = .next u) :
    s.task = .nothing ∧
      ((s.phase = .idle ∧ u = s.constructed) ∨ (s.phase = .busy ∧ u = s.setTask .construct)) := by
  obtain ⟨ht, h⟩ := startOperation_next h
  refine ⟨ht, ?_⟩
  cases hp : s.phase
  · rw [construct_idle hp] at h
    injection h with h
    exact .inl ⟨rfl, h.symm⟩
  · rw [construct_busy hp] at h
    injection h with h
    exact .inr ⟨rfl, h.symm⟩

/-- `COMPRESS_STEP` before its second wait (R109). -/
theorem compressStep_next {block : Block} {after : AfterBlock} {s u : State}
    (h : compressStep block after s = .next u) :
    (s.phase = .busy ∧ u = s.setTask (.present block after)) ∨
      (s.phase = .idle ∧ s.initSinceReset = true ∧ u = (s.acceptNext block).setTask (.await after)) := by
  obtain ⟨hp, e⟩ | ⟨hp, hi, e⟩ | ⟨-, -, e⟩ := compressStep_cases block after s <;> rw [e] at h
  · injection h with h
    exact .inl ⟨hp, h.symm⟩
  · injection h with h
    exact .inr ⟨hp, hi, h.symm⟩
  · cases h

/-- What a `COMPRESS_STEP` before its second wait leaves alone, and that it is then waiting. -/
theorem compressStep_frame {block : Block} {after : AfterBlock} {s u : State}
    (h : compressStep block after s = .next u) :
    SameTables s u ∧ u.observed = s.observed ∧ u.totalBitLength = s.totalBitLength ∧ u.fePhase = s.fePhase ∧
      u.initSinceReset = s.initSinceReset ∧ u.pendingBuffer = s.pendingBuffer ∧ u.H = s.H ∧
      u.task.after = some after := by
  obtain ⟨-, rfl⟩ | ⟨-, -, rfl⟩ := compressStep_next h <;> exact ⟨⟨rfl, rfl, rfl⟩, rfl, rfl, rfl, rfl, rfl, rfl, rfl⟩

/-- The drain loop up to its next wait (R103): what it leaves alone. -/
theorem drain_frame {s u : State} (h : drain s = .next u) :
    SameTables s u ∧ u.observed = s.observed ∧ u.totalBitLength = s.totalBitLength ∧ u.fePhase = s.fePhase ∧
      u.initSinceReset = s.initSinceReset ∧ u.H = s.H ∧
      ((s.pendingBuffer.length < 64 ∧ u = s.setTask .nothing) ∨
        (64 ≤ s.pendingBuffer.length ∧ u.pendingBuffer = s.pendingBuffer.drop 64 ∧ u.task.after = some .drain)) := by
  by_cases hl : s.pendingBuffer.length < 64
  · rw [drain_short hl] at h
    injection h with h
    subst h
    exact ⟨⟨rfl, rfl, rfl⟩, rfl, rfl, rfl, rfl, rfl, .inl ⟨hl, rfl⟩⟩
  · rw [drain_long (by omega)] at h
    obtain ⟨⟨h1, h2, h3⟩, h4, h5, h6, h7, h8, h9, h10⟩ := compressStep_frame h
    exact ⟨⟨h1, h2, h3⟩, h4, h5, h6, h7, h9, .inr ⟨by omega, h8, h10⟩⟩

/-- `UPDATE` (R103) up to its first wait: when it goes on, what it leaves alone and what it counts. -/
theorem opUpdate_next {bytes : List Byte} {s u : State} (h : opUpdate bytes s = .next u) :
    s.task = .nothing ∧ s.fePhase = .accumulating ∧ s.totalBitLength.toNat + 8 * bytes.length < 2 ^ 64 ∧
      feedBytes bytes s = .next u ∧ SameTables s u ∧ u.observed = s.observed ∧ u.fePhase = .accumulating ∧
      u.initSinceReset = s.initSinceReset ∧ u.H = s.H ∧
      u.totalBitLength.toNat = s.totalBitLength.toNat + 8 * bytes.length ∧
      ((s.pendingBuffer.length + bytes.length < 64 ∧
          u = ((s.appendPending bytes).countBytes bytes.length).setTask .nothing) ∨
        (64 ≤ s.pendingBuffer.length + bytes.length ∧ u.pendingBuffer = (s.pendingBuffer ++ bytes).drop 64 ∧
          u.task.after = some .drain)) := by
  obtain ⟨ht, h⟩ := startOperation_next h
  obtain ⟨_, e⟩ | ⟨_, e⟩ | ⟨_, _, e⟩ | ⟨hf, ho, e⟩ := guardUpdate_cases .update bytes.length (feedBytes bytes) s <;>
    rw [e] at h
  · cases h
  · cases h
  · cases h
  · obtain ⟨h1, h2, h3, h4, h5, h6, h7⟩ := drain_frame h
    exact ⟨ht, hf, ho, h, h1, h2, h4.trans hf, h5, h6, (congrArg BitVec.toNat h3).trans (countBytes_toNat ho),
      by simpa using h7⟩

/-- The checks of an `UPDATE` alone (R80): when they pass, and that they write nothing. -/
theorem checkUpdate_next {n : Nat} {s u : State} (h : checkUpdate n s = .next u) :
    s.task.changesPhase = false ∧ s.fePhase = .accumulating ∧ s.totalBitLength.toNat + 8 * n < 2 ^ 64 ∧ u = s := by
  unfold checkUpdate at h
  split at h
  · cases h
  · rename_i ht
    obtain ⟨_, e⟩ | ⟨_, e⟩ | ⟨_, _, e⟩ | ⟨hf, ho, e⟩ := guardUpdate_cases .update n .next s <;> rw [e] at h
    · cases h
    · cases h
    · cases h
    · injection h with h
      exact ⟨by simpa using ht, hf, ho, h.symm⟩

/-- With the buffer short of a block `UPDATE_BYTE` is `UPDATE` of one byte (R102). -/
theorem feedByte_eq_feedBytes {s : State} (b : Byte) (ht : s.task = .nothing) (hl : s.pendingBuffer.length < 64) :
    feedByte b s = feedBytes [b] s := by
  simp only [feedByte, feedBytes, List.length_singleton]
  by_cases h : s.pendingBuffer.length = 63
  · rw [if_pos (by simp [h]), drain_long (by simp [h])]
    congr 1
    simp [State.clearPending, State.dropFrontBlock, h]
  · rw [if_neg (by simp; omega), drain_short (by simp; omega)]
    simp [State.setTask, State.countBytes, State.appendPending, ← ht]

/-- `UPDATE_BYTE` (R102) up to its wait, if it has one: when it goes on, what it leaves alone and what it counts. -/
theorem execUpdateByte_next {b : Byte} {s u : State} (h : exec (.updateByte b) s = .next u) :
    s.task = .nothing ∧ s.fePhase = .accumulating ∧ s.totalBitLength.toNat + 8 < 2 ^ 64 ∧ feedByte b s = .next u ∧
      SameTables s u ∧ u.observed = s.observed ∧ u.fePhase = .accumulating ∧ u.initSinceReset = s.initSinceReset ∧
      u.H = s.H ∧ u.totalBitLength.toNat = s.totalBitLength.toNat + 8 ∧
      ((s.pendingBuffer.length ≠ 63 ∧ u = (s.appendPending [b]).countBytes 1) ∨
        (s.pendingBuffer.length = 63 ∧ u.pendingBuffer = [] ∧ u.task.after = some .drain)) := by
  obtain ⟨ht, h⟩ := startOperation_next h
  obtain ⟨_, e⟩ | ⟨_, e⟩ | ⟨_, _, e⟩ | ⟨hf, ho, e⟩ := guardUpdate_cases .updateByte 1 (feedByte b) s <;>
    rw [e] at h
  · cases h
  · cases h
  · cases h
  · have hL := countBytes_toNat (n := 1) ho
    refine ⟨ht, hf, ho, h, ?_⟩
    by_cases hl : s.pendingBuffer.length = 63
    · rw [feedByte, if_pos (by simp [hl])] at h
      obtain ⟨⟨h1, h2, h3⟩, h4, h5, h6, h7, h8, h9, h10⟩ := compressStep_frame h
      exact ⟨⟨h1, h2, h3⟩, h4, h6.trans hf, h7, h9, (congrArg BitVec.toNat h5).trans hL, .inr ⟨hl, h8, h10⟩⟩
    · rw [feedByte, if_neg (by simp; omega)] at h
      injection h with h
      subst h
      exact ⟨⟨rfl, rfl, rfl⟩, rfl, hf, rfl, rfl, hL, .inl ⟨hl, rfl⟩⟩

/-- A whole padding block handed over (R123, R126): what that leaves alone. -/
theorem compressBuffer_frame {after : AfterBlock} {s u : State} (h : compressBuffer after s = .next u) :
    SameTables s u ∧ u.observed = s.observed ∧ u.totalBitLength = s.totalBitLength ∧ u.fePhase = s.fePhase ∧
      u.initSinceReset = s.initSinceReset ∧ u.pendingBuffer = s.pendingBuffer ∧ u.H = s.H ∧
      u.task.after = some after :=
  compressStep_frame h

/-- `FINALIZE` (R120) up to its first wait: what it leaves alone, and how it waits. -/
theorem execFinalize_next {s u : State} (h : exec .finalize s = .next u) :
    s.task = .nothing ∧ s.fePhase = .accumulating ∧ SameTables s u ∧ u.observed = s.observed ∧
      u.totalBitLength = s.totalBitLength ∧ u.fePhase = .accumulating ∧ u.initSinceReset = s.initSinceReset ∧
      u.H = s.H ∧
      ((56 ≤ s.pendingBuffer.length ∧ u.task.after = some (.padSecond s.totalBitLength) ∧
          u.pendingBuffer = s.pendingBuffer ++ [0x80] ++ zeros (64 - (s.pendingBuffer.length + 1))) ∨
        (s.pendingBuffer.length ≤ 55 ∧ u.task.after = some .digest ∧
          u.pendingBuffer = s.pendingBuffer ++ [0x80] ++ zeros (56 - (s.pendingBuffer.length + 1)) ++
            be64bytes s.totalBitLength)) := by
  obtain ⟨ht, h⟩ := startOperation_next h
  obtain ⟨_, e⟩ | ⟨_, e⟩ | ⟨hf, e⟩ := guardPhase_cases .finalize finalize s <;> rw [e] at h
  · cases h
  · cases h
  · refine ⟨ht, hf, ?_⟩
    by_cases hl : 56 ≤ s.pendingBuffer.length
    · rw [finalize, if_pos (by simp; omega)] at h
      obtain ⟨⟨h1, h2, h3⟩, h4, h5, h6, h7, h8, h9, h10⟩ := compressBuffer_frame h
      exact ⟨⟨h1, h2, h3⟩, h4, h5, h6.trans hf, h7, h9, .inl ⟨hl, h10, by simpa using h8⟩⟩
    · rw [finalize, if_neg (by simp; omega)] at h
      obtain ⟨⟨h1, h2, h3⟩, h4, h5, h6, h7, h8, h9, h10⟩ := compressBuffer_frame h
      exact ⟨⟨h1, h2, h3⟩, h4, h5, h6.trans hf, h7, h9, .inr ⟨by omega, h10, by simpa using h8⟩⟩

/-- Every command and operation leaves the tables and the script alone. -/
theorem exec_sameTables {i : Instr} {s u : State} (h : exec i s = .next u) : SameTables s u := by
  cases i with
  | idle =>
    injection h with h
    subst h
    exact ⟨rfl, rfl, rfl⟩
  | init =>
    obtain ⟨-, -, rfl⟩ := execInit_next h
    exact ⟨rfl, rfl, rfl⟩
  | next block =>
    obtain ⟨-, -, -, rfl⟩ := execNext_next h
    exact ⟨rfl, rfl, rfl⟩
  | construct =>
    obtain ⟨-, ⟨-, rfl⟩ | ⟨-, rfl⟩⟩ := execConstruct_next h <;> exact ⟨rfl, rfl, rfl⟩
  | updateByte b => exact (execUpdateByte_next h).2.2.2.2.1
  | finalize => exact (execFinalize_next h).2.2.1

/-- All that a turn of the machine can have done. -/
theorem turn_next_cases {s u : State} (h : s.turn = .next u) :
    (s.phase = .busy ∧ u = s.coreStep) ∨
    (s.phase = .idle ∧ s.task = .nothing ∧ u = s) ∨
    (s.phase = .idle ∧ s.task = .construct ∧ u = s.constructed) ∨
    (∃ block after, s.phase = .idle ∧ s.task = .present block after ∧ compressStep block after s = .next u) ∨
    (s.phase = .idle ∧ s.task = .await .drain ∧ drain s = .next u) ∨
    (∃ L, s.phase = .idle ∧ s.task = .await (.padSecond L) ∧ padLastBlock L s.clearPending = .next u) ∨
    (s.phase = .idle ∧ s.task = .await .digest ∧ u = returnDigest s) := by
  cases hp : s.phase with
  | busy =>
    rw [turn_busy hp] at h
    injection h with h
    exact .inl ⟨rfl, h.symm⟩
  | idle =>
    refine .inr ?_
    rw [turn_idle hp, State.resume] at h
    cases ht : s.task with
    | nothing =>
      simp only [ht] at h
      injection h with h
      exact .inl ⟨rfl, rfl, h.symm⟩
    | construct =>
      simp only [ht, constructNow_idle hp] at h
      injection h with h
      exact .inr (.inl ⟨rfl, rfl, h.symm⟩)
    | present block after =>
      simp only [ht] at h
      exact .inr (.inr (.inl ⟨block, after, rfl, rfl, h⟩))
    | await after =>
      cases after with
      | drain =>
        simp only [ht] at h
        exact .inr (.inr (.inr (.inl ⟨rfl, rfl, h⟩)))
      | padSecond L =>
        simp only [ht] at h
        exact .inr (.inr (.inr (.inr (.inl ⟨L, rfl, rfl, h⟩))))
      | digest =>
        simp only [ht] at h
        injection h with h
        exact .inr (.inr (.inr (.inr (.inr ⟨rfl, rfl, h.symm⟩))))

/-- What a turn of the machine never touches. -/
theorem turn_sameTables {s u : State} (h : s.turn = .next u) : SameTables s u := by
  obtain ⟨-, rfl⟩ | ⟨-, -, rfl⟩ | ⟨-, -, rfl⟩ | ⟨_, _, -, -, h⟩ | ⟨-, -, h⟩ | ⟨_, -, -, h⟩ | ⟨-, -, rfl⟩ :=
    turn_next_cases h
  · exact ⟨by simp, by simp, by simp⟩
  · exact ⟨rfl, rfl, rfl⟩
  · exact ⟨rfl, rfl, rfl⟩
  · exact (compressStep_frame h).1
  · exact (drain_frame h).1
  · exact (compressBuffer_frame h).1
  · exact ⟨rfl, rfl, rfl⟩

/-- While the host waits, a run is the machine's own turns. -/
theorem runSteps_turns (n : Nat) {s : State} (hn : n ≤ s.turnsLeft)
    (hw : ∀ line rest, s.script = line :: rest → line.wait = .completion) : runSteps n s = s.turns n := by
  induction n generalizing s with
  | zero => rfl
  | succ n ih =>
    have ho : s.occupied = true := by
      by_contra h
      rw [turnsLeft_eq_zero.2 (by simpa using h)] at hn
      omega
    have e : step s = s.turn := by
      rcases hs : s.script with _ | ⟨line, rest⟩
      · exact step_nil hs
      · exact step_wait hs (by rw [hw line rest hs, waitsFor_completion, ho])
    rw [runSteps_succ, turns_succ, e]
    cases h : s.turn with
    | next u =>
      have hl := turn_turnsLeft ho h
      rw [andThen_next, andThen_next]
      exact ih (by omega) (by rw [(turn_sameTables h).2.2]; exact hw)
    | fault e => rfl
    | refused e => rfl

/-- All that a step which answers a next state can have done. -/
theorem step_next_cases {s u : State} (h : step s = .next u) :
    (takenAction s = none ∧ s.turn = .next u) ∨
    ∃ rest,
      (takenAction s = some .reset ∧ u = State.resetEvent { s with script := rest }) ∨
      (∃ w i v, takenAction s = some (.present w) ∧ takenInstr s = some i ∧
        exec i { s with script := rest } = .next v ∧ v.afterCommand i = .next u) ∨
      (∃ w, takenAction s = some (.present w) ∧ takenInstr s = none ∧
        State.turn { s with script := rest } = .next u) ∨
      (∃ bytes, takenAction s = some (.update bytes) ∧ opUpdate bytes { s with script := rest } = .next u) ∨
      (∃ n, takenAction s = some (.checkUpdate n) ∧ u = { s with script := rest }) ∨
      ∃ sig o, takenAction s = some (.observe sig) ∧ u = State.record { s with script := rest } o := by
  obtain ⟨ht, e⟩ | ⟨a, rest, wait, -, -, ht, e⟩ := step_cases s <;> rw [e] at h
  · exact .inl ⟨ht, h⟩
  · refine .inr ⟨rest, ?_⟩
    cases a with
    | reset =>
      injection h with h
      exact .inl ⟨ht, h.symm⟩
    | present w =>
      simp only [act] at h
      obtain ⟨i, hd, e⟩ | ⟨hd, e⟩ | ⟨hd, e⟩ := presentWord_cases w { s with script := rest } <;> rw [e] at h
      · rw [andThen_eq_next] at h
        obtain ⟨v, hv, h⟩ := h
        exact .inr (.inl ⟨w, i, v, ht, by simp [takenInstr, ht, hd, Except.toOption], hv, h⟩)
      · cases h
      · exact .inr (.inr (.inl ⟨w, ht, by simp [takenInstr, ht, hd, Except.toOption], h⟩))
    | update bytes => exact .inr (.inr (.inr (.inl ⟨bytes, ht, h⟩)))
    | checkUpdate n => exact .inr (.inr (.inr (.inr (.inl ⟨n, ht, (checkUpdate_next h).2.2.2⟩))))
    | observe sig =>
      refine .inr (.inr (.inr (.inr (.inr ⟨sig, ?_⟩))))
      cases sig
      · injection h with h
        exact ⟨_, ht, h.symm⟩
      · injection h with h
        exact ⟨_, ht, h.symm⟩
      · simp only [act, observe] at h
        split at h
        · injection h with h
          exact ⟨_, ht, h.symm⟩
        · cases h
    | foreign w => cases h

end Sys2Proof.Machine
end

