-- ==== Sys2Proof/Laws/Operands.lean ====
section
/-! SUPPORT. Byte sequences as numbers, the block port, words and hexadecimal digits (spec/20_memory.md R51, R52;
spec/43_mixing_primitives.md R179 to R181). -/

namespace Sys2Proof.Machine

@[simp] theorem natOfBytes_nil : natOfBytes [] = 0 := rfl

theorem natOfBytes_concat (xs : List Byte) (b : Byte) : natOfBytes (xs ++ [b]) = natOfBytes xs * 256 + b.toNat := by
  simp [natOfBytes]

@[simp] theorem natOfBytes_singleton (b : Byte) : natOfBytes [b] = b.toNat := by simp [natOfBytes]

theorem natOfBytes_append (xs ys : List Byte) :
    natOfBytes (xs ++ ys) = natOfBytes xs * 2 ^ (8 * ys.length) + natOfBytes ys := by
  induction ys using List.reverseRecOn with
  | nil => simp
  | append_singleton ys b ih =>
    rw [← List.append_assoc, natOfBytes_concat, ih, natOfBytes_concat, List.length_append, List.length_singleton,
      Nat.mul_add, pow_add]
    ring

theorem natOfBytes_lt (xs : List Byte) : natOfBytes xs < 2 ^ (8 * xs.length) := by
  induction xs using List.reverseRecOn with
  | nil => simp
  | append_singleton xs b ih =>
    rw [natOfBytes_concat, List.length_append, List.length_singleton, Nat.mul_add, pow_add]
    have := b.isLt
    omega

/-- The bytes of a sequence are the base-256 digits of its number, the first the most significant. -/
theorem natOfBytes_digit (xs : List Byte) (j : Nat) (hj : j < xs.length) :
    natOfBytes xs / 2 ^ (8 * (xs.length - 1 - j)) % 2 ^ 8 = xs[j].toNat := by
  have hsplit : xs = xs.take j ++ ([xs[j]] ++ xs.drop (j + 1)) := by simp
  have hl : (xs.drop (j + 1)).length = xs.length - 1 - j := by rw [List.length_drop]; omega
  have hval := natOfBytes_append (xs.take j) ([xs[j]] ++ xs.drop (j + 1))
  rw [← hsplit, natOfBytes_append [xs[j]], natOfBytes_singleton, List.length_append, hl, List.length_singleton,
    Nat.mul_add, pow_add] at hval
  have hlow := natOfBytes_lt (xs.drop (j + 1))
  rw [hl] at hlow
  have hb : xs[j].toNat < 2 ^ 8 := xs[j].isLt
  rw [hval]
  generalize 2 ^ (8 * (xs.length - 1 - j)) = P at *
  generalize natOfBytes (xs.drop (j + 1)) = r at *
  generalize natOfBytes (xs.take j) = q at *
  generalize xs[j].toNat = b at *
  have hP : 0 < P := by omega
  have hsum : q * (2 ^ (8 * 1) * P) + (b * P + r) = P * (q * 2 ^ 8 + b) + r := by ring
  rw [hsum, Nat.mul_add_div hP, Nat.div_eq_of_lt hlow]
  omega

theorem natOfBytes_inj {xs ys : List Byte} (hl : xs.length = ys.length) (h : natOfBytes xs = natOfBytes ys) :
    xs = ys := by
  apply List.ext_getElem hl
  intro j h1 h2
  apply BitVec.eq_of_toNat_eq
  rw [← natOfBytes_digit xs j h1, ← natOfBytes_digit ys j h2, hl, h]

theorem extractLsb'_toNat_div {w : Nat} (x : BitVec w) (s n : Nat) :
    (x.extractLsb' s n).toNat = x.toNat / 2 ^ s % 2 ^ n := by
  simp [BitVec.extractLsb'_toNat, Nat.shiftRight_eq_div_pow]

theorem blockOfBytes_toNat {bytes : List Byte} (h : bytes.length = 64) :
    (blockOfBytes bytes).toNat = natOfBytes bytes := by
  have hlt := natOfBytes_lt bytes
  rw [h] at hlt
  rw [blockOfBytes, BitVec.toNat_ofNat, Nat.mod_eq_of_lt hlt]

/-- R72: byte `j` of the block is byte `j` of the sequence. -/
theorem blockByte_blockOfBytes {bytes : List Byte} (h : bytes.length = 64) (j : Nat) (hj : j < 64) :
    blockByte (blockOfBytes bytes) j = bytes[j] := by
  apply BitVec.eq_of_toNat_eq
  rw [blockByte, extractLsb'_toNat_div, blockOfBytes_toNat h, ← natOfBytes_digit bytes j (by omega), h,
    show 504 - 8 * j = 8 * (64 - 1 - j) by omega]

@[simp] theorem blockBytes_length (block : Block) : (blockBytes block).length = 64 := by
  simp [blockBytes, memReadBlock]

theorem blockBytes_getElem (block : Block) (j : Nat) (hj : j < (blockBytes block).length) :
    (blockBytes block)[j] = blockByte block j := by
  simp [blockBytes, memReadBlock]

/-- The first `n` bytes of a block are its `8n` top bits. -/
theorem natOfBytes_take_blockBytes (block : Block) (n : Nat) (hn : n ≤ 64) :
    natOfBytes ((blockBytes block).take n) = block.toNat / 2 ^ (8 * (64 - n)) := by
  induction n with
  | zero =>
    have : block.toNat < 2 ^ (8 * (64 - 0)) := block.isLt
    rw [List.take_zero, natOfBytes_nil, Nat.div_eq_of_lt this]
  | succ n ih =>
    have hlt : n < (blockBytes block).length := by rw [blockBytes_length]; omega
    rw [← List.take_append_getElem hlt, natOfBytes_concat, ih (by omega), blockBytes_getElem, blockByte,
      extractLsb'_toNat_div, show 504 - 8 * n = 8 * (64 - (n + 1)) by omega,
      show 8 * (64 - n) = 8 * (64 - (n + 1)) + 8 by omega, pow_add, ← Nat.div_div_eq_div_mul]
    generalize block.toNat / 2 ^ (8 * (64 - (n + 1))) = m
    omega

/-- The block of a block's bytes is the block. -/
theorem blockOfBytes_blockBytes (block : Block) : blockOfBytes (blockBytes block) = block := by
  apply BitVec.eq_of_toNat_eq
  have h := natOfBytes_take_blockBytes block 64 (Nat.le_refl _)
  rw [List.take_of_length_le (by simp)] at h
  rw [blockOfBytes_toNat (by simp), h]
  simp

/-- R179. -/
theorem be32_toNat (b0 b1 b2 b3 : Byte) :
    (be32 [b0, b1, b2, b3]).toNat =
      b0.toNat * 2 ^ 24 + b1.toNat * 2 ^ 16 + b2.toNat * 2 ^ 8 + b3.toNat := by
  have h : natOfBytes [b0, b1, b2, b3] = b0.toNat * 2 ^ 24 + b1.toNat * 2 ^ 16 + b2.toNat * 2 ^ 8 + b3.toNat := by
    simp only [natOfBytes, List.foldl_cons, List.foldl_nil]
    ring
  have := b0.isLt
  have := b1.isLt
  have := b2.isLt
  have := b3.isLt
  rw [be32, h, BitVec.toNat_ofNat]
  omega

/-- R146: word `t` is `be32` of four bytes. -/
theorem blockWord_eq_be32 (block : Block) (t : Nat) :
    blockWord block t =
      be32 [blockByte block (4 * t), blockByte block (4 * t + 1), blockByte block (4 * t + 2),
        blockByte block (4 * t + 3)] := by
  simp [blockWord, memReadBlock, List.range_succ]

/-- R51: word `t` is a 32-bit slice of the port. -/
theorem blockWord_eq_slice (block : Block) (t : Nat) (ht : t < 16) :
    blockWord block t = block.extractLsb' (480 - 32 * t) 32 := by
  apply BitVec.eq_of_toNat_eq
  rw [blockWord_eq_be32, be32_toNat]
  simp only [blockByte, extractLsb'_toNat_div]
  rw [show 504 - 8 * (4 * t) = (480 - 32 * t) + 24 by omega, show 504 - 8 * (4 * t + 1) = (480 - 32 * t) + 16 by omega,
    show 504 - 8 * (4 * t + 2) = (480 - 32 * t) + 8 by omega, show 504 - 8 * (4 * t + 3) = 480 - 32 * t by omega]
  simp only [pow_add, ← Nat.div_div_eq_div_mul]
  generalize block.toNat / 2 ^ (480 - 32 * t) = m
  omega

@[simp] theorem hex8_length (w : Word) : (hex8 w).length = 8 := by simp [hex8]

theorem hex8_getElem? (w : Word) (k : Nat) (hk : k < 8) :
    (hex8 w)[k]? = some (hexDigit (w.extractLsb' (28 - 4 * k) 4)) := by
  simp [hex8, hk]

theorem hexDigit_mem (v : BitVec 4) : hexDigit v ∈ hexAlphabet := by
  have h : v.toNat < hexAlphabet.length := v.isLt
  rw [hexDigit, List.getD_eq_getElem _ _ h]
  exact List.getElem_mem h

end Sys2Proof.Machine
end

