-- ==== Sys2Proof/Laws/PerInstr.lean ====
section
/-! SUPPORT. One lemma per instruction: its word fits its row of spec/opcode_table.json (R73 to R75, R78). -/

namespace Sys2Proof.Laws.OpcodeRow

/-- The encoded word has the row's width and agrees with the row's match on the bits of its mask. -/
def Statement (i : Instr) : Prop := (tableRow i).fits (encode i) = true

theorem idle : Statement .idle := by
  unfold Statement
  decide +kernel

theorem init : Statement .init := by
  unfold Statement
  decide +kernel

/-- The `cmd` field is what the mask leaves of a `NEXT` word. -/
theorem next_masked (block : Block) : (0b10#2 ++ block).toNat &&& 3 <<< 512 = 2 <<< 512 := by
  apply Nat.eq_of_testBit_eq
  intro i
  by_cases hi : i < 512
  · simp only [Nat.testBit_and, Nat.testBit_shiftLeft, ge_iff_le, Nat.not_le.2 hi, decide_false, Bool.false_and,
      Bool.and_false]
  · obtain ⟨j, rfl⟩ := Nat.exists_eq_add_of_le (Nat.le_of_not_lt hi)
    have hb : block.toNat.testBit (512 + j) = false := by
      rw [BitVec.testBit_toNat, BitVec.getLsbD_of_ge _ _ (Nat.le_add_right _ _)]
    simp only [BitVec.toNat_append, Nat.testBit_and, Nat.testBit_or, Nat.testBit_shiftLeft, hb, Nat.add_sub_cancel_left,
      ge_iff_le, Nat.le_add_right, decide_true, Bool.true_and, Bool.or_false]
    have h : ∀ k < 2, ((0b10#2).toNat.testBit k && Nat.testBit 3 k) = Nat.testBit 2 k := by decide
    by_cases hj : j < 2
    · exact h j hj
    · have h2 : Nat.testBit 2 j = false := Nat.testBit_lt_two_pow (Nat.lt_of_lt_of_le (by decide : 2 < 2 ^ 2)
        (Nat.pow_le_pow_right (by decide) (Nat.le_of_not_lt hj)))
      have h2' : (0b10#2).toNat.testBit j = false := h2
      rw [h2', h2, Bool.false_and]

theorem next (block : Block) : Statement (.next block) := by
  simp only [Statement, TableRow.fits, tableRow, encode, PortWord.toNat, PortWord.width, next_masked,
    beq_self_eq_true, Bool.and_true]

theorem construct : Statement .construct := by
  unfold Statement
  decide

theorem updateByte (b : Byte) : Statement (.updateByte b) := by
  revert b
  unfold Statement
  decide +kernel

theorem finalize : Statement .finalize := by
  unfold Statement
  decide

end Sys2Proof.Laws.OpcodeRow
end

