-- ==== Sys2Proof/Tests/Slice0.lean ====
section
/-! SUPPORT. The tests: ill-formed terms that the checks refuse; words written out from spec/30_encoding.md; the spec's own
vectors (spec/95_test_vectors.md, each cited by its number, every expected value from there); and, for each statement with
hypotheses, states and operands that meet all of them.

The tests are checked one after another: checked at once, each in a thread of its own, they need too much memory. -/

set_option Elab.async false

namespace Sys2Proof.Machine

/-! ### Small states -/

/-- The ZERO tables of spec/95_test_vectors.md, after reset. -/
def zeroState : State := { State.reset with IV := Vector.replicate 8 0, K := Vector.replicate 64 0 }

/-- The SYN tables of spec/95_test_vectors.md, after reset. -/
def synState : State :=
  { State.reset with
    IV := Vector.ofFn fun i => BitVec.ofNat 32 ((i.val + 1) * 0x11111111)
    K := Vector.ofFn fun i => BitVec.ofNat 32 ((i.val + 1) * 0x9e3779b1) }

/-- An idle core that has had its `INIT`. -/
def initialised (s : State) : State := s.loadIV.flagsOfInit

/-- A busy core with round `t` next. -/
def busyAt (s : State) (t : Fin 65) : State := { (initialised s).goBusy with t := t }

/-- An idle engine that is accumulating, with a partial block and a bit count. -/
def accumulating (s : State) (pending : List Byte) (bits : Nat) : State :=
  { initialised s with
    pendingBuffer := pending, totalBitLength := BitVec.ofNat 64 bits, fePhase := .accumulating }

/-- `n` bytes `61`. -/
def letters (n : Nat) : List Byte := List.replicate n 0x61

/-- What is asked of the state an outcome goes on to. -/
def holdsNext (r : Result) (p : State → Bool) : Bool :=
  match r with
  | .next s => p s
  | .fault _ => false
  | .refused _ => false

/-- The fault of an outcome. -/
def faultOf (r : Result) : Option Fault :=
  match r with
  | .next _ => none
  | .fault e => some e
  | .refused _ => none

/-- The refusal of an outcome. -/
def refusalOf (r : Result) : Option Refusal :=
  match r with
  | .next _ => none
  | .fault _ => none
  | .refused e => some e

theorem exists_of_holdsNext {r : Result} {p : State → Bool} (h : holdsNext r p = true) :
    ∃ s, r = .next s ∧ p s = true := by
  cases r with
  | next s => exact ⟨s, rfl, h⟩
  | fault e => cases h
  | refused e => cases h

/-! ### Well-formedness: ill-formed terms are refused -/

theorem test_word_too_narrow : tableWordWf 9 0x100 = false := by decide
theorem test_framing_word_too_wide : tableWordWf 16 0x400 = false := by decide
theorem test_core_word_too_wide : tableWordWf 520 (1 <<< 514) = false := by decide +kernel
theorem test_short_block : (ScriptLine.next []).wf = false := by decide
theorem test_short_block_now : (ScriptLine.nextNow (letters 63)).wf = false := by decide
theorem test_long_block : (ScriptLine.compress (letters 65)).wf = false := by decide
theorem test_text_not_ascii : (ScriptLine.updateText ['a', 'é']).wf = false := by decide
theorem test_hash_text_not_ascii : (ScriptLine.hashText ['é']).wf = false := by decide
theorem test_refused_not_decoded : decodeTableWord 9 0x100 = none ∧ decodeTableWord 16 0x400 = none := by decide

/-! ### Decoding: the words of spec/95_test_vectors.md section 6, bit by bit -/

/-- V30.1, V30.2: `cmd = 00`, whatever the block. -/
theorem test_decode_idle : decodeTableWord 520 ((1 <<< 512) - 1) = some .idle := by decide +kernel
/-- V30.4: `cmd = 01`, whatever the block. -/
theorem test_decode_init : decodeTableWord 514 (1 <<< 512 + 0x61626380 <<< 480) = some .init := by decide +kernel
/-- V30.5: `cmd = 10`; byte 0 of the block is `block[511:504]`, byte 63 is `block[7:0]`. -/
theorem test_decode_next :
    decodeTableWord 520 (2 <<< 512 + 0x61626380 <<< 480 + 0x18) =
      some (.next (blockOfBytes ([0x61, 0x62, 0x63, 0x80] ++ zeros 59 ++ [0x18]))) := by decide +kernel
/-- V30.6: `cmd = 11` is no instruction. -/
theorem test_decode_reserved : decodeTableWord 520 (3 <<< 512) = none := by decide +kernel
/-- V30.7: `fop = 01`, whatever the byte. -/
theorem test_decode_construct : decodeTableWord 16 0b0111111111 = some .construct := by decide
/-- V30.8: `fop = 10`, the byte as it is. -/
theorem test_decode_updateByte : decodeTableWord 10 0b1001100001 = some (.updateByte 0x61) := by decide
/-- V30.9: `fop = 11`. -/
theorem test_decode_finalize : decodeTableWord 16 0b1100000000 = some .finalize := by decide
/-- V30.10: `fop = 00` is no operation. -/
theorem test_decode_nothing : decodeTableWord 16 0x0ff = none := by decide

/-! ### Primitives and compression -/

/-- V43.1, V43.2, V43.3. -/
theorem test_arithmetic :
    add32 [0x12345678, 0x9abcdef0, 0x0f0f0f0f] = 0xbc004477 ∧ add32 [0xffffffff, 1] = 0 ∧
      rotr 0x12345678 1 = 0x091a2b3c ∧ rotr 0x12345678 31 = 0x2468acf0 ∧ rotr 0x80000001 17 = 0x0000c000 ∧
      shr 0x80000000 3 = 0x10000000 := by decide
/-- V43.4. -/
theorem test_sigmas :
    bigSigma0 0xdeadbeef = 0xfebccb54 ∧ bigSigma1 0xdeadbeef = 0xa6d3a2f5 ∧
      smallSigma0 0xdeadbeef = 0x6b908db4 ∧ smallSigma1 0xdeadbeef = 0x480121ce := by decide
/-- V43.5, the row that holds all eight truth-table rows. -/
theorem test_boolean_functions :
    ch 0xaaaaaaaa 0xcccccccc 0xf0f0f0f0 = 0xacacacac ∧ maj 0xaaaaaaaa 0xcccccccc 0xf0f0f0f0 = 0xe4e4e4e4 := by
  decide
/-- V43.8. -/
theorem test_conversions :
    be32 [0x61, 0x62, 0x63, 0x80] = 0x61626380 ∧
      be64bytes 0x0000000100000008 = [0, 0, 0, 1, 0, 0, 0, 8] ∧
      hex8 0x0000ab01 = ['0', '0', '0', '0', 'a', 'b', '0', '1'] := by decide
/-- V42.1, block ones. -/
theorem test_schedule_ones :
    (schedule (BitVec.allOnes 512))[16] = 0x203ffffc ∧ (schedule (BitVec.allOnes 512))[63] = 0x53f8c4f5 := by
  decide +kernel
/-- V42.2, SYN round trace for block zero, round 0. -/
theorem test_round_zero :
    round (workingOf synState.IV) synState.K[0] 0 =
      ⟨0xf38ccf04, 0x11111111, 0x22222222, 0x33333333, 0x15aef127, 0x55555555, 0x66666666, 0x77777777⟩ := by
  decide +kernel
/-- V42.3, SYN, block abc, with the sliding window of R154. -/
theorem test_window :
    feedForward synState.IV (runRoundsWindow synState.K (BitVec.ofNat 512 (0x61626380 <<< 480 + 0x18))
      (workingOf synState.IV)) =
      #v[0xbcc7e2c6, 0x6f9f3f56, 0x9edaf87f, 0xa7b7008e, 0xee8ebe3b, 0x287c116c, 0x76a30db7, 0xc0236692] := by
  decide +kernel

/-! ### The instructions, one step each -/

/-- V60.5: `IDLE` while busy is no fault, and the compression goes on. -/
theorem test_idle_while_busy :
    holdsNext (step { busyAt zeroState 5 with script := [presentNowLine .idle] })
      (fun s => s.t == 6 && s.phase == .busy) = true := by decide +kernel
/-- V42.5. -/
theorem test_init :
    holdsNext (exec .init synState) (fun s => s.digestValid && s.ready &&
      s.digest == 0x1111111122222222333333334444444455555555666666667777777788888888) = true := by decide +kernel
/-- V60.4. -/
theorem test_init_while_busy : faultOf (exec .init (busyAt synState 0)) = some (.coreBusyViolation .init) := by
  decide +kernel
/-- V42.3, SYN, block zero. -/
theorem test_next :
    holdsNext (exec (.next 0) (initialised synState)) (fun s => holdsNext (s.turns 65) fun u => u.H ==
      #v[0x1c0f53e1, 0x572ab208, 0x8f7b2ffc, 0xa5da2441, 0x5ffdae95, 0x612bd8bb, 0x68883ad3, 0x4c1f7525]) = true := by
  decide +kernel
/-- V60.1. -/
theorem test_next_uninitialised : faultOf (exec (.next 0) synState) = some .coreUninitialised := by decide +kernel
/-- V60.13, the second `CONSTRUCT`: nothing of the message in progress is left. -/
theorem test_construct :
    holdsNext (exec .construct (accumulating synState [0x78, 0x79, 0x7a] 24))
      (fun s => s.pendingBuffer == [] && s.totalBitLength == 0 && s.fePhase == .accumulating && s.H == synState.IV)
      = true := by decide +kernel
/-- V40.9, then V40.10. -/
theorem test_updateByte_longest_message :
    holdsNext (exec (.updateByte 1) (accumulating zeroState (letters 62) (2 ^ 64 - 16)))
      (fun s => s.pendingBuffer.length == 63 && s.totalBitLength == 0xfffffffffffffff8 &&
        faultOf (exec (.updateByte 2) s) == some (.lengthOverflow 1)) = true := by decide +kernel
/-- V40.4, V41.17: the 64th byte hands the block over. -/
theorem test_updateByte_sixty_fourth :
    holdsNext (completed (exec (.updateByte 0x61) (accumulating synState (letters 63) 504)))
      (fun s => s.pendingBuffer == [] && s.totalBitLength == 512 && s.H ==
        #v[0xa1e2164a, 0x856587b0, 0x94d31206, 0x189ce213, 0xb7ec510e, 0xfaa97daf, 0xe2ebdab6, 0x30b0ac31]) = true := by
  decide +kernel
/-- V41.1, SYN: the empty message. -/
theorem test_finalize_empty :
    holdsNext (completed (exec .finalize (accumulating synState [] 0))) (fun s => s.observed ==
      [.digestStr "7085b28196887b30468e1e20d415a4769237e73ca996c08f1d07b3409f41f798".toList]) = true := by
  decide +kernel
/-- V41.3, SYN: 56 bytes, the first length that takes step 3. -/
theorem test_finalize_two_blocks :
    holdsNext (completed (exec .finalize (accumulating synState (letters 56) 448))) (fun s => s.observed ==
      [.digestStr "210474589427cb3b9eb1686679566b3e0b37f6e657251d6f8792a846a94ffd7f".toList]) = true := by
  decide +kernel
/-- V41.2, SYN: 55 bytes, the last length that does not. -/
theorem test_finalize_one_block :
    holdsNext (completed (exec .finalize (accumulating synState (letters 55) 440))) (fun s => s.observed ==
      [.digestStr "021c26558b02ae67ee6de1e2aaf8991a1553b7c1d47a8f5d3ec87c452336b171".toList]) = true := by
  decide +kernel
/-- V40.8, counted in blocks: 200 bytes leave 8 in the buffer. -/
theorem test_update :
    holdsNext (completed (opUpdate (letters 200) (accumulating zeroState [] 0)))
      (fun s => s.pendingBuffer == letters 8 && s.totalBitLength == 1600) = true := by decide +kernel
/-- V40.11. -/
theorem test_update_overflow :
    faultOf (opUpdate [1, 2] (accumulating zeroState (letters 62) (2 ^ 64 - 16))) = some (.lengthOverflow 2) := by
  decide +kernel
/-- V60.2, V60.6, V60.7, V60.8, V60.11, R227. -/
theorem test_stops :
    refusalOf (observe .digest synState) = some .digestNotValid ∧
      faultOf (presentWord (.core (0b11#2 ++ (0 : Block))) (initialised synState)) = some .reservedCommand ∧
      faultOf (exec (.updateByte 0x61) synState) = some (.notConstructed .updateByte) ∧
      faultOf (exec .finalize synState) = some (.notConstructed .finalize) ∧
      faultOf (opUpdate [] { initialised synState with fePhase := .finalized }) = some (.useAfterFinalize .update) ∧
      refusalOf (act (.foreign (encode .idle)) synState) = some .concurrentAccess := by decide +kernel
/-- The codes of spec/60_exceptions.md section 3. -/
theorem test_codes :
    [faultCode (.lengthOverflow 1), faultCode (.useAfterFinalize .update), faultCode (.notConstructed .finalize),
      faultCode (.coreBusyViolation .next), faultCode .coreUninitialised, faultCode .reservedCommand] =
      [1, 2, 3, 4, 5, 6] ∧ refusalCode .concurrentAccess = some 7 := by decide
/-- V70.2: a reset during the rounds, then `READ`. -/
theorem test_reset_during_rounds :
    holdsNext (step { busyAt synState 30 with script := resetNowLine :: expandScript [.read] })
      (fun s => s.phase == .idle && refusalOf (step s) == some .digestNotValid) = true := by decide +kernel
/-- V70.2 inside an operation (R220, R221): a reset during the rounds of the `NEXT` that `UPDATE_BYTE` has issued, then
`READ`. -/
theorem test_reset_inside_updateByte :
    holdsNext (exec (.updateByte 0x61) { accumulating synState (letters 63) 504 with
        script := presentNowLine .idle :: resetNowLine :: expandScript [.read] })
      (fun s => s.phase == .busy && holdsNext (runSteps 2 s) fun u => u.phase == .idle && u.task == .nothing &&
        u.pendingBuffer == [] && u.fePhase == .unconstructed && refusalOf (step u) == some .digestNotValid) = true := by
  decide +kernel
/-- R79: a `RESET` line waits for the `FINALIZE` line before it, here for its last turn, which yields the string of
`H`, all zeros (R127). -/
theorem test_reset_after_finalize :
    holdsNext (runSteps 2 { accumulating synState (letters 64) 0 with
        H := Vector.replicate 8 0, task := .await .digest, script := expandScript [.reset] })
      (fun s => s.fePhase == .unconstructed && s.script == [] &&
        s.observed == [.digestStr (List.replicate 64 '0')]) = true := by decide +kernel
/-- R61, R198: a second operation in the middle of one is refused. -/
theorem test_operation_in_progress :
    holdsNext (exec .finalize (accumulating synState [] 0))
      (fun s => refusalOf (exec .construct s) == some .concurrentAccess) = true := by decide +kernel
/-- R80: the text "abc" in a `HASH` line is `61 62 63`. -/
theorem test_hash_text :
    expandLine (.hashText ['a', 'b', 'c']) = expandLine (.hash [0x61, 0x62, 0x63]) := by decide
/-- R80, V60.11 and V40.11: an `UPDATE` line is its check, then its `UPDATE_BYTE` lines. -/
theorem test_update_line :
    expandLine (.updateText ['a', 'b']) =
        [⟨.completion, .checkUpdate 2⟩, presentLine (.updateByte 0x61), presentLine (.updateByte 0x62)] ∧
      faultOf (step { initialised synState with fePhase := .finalized, script := expandLine (.update []) }) =
        some (.useAfterFinalize .update) ∧
      faultOf (step { accumulating zeroState (letters 62) (2 ^ 64 - 16) with script := expandLine (.update [1, 2]) }) =
        some (.lengthOverflow 2) := by decide +kernel
/-- R80: after an `UPDATE` line past a block boundary the core is idle again when `NEXT!` comes; after one up to the
boundary it is busy (V60.3). -/
theorem test_next_now_after_update :
    holdsNext (runSteps 70 { accumulating zeroState (letters 63) 504 with
        script := expandScript [.update [0x61, 0x61], .nextNow (letters 64)] })
      (fun s => s.phase == .busy && s.t == 0 && s.script == [] && s.pendingBuffer == letters 1) = true ∧
    holdsNext (runSteps 2 { accumulating zeroState (letters 63) 504 with
        script := expandScript [.update [0x61], .nextNow (letters 64)] })
      (fun s => faultOf (step s) == some (.coreBusyViolation .next)) = true := by decide +kernel
/-- R80, V60.3: an `UPDATE` of no byte between a `NEXT` and a `NEXT!` changes nothing. -/
theorem test_empty_update_line_waits_for_no_compression :
    faultOf (runSteps 4 { zeroState with
      script := expandScript [.construct, .next (letters 64), .update [], .nextNow (letters 64)] }) =
        some (.coreBusyViolation .next) := by decide +kernel
/-- V60.11, V60.9: the `FINALIZE` before it has returned its string when an `UPDATE` of no byte raises. -/
theorem test_empty_update_line_after_finalize :
    holdsNext (step { accumulating synState (letters 64) 0 with
        H := Vector.replicate 8 0, task := .await .digest, script := expandScript [.update []] })
      (fun s => s.observed == [.digestStr (List.replicate 64 '0')] &&
        faultOf (step s) == some (.useAfterFinalize .update)) = true := by decide +kernel
/-- A table word is run by the very next step; after reset `NEXT` has no chaining value (V60.1), `CONSTRUCT` runs. -/
theorem test_withFetchWord :
    faultOf (step (synState.withFetchWord 520 (2 <<< 512))) = some .coreUninitialised ∧
      holdsNext (step (synState.withFetchWord 16 0x100)) (fun s => s.fePhase == .accumulating) = true := by
  decide +kernel

/-! ### Witnesses: states and operands that meet the hypotheses of each statement, every clause, at its boundaries -/

theorem accumulating_inv (s : State) (pending : List Byte) (bits : Nat) (h : s.phase = .idle) (ht : s.task = .nothing)
    (hr : s.ready = true)
    (hl : pending.length < 64) (hb : bits < 2 ^ 64) (hd : 8 ∣ bits) (hp : pending.length = bits / 8 % 64) :
    Inv (accumulating s pending bits) := by
  have e : (BitVec.ofNat 64 bits).toNat = bits := by rw [BitVec.toNat_ofNat, Nat.mod_eq_of_lt hb]
  exact ⟨by simp [accumulating, initialised, h, hr], by simp [accumulating, initialised, h],
    by simp [accumulating, initialised, h], fun _ => hl, by simpa [accumulating, e] using hd,
    fun _ _ => by simpa [accumulating, e, Nat.mod_eq_of_lt hl] using hp, by simp [accumulating], by simp [accumulating],
    by simp [accumulating, initialised], by simp [accumulating], by
      simp [accumulating, initialised, ht, FramingTask.finalizing, FramingTask.after], by
      simp [accumulating, initialised, ht, FramingTask.after]⟩

/-- The engine with the longest partial block and the largest count that one more byte still fits. -/
def nearlyFull : State := accumulating zeroState (letters 62) (2 ^ 64 - 16)

theorem nearlyFull_inv : Inv nearlyFull :=
  accumulating_inv _ _ _ rfl rfl rfl (by decide) (by decide) (by decide) (by decide)

theorem zeroState_inv : Inv zeroState :=
  ⟨by decide, by decide, by decide, by decide, by decide, by decide, by decide, by decide, by decide, by decide, by decide,
    fun L h => by cases h⟩

theorem test_witness_DecodeEncodeRoundTrip :
    (Instr.next (BitVec.allOnes 512)).wf = true ∧ (Instr.updateByte 0xff).wf = true ∧ Instr.finalize.wf = true := by
  decide

theorem test_witness_OperationWordsDecodeByFop : State.reset.phase = .idle ∧ State.reset.task = .nothing := ⟨rfl, rfl⟩

theorem test_witness_BlockPortIsBigEndian :
    (List.replicate 64 (0xff : Byte)).length = 64 ∧ 0 < 64 ∧ 63 < 64 ∧ 0 < 16 ∧ 15 < 16 := by decide

theorem test_witness_Add32IsSumModulo : [1, 2].Perm [2, (1 : Word)] := by decide

theorem test_witness_RotrMovesEveryBit : 1 ≤ 1 ∧ 1 ≤ 31 ∧ 31 ≤ 31 ∧ 31 < 32 := by decide

theorem test_witness_bit_positions : 0 < 32 ∧ 31 < 32 ∧ 28 + 3 < 32 ∧ ¬ 29 + 3 < 32 ∧ 0 < 8 ∧ 7 < 8 := by decide

theorem test_witness_ScheduleFollowsRecurrence : 15 < 16 ∧ 16 ≤ 16 ∧ 16 ≤ 63 ∧ 63 < 64 := by decide

theorem test_witness_SlidingWindowAgrees : 16 ≤ 16 ∧ 16 ≤ 64 ∧ 64 ≤ 64 ∧ 15 < 16 := by decide

theorem test_witness_BusyCoreRunsOneRound (t : Fin 65) (h : t.val = 0 ∨ t.val = 15 ∨ t.val = 16 ∨ t.val = 63) :
    (busyAt zeroState t).t.val < 64 ∧ (busyAt zeroState t).phase = .busy := by
  refine ⟨?_, rfl⟩
  show t.val < 64
  omega

theorem test_witness_FinishAddsRegisters :
    (busyAt zeroState 64).t.val = 64 ∧ (busyAt zeroState 64).phase = .busy := by
  decide

theorem test_witness_NextCompletesAsAtomicForm :
    (initialised zeroState).phase = .idle ∧ (initialised zeroState).task = .nothing ∧
      (initialised zeroState).initSinceReset = true ∧ 0 ≤ 64 ∧ 64 ≤ 64 := by
  decide

theorem test_witness_CompressRunsSixtyFourRounds :
    ∃ v : Nat → Working, v 0 = workingOf synState.IV ∧
      ∀ t : Nat, (ht : t < 64) → v (t + 1) = round (v t) synState.K[t] (schedule 0)[t] :=
  ⟨roundsTo synState.K (schedule 0) (workingOf synState.IV), rfl, fun t ht => roundsTo_succ _ _ _ t ht⟩

theorem test_witness_IdleDoesNothing :
    ({ busyAt zeroState 5 with script := [presentNowLine .idle] } : State).script =
      ⟨.no, .present (.core (0b00#2 ++ (0 : Block)))⟩ :: [] ∧
    ({ zeroState with script := [presentLine .idle] } : State).script =
      ⟨.completion, .present (.core (0b00#2 ++ (0 : Block)))⟩ :: [] ∧ zeroState.occupied = false := ⟨rfl, rfl, rfl⟩

theorem test_witness_InitLoadsInitialVector :
    (zeroState.phase = .idle ∧ zeroState.task = .nothing) ∧ (busyAt zeroState 64).phase = .busy := by
  decide

theorem test_witness_NextAcceptance :
    (busyAt zeroState 0).phase = .busy ∧
      (zeroState.phase = .idle ∧ zeroState.task = .nothing ∧ zeroState.initSinceReset = false) ∧
      (initialised zeroState).phase = .idle ∧ (initialised zeroState).task = .nothing ∧ (initialised zeroState).initSinceReset = true ∧
      15 < 16 ∧ 16 ≤ 16 ∧ 63 < 64 := by decide

theorem test_witness_BusyCommandsFault : (busyAt zeroState 0).phase = .busy ∧ (busyAt zeroState 64).phase = .busy := by
  decide

/-- The first round (64 steps before the last one) and the feed-forward (none before it), with a waiting line. -/
theorem test_witness_BusyCoreBecomesReady (t : Fin 65) (h : t = 0 ∨ t = 64) :
    ({ busyAt zeroState t with script := [presentLine .init] } : State).phase = .busy ∧
      (∀ line rest, ({ busyAt zeroState t with script := [presentLine .init] } : State).script = line :: rest →
        line.wait = .completion) ∧
      (t = 0 → 64 < 65 - t.val) ∧ (t = 64 → 0 < 65 - t.val) := by
  refine ⟨rfl, fun line rest h => ?_, by rintro rfl; decide, by rintro rfl; decide⟩
  simp only [List.cons.injEq] at h
  rw [← h.1]
  rfl

theorem test_witness_CommandsChainBlocks (blocks : List Block) :
    ({ zeroState with script := presentLine .init :: blocks.map fun b => presentLine (.next b) } : State).phase =
      .idle ∧
    ({ zeroState with script := presentLine .init :: blocks.map fun b => presentLine (.next b) } : State).task =
      .nothing ∧ zeroState.ready = true ∧
    ({ zeroState with script := presentLine .init :: blocks.map fun b => presentLine (.next b) } : State).script =
      presentLine .init :: blocks.map fun b => presentLine (.next b) := ⟨rfl, rfl, rfl, rfl⟩

theorem test_witness_ConstructMakesFreshEngine :
    (zeroState.task = .nothing ∧ zeroState.phase = .idle) ∧ (busyAt zeroState 0).task = .nothing ∧
      (busyAt zeroState 0).phase = .busy := by decide

theorem test_witness_UpdateByteFeedsOneByte :
    (nearlyFull.task = .nothing ∧ nearlyFull.fePhase = .accumulating ∧ nearlyFull.totalBitLength.toNat + 8 < 2 ^ 64 ∧
      nearlyFull.pendingBuffer.length ≠ 63) ∧
    (accumulating zeroState (letters 63) 504).task = .nothing ∧
    (accumulating zeroState (letters 63) 504).fePhase = .accumulating ∧
    (accumulating zeroState (letters 63) 504).totalBitLength.toNat + 8 < 2 ^ 64 ∧
    (accumulating zeroState (letters 63) 504).pendingBuffer.length = 63 ∧
    (accumulating zeroState (letters 63) 504).phase = .idle ∧
    (accumulating zeroState (letters 63) 504).initSinceReset = true := by decide

theorem test_witness_FramingFaults :
    zeroState.task = .nothing ∧ nearlyFull.task = .nothing ∧ zeroState.fePhase = .unconstructed ∧
      ({ zeroState with fePhase := .finalized } : State).fePhase = .finalized ∧
      nearlyFull.fePhase = .accumulating ∧ 2 ^ 64 ≤ nearlyFull.totalBitLength.toNat + 8 * [(0 : Byte), 1].length ∧
      (accumulating zeroState (letters 63) (2 ^ 64 - 8)).fePhase = .accumulating ∧
      2 ^ 64 ≤ (accumulating zeroState (letters 63) (2 ^ 64 - 8)).totalBitLength.toNat + 8 := by decide

theorem test_witness_UpdateDrainsWholeBlocks :
    Inv nearlyFull ∧ nearlyFull.task = .nothing ∧ nearlyFull.phase = .idle ∧ nearlyFull.fePhase = .accumulating ∧
      nearlyFull.totalBitLength.toNat + 8 * [(0 : Byte)].length < 2 ^ 64 :=
  ⟨nearlyFull_inv, by decide, by decide, by decide, by decide⟩

theorem test_witness_UpdateIsChunkInvariant :
    (accumulating zeroState (letters 63) 504).fePhase = .accumulating ∧
      (accumulating zeroState (letters 63) 504).totalBitLength.toNat + 8 * ((letters 1).length + (letters 64).length) <
        2 ^ 64 := by decide

theorem test_witness_UpdateEqualsBytewiseExpansion :
    Inv nearlyFull ∧ nearlyFull.task = .nothing ∧ nearlyFull.fePhase = .accumulating ∧
      nearlyFull.totalBitLength.toNat + 8 * [(0 : Byte)].length < 2 ^ 64 ∧
      2 ^ 64 ≤ nearlyFull.totalBitLength.toNat + 8 * [(0 : Byte), 1].length ∧
      nearlyFull.totalBitLength.toNat + 8 * 1 < 2 ^ 64 ∧ 1 ≤ [(0 : Byte), 1].length :=
  ⟨nearlyFull_inv, by decide, by decide, by decide, by decide, by decide, by decide⟩

theorem test_witness_EmptyUpdateIsNoOp :
    (accumulating zeroState (letters 63) 504).task = .nothing ∧
      (accumulating zeroState (letters 63) 504).fePhase = .accumulating ∧
      (accumulating zeroState (letters 63) 504).pendingBuffer.length < 64 := by decide

/-- 55 and 56 bytes in the buffer: one block and two. -/
theorem test_witness_FinalizePadsAndReturnsDigest (n : Nat) (h : n = 55 ∨ n = 56) :
    Inv (accumulating zeroState (letters n) (8 * n)) ∧ (accumulating zeroState (letters n) (8 * n)).task = .nothing ∧
      (accumulating zeroState (letters n) (8 * n)).phase = .idle ∧
      (accumulating zeroState (letters n) (8 * n)).fePhase = .accumulating := by
  refine ⟨accumulating_inv _ _ _ rfl rfl rfl ?_ ?_ ?_ ?_, rfl, rfl, rfl⟩ <;> simp [letters] <;> omega

theorem test_witness_DigestStringForm :
    ∃ u, completed (exec .finalize (accumulating zeroState [] 0)) = .next u ∧ 7 < 8 ∧ 63 < 64 := by
  obtain ⟨u, h, -⟩ := exists_of_holdsNext (r := completed (exec .finalize (accumulating zeroState [] 0)))
    (p := fun _ => true) (by decide +kernel)
  exact ⟨u, h, by decide, by decide⟩

theorem test_witness_DigestPortOrder : 0 < 8 ∧ 7 < 8 := by decide

theorem test_witness_PaddedMessageIsWholeBlocks : (letters 55).length % 64 ≤ 55 ∧ 56 ≤ (letters 56).length % 64 := by
  decide

/-- The empty message, and one of 56 bytes. -/
theorem test_witness_HashReturnsDigestOfPaddedMessage (M : List Byte) (h : M = [] ∨ M = letters 56) :
    Inv { zeroState with script := expandLine (.hash M) } ∧ zeroState.task = .nothing ∧ zeroState.phase = .idle ∧
      ({ zeroState with script := expandLine (.hash M) } : State).script = expandLine (.hash M) ++ [] ∧
      (∀ l rest', ([] : List HostLine) = l :: rest' → l.wait = .completion) ∧ 8 * M.length < 2 ^ 64 := by
  refine ⟨inv_withScript zeroState_inv _, rfl, rfl, (List.append_nil _).symm, (fun _ _ h => by cases h), ?_⟩
  rcases h with rfl | rfl <;> decide

/-- The same with a text. -/
theorem test_witness_HashReturnsDigestOfPaddedMessage_text :
    (ScriptLine.hashText ['a', 'b', 'c']).wf = true ∧
      ([0x61, 0x62, 0x63] : List Byte).map BitVec.toNat = ['a', 'b', 'c'].map Char.toNat := by decide

theorem test_witness_ConstructedEnginesAgree :
    Inv zeroState ∧ Inv nearlyFull ∧ zeroState.task = .nothing ∧ nearlyFull.task = .nothing ∧ nearlyFull.IV = zeroState.IV ∧ nearlyFull.K = zeroState.K ∧
      nearlyFull.script = zeroState.script ∧ nearlyFull.observed = zeroState.observed :=
  ⟨zeroState_inv, nearlyFull_inv, rfl, rfl, rfl, rfl, rfl, rfl⟩

/-- An engine in the middle of an `UPDATE_BYTE`. -/
def midUpdate : State := { accumulating zeroState (letters 8) 64 with task := .await .drain }

theorem midUpdate_inv : Inv midUpdate :=
  ⟨by decide, by decide, by decide, (fun h => by cases h), by decide, by decide, by decide, by decide, by decide, by decide,
    by decide, fun L h => by cases h⟩

theorem test_witness_FramingNeverFaultsCore :
    Inv nearlyFull ∧ nearlyFull.task = .nothing ∧ Inv zeroState ∧ zeroState.task = .nothing ∧ Inv midUpdate :=
  ⟨nearlyFull_inv, rfl, zeroState_inv, rfl, midUpdate_inv⟩

/-- A busy core, and an operation on it that goes on. -/
theorem test_witness_FramingOperationsWaitForTheCore :
    (accumulating zeroState (letters 63) 504).goBusy.task = .nothing ∧
      (accumulating zeroState (letters 63) 504).goBusy.phase = .busy ∧
      ∃ u, exec (.updateByte 1) (accumulating zeroState (letters 63) 504).goBusy = .next u := by
  obtain ⟨u, h, -⟩ := exists_of_holdsNext (r := exec (.updateByte 1) (accumulating zeroState (letters 63) 504).goBusy)
    (p := fun _ => true) (by decide +kernel)
  exact ⟨rfl, rfl, u, h⟩

theorem test_witness_FramingOperationsTerminate :
    Inv midUpdate ∧ midUpdate.occupied = true ∧ midUpdate.script = [] ∧
      Inv (accumulating zeroState [] 0) ∧ (accumulating zeroState [] 0).task = .nothing ∧
      (accumulating zeroState [] 0).phase = .idle ∧ ∃ u, exec .finalize (accumulating zeroState [] 0) = .next u := by
  obtain ⟨u, h, -⟩ := exists_of_holdsNext (r := exec .finalize (accumulating zeroState [] 0)) (p := fun _ => true)
    (by decide +kernel)
  exact ⟨midUpdate_inv, rfl, rfl, accumulating_inv _ _ _ rfl rfl rfl (by decide) (by decide) (by decide) (by decide), rfl,
    rfl, u, h⟩

theorem test_witness_OperationInProgressRefusesOthers : midUpdate.task ≠ .nothing ∧ midUpdate.phase = .idle := by decide

theorem test_witness_ReadingOutputs :
    (initialised zeroState).digestValid = true ∧ (busyAt zeroState 0).digestValid = false := by decide

/-- In both phases. -/
theorem test_witness_ResetEventForgetsEverything :
    ({ busyAt zeroState 30 with script := [resetNowLine] } : State).script = ⟨.no, .reset⟩ :: [] ∧
      ({ zeroState with script := [⟨.completion, .reset⟩] } : State).script = ⟨.completion, .reset⟩ :: [] ∧
      zeroState.occupied = false := ⟨rfl, rfl, rfl⟩

theorem busyAt_inv (t : Fin 65) : Inv (busyAt zeroState t) :=
  ⟨by simp [busyAt], by simp [busyAt], by simp [busyAt, initialised], by simp [busyAt, initialised, zeroState, State.reset],
    by simp [busyAt, initialised, zeroState, State.reset], by simp [busyAt, initialised, zeroState, State.reset],
    by simp [busyAt, initialised, zeroState, State.reset], by simp [busyAt, initialised, zeroState, State.reset],
    by simp [busyAt, initialised], by simp [busyAt, initialised, zeroState, State.reset, FramingTask.after],
    by simp [busyAt, initialised, zeroState, State.reset, FramingTask.finalizing, FramingTask.after],
    by simp [busyAt, initialised, zeroState, State.reset, FramingTask.after]⟩

/-- Before the last step of the core, and before the last turn of an operation. -/
theorem test_witness_ResetAbandonsWhatIsInProgress :
    Inv { busyAt zeroState 63 with script := presentNowLine .idle :: [resetNowLine] } ∧
      1 < ({ busyAt zeroState 63 with script := presentNowLine .idle :: [resetNowLine] } : State).turnsLeft ∧
      ({ busyAt zeroState 63 with script := presentNowLine .idle :: [resetNowLine] } : State).script =
        List.replicate 1 ⟨.no, .present (encode .idle)⟩ ++ ⟨.no, .reset⟩ :: [] ∧ 1 < 65 - 63 ∧
      Inv { midUpdate with script := [resetNowLine] } ∧ 0 < midUpdate.turnsLeft :=
  ⟨inv_withScript (busyAt_inv 63) _, by decide, by simp [presentNowLine, resetNowLine], by decide,
    inv_withScript midUpdate_inv _, by decide⟩

theorem test_witness_StepRunsDecodedInstruction :
    ({ zeroState with script := [presentLine .construct] } : State).script =
        ⟨.completion, .present (encode .construct)⟩ :: [] ∧
      zeroState.occupied = false ∧ decode (encode .construct) = .ok .construct ∧
      ({ busyAt zeroState 9 with script := [presentNowLine .idle] } : State).script =
        ⟨.no, .present (encode .idle)⟩ :: [] ∧
      decode (encode .idle) = .ok .idle := by
  refine ⟨rfl, rfl, by decide, rfl, ?_⟩
  simp only [encode, decode, decodeCore, cmdField_append, if_true]

theorem test_witness_PlacedWordRunsNext :
    decodeTableWord 16 0x261 = some (.updateByte 0x61) ∧ decodeTableWord 520 0 = some .idle := by decide +kernel

theorem test_witness_HostWaitsWhileBusy :
    ({ busyAt zeroState 64 with script := [presentLine .init] } : State).script =
        ⟨.completion, .present (encode .init)⟩ :: [] ∧
      (busyAt zeroState 64).phase = .busy ∧ (busyAt zeroState 64).script = [] ∧ midUpdate.task ≠ .nothing ∧
      zeroState.script = [] ∧ zeroState.phase = .idle ∧ zeroState.task = .nothing :=
  ⟨rfl, rfl, rfl, by decide, rfl, rfl, rfl⟩

theorem test_witness_SecondDriverRefused :
    ({ zeroState with script := [⟨.completion, .foreign (encode .init)⟩] } : State).script =
        ⟨.completion, .foreign (encode .init)⟩ :: [] ∧ zeroState.occupied = false := ⟨rfl, rfl⟩

/-- A step that goes on, from states that meet the invariants, for each of the lines that change the lifecycle. -/
theorem test_witness_StepKeepsInvariants (a : Action)
    (h : a = .present (encode .construct) ∨ a = .reset ∨ a = .observe .ready) :
    Inv { zeroState with script := [⟨.completion, a⟩] } ∧ ∃ u, step { zeroState with script := [⟨.completion, a⟩] } = .next u := by
  refine ⟨inv_withScript zeroState_inv _, ?_⟩
  rw [step_take (s := { zeroState with script := [⟨.completion, a⟩] }) rfl rfl]
  rcases h with rfl | rfl | rfl
  · obtain ⟨u, h, -⟩ := exists_of_holdsNext (r := act (.present (encode .construct)) { zeroState with script := [] })
      (p := fun _ => true) (by decide +kernel)
    exact ⟨u, h⟩
  · exact ⟨_, rfl⟩
  · exact ⟨_, rfl⟩

theorem test_witness_ConstantTablesNeverWritten : ∃ u, step zeroState = .next u := by
  obtain ⟨u, h, -⟩ := exists_of_holdsNext (r := step zeroState) (p := fun _ => true) (by decide +kernel)
  exact ⟨u, h⟩

theorem test_witness_LifecycleChangesOnlyByThree :
    (∃ u, step { zeroState with script := [presentLine .construct] } = .next u) ∧
      takenInstr { zeroState with script := [presentLine .construct] } = some .construct ∧
      zeroState.fePhase ≠ .accumulating ∧
      takenInstr { zeroState with script := [presentLine .finalize] } = some .finalize ∧
      takenAction { busyAt zeroState 3 with script := [resetNowLine] } = some .reset ∧
      takenInstr { busyAt zeroState 3 with script := [presentLine .finalize] } = none ∧
      takenAction { busyAt zeroState 3 with script := [presentLine .finalize] } = none := by
  obtain ⟨u, h, -⟩ := exists_of_holdsNext (r := step { zeroState with script := [presentLine .construct] })
    (p := fun _ => true) (by decide +kernel)
  exact ⟨⟨u, h⟩, by decide, by decide, by decide, by decide, by decide, by decide⟩

theorem test_witness_LengthCounterNeverWraps :
    ∃ u, step { nearlyFull with script := [presentLine (.updateByte 1)] } = .next u ∧
      u.totalBitLength = 0xfffffffffffffff8 := by
  obtain ⟨u, h, hu⟩ := exists_of_holdsNext (r := step { nearlyFull with script := [presentLine (.updateByte 1)] })
    (p := fun u => u.totalBitLength == 0xfffffffffffffff8) (by decide +kernel)
  exact ⟨u, h, by simpa using hu⟩

theorem test_witness_ChainingStateChangesOnlyBy :
    ∃ u, step { synState with script := [presentLine .init] } = .next u ∧ u.H ≠ synState.H := by
  obtain ⟨u, h, hu⟩ := exists_of_holdsNext (r := step { synState with script := [presentLine .init] })
    (p := fun u => u.H != synState.H) (by decide +kernel)
  exact ⟨u, h, by simpa using hu⟩

/-- Idle with other registers and another counter; busy, in round 20, with another schedule word above the made ones. -/
theorem test_witness_HiddenStateNeverShows :
    SameButHidden zeroState { zeroState with regs := workingOf synState.IV, t := 7 } ∧
      SameButHidden (busyAt zeroState 20) { busyAt zeroState 20 with W := (busyAt zeroState 20).W.set 40 1 } := by
  refine ⟨⟨rfl, rfl, rfl, rfl, rfl, rfl, rfl, rfl, rfl, rfl, rfl, rfl, rfl, by decide, by decide, fun h => by cases h⟩,
    ⟨rfl, rfl, rfl, rfl, rfl, rfl, rfl, rfl, rfl, rfl, rfl, rfl, rfl, fun _ => rfl, fun _ => rfl, fun _ j hj => ?_⟩⟩
  have hj' : j.val < 20 := by simpa [busyAt] using hj
  simp only [Vector.getElem_set]
  rw [if_neg (by omega)]

theorem test_witness_FinalizeEndsTheRun :
    ∃ u, completed (exec .finalize (accumulating zeroState [] 0)) = .next u := by
  obtain ⟨u, h, -⟩ := test_witness_DigestStringForm
  exact ⟨u, h⟩

/-- A `RESET` in the middle of an operation, and `INIT!` and `NEXT!` while the core is busy. -/
theorem test_witness_ScriptLinesWaitForTheLineBefore :
    Inv { midUpdate with script := expandLine .reset } ∧ midUpdate.occupied = true ∧
      ({ midUpdate with script := expandLine .reset } : State).script = expandLine .reset ++ [] ∧
      (∀ bytes, ScriptLine.reset ≠ .nextNow bytes) ∧ ScriptLine.reset ≠ .initNow ∧ 1 ≤ midUpdate.turnsLeft ∧
      (∀ line, line = .initNow ∨ line = .nextNow (letters 64) → Inv { busyAt zeroState 63 with script := expandLine line } ∧
        ({ busyAt zeroState 63 with script := expandLine line } : State).script = expandLine line ++ []) :=
  ⟨inv_withScript midUpdate_inv _, rfl, by simp, by simp, by simp, by decide,
    fun _ _ => ⟨inv_withScript (busyAt_inv 63) _, by simp⟩⟩

/-- No byte, the last byte of a block, one byte more; the longest message, and one byte past it. -/
theorem test_witness_UpdateLineFeedsByteByByte (bytes : List Byte) :
    Inv { nearlyFull with script := expandLine (.update bytes) } ∧ nearlyFull.task = .nothing ∧
      nearlyFull.phase = .idle ∧ nearlyFull.fePhase = .accumulating ∧
      ({ nearlyFull with script := expandLine (.update bytes) } : State).script = expandLine (.update bytes) ++ [] ∧
      nearlyFull.totalBitLength.toNat + 8 * [(0 : Byte)].length < 2 ^ 64 ∧
      2 ^ 64 ≤ nearlyFull.totalBitLength.toNat + 8 * [(0 : Byte), 1].length ∧
      (∀ n, n = 62 ∨ n = 63 → Inv (accumulating zeroState (letters n) (8 * n)) ∧
        (accumulating zeroState (letters n) (8 * n)).totalBitLength.toNat + 8 * [(0 : Byte)].length < 2 ^ 64) ∧
      (Inv zeroState ∧ zeroState.task = .nothing ∧ zeroState.phase = .idle ∧ zeroState.fePhase = .unconstructed) ∧
      (Inv { initialised zeroState with fePhase := .finalized } ∧
        (ScriptLine.updateText ['a']).wf = true ∧ ([0x61] : List Byte).map BitVec.toNat = ['a'].map Char.toNat) := by
  refine ⟨inv_withScript nearlyFull_inv _, rfl, rfl, rfl, by simp, by decide, by decide, fun n h => ⟨?_, ?_⟩,
    ⟨zeroState_inv, rfl, rfl, rfl⟩, ?_, by decide, by decide⟩
  · refine accumulating_inv _ _ _ rfl rfl rfl ?_ ?_ ?_ ?_ <;> simp [letters] <;> omega
  · rcases h with rfl | rfl <;> decide
  · exact ⟨by decide, by decide, by decide, by decide, by decide, by decide, by decide, by decide, by decide, by decide,
      by decide, fun L h => by cases h⟩

/-- While `FINALIZE` waits, while the core is busy, and in the other two phases. -/
theorem test_witness_ScriptLinesWaitForTheLineBefore_empty_update (s : State) (lines : List HostLine) :
    ({ s with script := expandLine (.update []) ++ lines } : State).script = expandLine (.update []) ++ lines ∧
      (FramingTask.construct = .construct ∧ (FramingTask.await .digest).finalizing = true) ∧
      ((busyAt zeroState 63).task ≠ .construct ∧ (busyAt zeroState 63).task.finalizing = false ∧
        (busyAt zeroState 63).phase = .busy ∧ (busyAt zeroState 63).fePhase = .unconstructed ∧
        ({ busyAt zeroState 63 with fePhase := .accumulating } : State).fePhase = .accumulating ∧
        ({ busyAt zeroState 63 with fePhase := .finalized } : State).fePhase = .finalized) ∧
      (midUpdate.task ≠ .construct ∧ midUpdate.task.finalizing = false ∧ midUpdate.fePhase = .accumulating ∧
        midUpdate.occupied = true) ∧
      expandLine (.nextNow (letters 64)) = expandLine (.nextNow (letters 64)) ++ [] ∧
      expandLine .initNow = expandLine .initNow ++ [] :=
  ⟨rfl, by decide, by decide, by decide, by simp, by simp⟩

end Sys2Proof.Machine
end

section
/-! The block port as bytes in message order and as big-endian words (spec/20_memory.md R51, R52). -/

namespace Sys2Proof.Machine

/-- R52: word `t` of the port of 64 bytes has the value of bytes `4t` to `4t + 3`, the first the most significant. -/
theorem blockWord_blockOfBytes_toNat {bytes : List Byte} (h : bytes.length = 64) (t : Nat) (ht : t < 16) :
    (blockWord (blockOfBytes bytes) t).toNat =
      bytes[4 * t].toNat * 2 ^ 24 + bytes[4 * t + 1].toNat * 2 ^ 16 + bytes[4 * t + 2].toNat * 2 ^ 8 +
        bytes[4 * t + 3].toNat := by
  rw [blockWord_eq_be32, be32_toNat, blockByte_blockOfBytes h (4 * t) (by omega),
    blockByte_blockOfBytes h (4 * t + 1) (by omega), blockByte_blockOfBytes h (4 * t + 2) (by omega),
    blockByte_blockOfBytes h (4 * t + 3) (by omega)]

/-- Two sequences of 64 bytes with the same port are equal. -/
theorem blockOfBytes_inj {xs ys : List Byte} (hx : xs.length = 64) (hy : ys.length = 64)
    (h : blockOfBytes xs = blockOfBytes ys) : xs = ys := by
  apply natOfBytes_inj (hx.trans hy.symm)
  rw [← blockOfBytes_toNat hx, h, blockOfBytes_toNat hy]

/-- Settles O5: bytes and words by the laws of the block port, and the one sequence of a block is `blockBytes`. -/
theorem blockPortIsBigEndian : Obligations.BlockPortIsBigEndian := by
  refine ⟨fun bytes hlen => ⟨fun j hj => blockByte_blockOfBytes hlen j hj, fun t ht => ?_⟩, fun block => ?_⟩
  · rw [schedule_getElem_lt16 _ t ht]
    exact ⟨blockWord_eq_slice _ t ht, blockWord_blockOfBytes_toNat hlen t ht⟩
  · refine ⟨blockBytes block, ⟨blockBytes_length block, blockOfBytes_blockBytes block⟩, fun bytes hbytes => ?_⟩
    obtain ⟨hlen, hblock⟩ := hbytes
    exact blockOfBytes_inj hlen (blockBytes_length block) (hblock.trans (blockOfBytes_blockBytes block).symm)

end Sys2Proof.Machine
end

section
/-! The command word: `cmd` alone tells the command (spec/30_encoding.md R73 to R77, R197). -/

namespace Sys2Proof.Machine

/-- R77: what a command word decodes to is a function of `cmd`, and the block is read by `NEXT` only. -/
theorem decode_core_append (cmd : BitVec 2) (block : Block) :
    decode (.core (cmd ++ block)) =
      if cmd = 0b00#2 then .ok .idle
      else if cmd = 0b01#2 then .ok .init
      else if cmd = 0b10#2 then .ok (.next block)
      else .error .reservedCommand := by
  simp only [decode, decodeCore, cmdField_append, blockField_append]

@[simp] theorem decode_core_cmd00 (block : Block) : decode (.core (0b00#2 ++ block)) = .ok .idle :=
  decode_core_append 0b00#2 block

@[simp] theorem decode_core_cmd01 (block : Block) : decode (.core (0b01#2 ++ block)) = .ok .init :=
  decode_core_append 0b01#2 block

@[simp] theorem decode_core_cmd10 (block : Block) : decode (.core (0b10#2 ++ block)) = .ok (.next block) :=
  decode_core_append 0b10#2 block

@[simp] theorem decode_core_cmd11 (block : Block) :
    decode (.core (0b11#2 ++ block)) = .error .reservedCommand :=
  decode_core_append 0b11#2 block

/-- R76, R197: a word that decodes to the reserved command is a fault whatever the state. -/
theorem presentWord_of_reservedCommand {w : PortWord} (h : decode w = .error .reservedCommand) (s : State) :
    presentWord w s = .fault .reservedCommand := by
  simp only [presentWord, h, raise]

/-- Settles O2: one equation per value of `cmd`, and the fault from the decoder's answer to `cmd = 11`. -/
theorem commandWordsDecodeByCmd : Obligations.CommandWordsDecodeByCmd := fun block =>
  ⟨decode_core_cmd00 block, decode_core_cmd01 block, decode_core_cmd10 block, decode_core_cmd11 block,
    presentWord_of_reservedCommand (decode_core_cmd11 block)⟩

end Sys2Proof.Machine
end

section
/-! `UPDATE` inside a block: the answer where the buffer stays short of 64 bytes, and the empty update
(spec/40_framing_update.md R103, R105). -/

namespace Sys2Proof.Machine

@[simp] theorem appendPending_nil (s : State) : s.appendPending [] = s := by
  simp [State.appendPending]

@[simp] theorem countBytes_zero (s : State) : s.countBytes 0 = s := by
  simp [State.countBytes]

theorem setTask_of_task_eq {s : State} {task : FramingTask} (h : s.task = task) : s.setTask task = s := by
  rw [← h, State.setTask]

/-- R103 with no trip of the drain loop: `UPDATE` writes the bytes and the count, and issues no `NEXT`. -/
theorem opUpdate_short {bytes : List Byte} {s : State} (ht : s.task = .nothing) (hf : s.fePhase = .accumulating)
    (ho : s.totalBitLength.toNat + 8 * bytes.length < 2 ^ 64)
    (hl : s.pendingBuffer.length + bytes.length < 64) :
    opUpdate bytes s = .next ((s.appendPending bytes).countBytes bytes.length) := by
  rw [opUpdate, startOperation_nothing _ ht, guardUpdate_accumulating _ _ _ hf ho, feedBytes,
    drain_short (by simpa using hl), setTask_of_task_eq (by simpa using ht)]

/-- Settles O32: no bytes never overflow the counter nor fill a block, so `UPDATE` appends nothing and counts 0. -/
theorem emptyUpdateIsNoOp : Obligations.EmptyUpdateIsNoOp := by
  intro s ht hf hl
  have ho : s.totalBitLength.toNat + 8 * ([] : List Byte).length < 2 ^ 64 := s.totalBitLength.isLt
  rw [opUpdate_short ht hf ho hl, List.length_nil, appendPending_nil, countBytes_zero]

end Sys2Proof.Machine
end

section
/-! The schedule of a block, and its form as a sliding window of sixteen words
(spec/42_core_compression.md R146, R147, R154). -/

namespace Sys2Proof.Machine

theorem blockWord_zero (t : Nat) (ht : t < 16) : blockWord 0 t = 0 := by
  rw [blockWord_eq_slice 0 t ht]
  simp

/-- The recurrence of R147 makes a zero word of four zero words. -/
theorem scheduleWord_eq_zero {W : Words64} {t : Fin 64} (ht : 16 ≤ t.val)
    (h : ∀ j : Nat, (hj : j < t.val) → W[j] = 0) : scheduleWord W t = 0 := by
  rw [scheduleWord, h _ (by omega), h _ (by omega), h _ (by omega), h _ (by omega)]
  decide

theorem schedule_zero_getElem (t : Nat) (ht : t < 64) : (schedule 0)[t] = 0 := by
  induction t using Nat.strong_induction_on with
  | _ t ih =>
    rcases Nat.lt_or_ge t 16 with hlo | hlo
    · rw [schedule_getElem_lt16 0 t hlo, blockWord_zero t hlo]
    · rw [schedule_getElem_ge16 0 ⟨t, ht⟩ hlo]
      exact scheduleWord_eq_zero hlo fun j hj => ih j hj (Nat.lt_trans hj ht)

/-- Settles O14: the block's words, the recurrence entry by entry, and its zeros by strong induction on `t`. -/
theorem scheduleFollowsRecurrence : Obligations.ScheduleFollowsRecurrence := by
  refine ⟨fun block => ⟨fun t ht => ?_, fun t hlo hhi => ?_⟩, schedule_zero_getElem⟩
  · rw [schedule_getElem_lt16 block t ht, blockWord_eq_be32]
  · exact schedule_getElem_ge16 block ⟨t, hhi⟩ hlo

/-- The window at the start of round `n` (R154). -/
def windowTo (block : Block) (n : Nat) : Vector Word 16 :=
  ((List.finRange 64).take n).foldl (fun w t => (windowStep w t).2) (windowLoad block)

/-- The registers and the window after the first `n` rounds over the window (R154). -/
def windowRoundsTo (K : Words64) (block : Block) (r : Working) (n : Nat) : Working × Vector Word 16 :=
  ((List.finRange 64).take n).foldl
    (fun p t => (round p.1 K[t.val] (windowStep p.2 t).1, (windowStep p.2 t).2)) (r, windowLoad block)

@[simp] theorem windowTo_zero (block : Block) : windowTo block 0 = windowLoad block := rfl

theorem windowTo_succ (block : Block) (n : Nat) (hn : n < 64) :
    windowTo block (n + 1) = (windowStep (windowTo block n) ⟨n, hn⟩).2 := by
  simp [windowTo, take_finRange_succ n hn]

@[simp] theorem windowRoundsTo_zero (K : Words64) (block : Block) (r : Working) :
    windowRoundsTo K block r 0 = (r, windowLoad block) := rfl

theorem windowRoundsTo_succ (K : Words64) (block : Block) (r : Working) (n : Nat) (hn : n < 64) :
    windowRoundsTo K block r (n + 1) =
      (round (windowRoundsTo K block r n).1 K[n] (windowStep (windowRoundsTo K block r n).2 ⟨n, hn⟩).1,
        (windowStep (windowRoundsTo K block r n).2 ⟨n, hn⟩).2) := by
  simp [windowRoundsTo, take_finRange_succ n hn]

theorem runRoundsWindow_eq_windowRoundsTo (K : Words64) (block : Block) (r : Working) :
    runRoundsWindow K block r = (windowRoundsTo K block r 64).1 := by
  simp only [runRoundsWindow, windowRoundsTo, take_finRange_all]

theorem windowStep_lt16 (w : Vector Word 16) (t : Fin 64) (ht : t.val < 16) : windowStep w t = (w[t.val], w) := by
  simp only [windowStep, ht, dite_true]

theorem windowStep_ge16 (w : Vector Word 16) (t : Fin 64) (ht : 16 ≤ t.val) :
    windowStep w t = (windowNew w, windowShift w (windowNew w)) := by
  simp only [windowStep, Nat.not_lt.2 ht, dite_false]

theorem windowShift_getElem_lt (w : Vector Word 16) (new : Word) (i : Nat) (hi : i < 15) :
    (windowShift w new)[i] = w[i + 1] := by
  simp [windowShift, hi]

theorem windowShift_getElem_last (w : Vector Word 16) (new : Word) : (windowShift w new)[15] = new := by
  simp [windowShift]

/-- R154: at the start of round `n` the window holds the sixteen schedule words before `W[n]`, and up to round 16 the
first sixteen, for there `n - 16` is 0 in `Nat`. -/
def WindowHolds (W : Words64) (n : Nat) (hn : n ≤ 64) (w : Vector Word 16) : Prop :=
  ∀ i : Nat, (hi : i < 16) → w[i] = W[n - 16 + i]

/-- The window's new word is the schedule's: its taps 14, 9, 1 and 0 are `t - 2`, `t - 7`, `t - 15` and `t - 16`. -/
theorem windowNew_eq_scheduleWord {W : Words64} {w : Vector Word 16} {t : Fin 64} (ht : 16 ≤ t.val)
    (h : WindowHolds W t.val t.isLt.le w) : windowNew w = scheduleWord W t := by
  rw [windowNew, scheduleWord, h 14 (by omega), h 9 (by omega), h 1 (by omega), h 0 (by omega)]
  simp only [show t.val - 16 + 14 = t.val - 2 by omega, show t.val - 16 + 9 = t.val - 7 by omega,
    show t.val - 16 + 1 = t.val - 15 by omega, Nat.add_zero]

/-- The word that round `t` uses is entry `t` of the schedule. -/
theorem windowStep_fst_of_windowHolds {block : Block} {w : Vector Word 16} {t : Fin 64}
    (h : WindowHolds (schedule block) t.val t.isLt.le w) : (windowStep w t).1 = (schedule block)[t.val] := by
  rcases Nat.lt_or_ge t.val 16 with ht | ht
  · rw [windowStep_lt16 w t ht, h t.val ht]
    simp only [show t.val - 16 + t.val = t.val by omega]
  · rw [windowStep_ge16 w t ht, schedule_getElem_ge16 block t ht]
    exact windowNew_eq_scheduleWord ht h

/-- One round moves the window on to the next round. -/
theorem windowStep_keeps_windowHolds {block : Block} {w : Vector Word 16} {t : Fin 64}
    (h : WindowHolds (schedule block) t.val t.isLt.le w) :
    WindowHolds (schedule block) (t.val + 1) t.isLt (windowStep w t).2 := by
  intro i hi
  rcases Nat.lt_or_ge t.val 16 with ht | ht
  · rw [windowStep_lt16 w t ht, h i hi]
    simp only [show t.val - 16 + i = t.val + 1 - 16 + i by omega]
  · by_cases hlast : i < 15
    · rw [windowStep_ge16 w t ht, windowShift_getElem_lt w _ i hlast, h (i + 1) (by omega)]
      simp only [show t.val - 16 + (i + 1) = t.val + 1 - 16 + i by omega]
    · obtain rfl : i = 15 := by omega
      have hnew := windowStep_fst_of_windowHolds h
      rw [windowStep_ge16 w t ht] at hnew ⊢
      simp only [windowShift_getElem_last, show t.val + 1 - 16 + 15 = t.val by omega]
      exact hnew

theorem windowTo_holds (block : Block) (n : Nat) (hn : n ≤ 64) :
    WindowHolds (schedule block) n hn (windowTo block n) := by
  induction n with
  | zero =>
    intro i hi
    simp [windowLoad, schedule_getElem_lt16 block i hi]
  | succ n ih =>
    rw [windowTo_succ block n hn]
    exact windowStep_keeps_windowHolds (t := ⟨n, hn⟩) (ih (Nat.le_of_lt hn))

/-- Rounds over the window are rounds over the schedule, and the window goes on by itself. -/
theorem windowRoundsTo_eq (K : Words64) (block : Block) (r : Working) (n : Nat) (hn : n ≤ 64) :
    windowRoundsTo K block r n = (roundsTo K (schedule block) r n, windowTo block n) := by
  induction n with
  | zero => rfl
  | succ n ih =>
    have hword := windowStep_fst_of_windowHolds (t := ⟨n, hn⟩) (windowTo_holds block n (Nat.le_of_lt hn))
    rw [windowRoundsTo_succ K block r n hn, ih (Nat.le_of_lt hn), hword, ← windowTo_succ block n hn,
      roundsTo_succ K _ r n hn]

/-- Settles O15: by the invariant `WindowHolds`, kept by every round. -/
theorem slidingWindowAgrees : Obligations.SlidingWindowAgrees := by
  refine ⟨fun K block r => ?_, fun block t i _ hhi hi => windowTo_holds block t hhi i hi⟩
  rw [runRoundsWindow_eq_windowRoundsTo, windowRoundsTo_eq K block r 64 (Nat.le_refl _), runRounds_eq_roundsTo]

end Sys2Proof.Machine
end

section
/-! One round of a busy core, and `Compress` as its rounds (spec/42_core_compression.md R145, R149, R151, R153). -/

namespace Sys2Proof.Machine

/-- R153 ROUND: the entry made in round `t >= 16` is the recurrence's word. -/
theorem scheduleStep_getElem_self (W : Words64) (t : Fin 64) (ht : 16 ≤ t.val) :
    (scheduleStep W t)[t.val] = scheduleWord W t := by
  simp [scheduleStep_getElem, ht]

/-- R153: the turn of a busy core with rounds left is `ROUND`. -/
theorem turn_round {s : State} (hb : s.phase = .busy) (ht : s.t.val < 64) :
    s.turn = .next (s.roundStep ⟨s.t.val, ht⟩) := by
  rw [turn_busy hb, coreStep_round s ht]

/-- Settles O16: the turn is `ROUND`, whose schedule is `scheduleStep`'s. -/
theorem busyCoreRunsOneRound : Obligations.BusyCoreRunsOneRound := by
  intro s ht hb
  refine ⟨scheduleStep s.W ⟨s.t.val, ht⟩, Fin.succ ⟨s.t.val, ht⟩, rfl, fun j hj hkept => ?_, fun hlo => ?_,
    turn_round hb ht⟩
  · rw [scheduleStep_getElem]
    exact if_neg (by dsimp only; omega)
  · exact scheduleStep_getElem_self s.W ⟨s.t.val, ht⟩ hlo

/-- R150: a sequence of register values that follows the rounds is `roundsTo`. -/
theorem eq_roundsTo_of_rounds {K W : Words64} {v : Nat → Working}
    (h : ∀ t : Nat, (ht : t < 64) → v (t + 1) = round (v t) K[t] W[t]) (n : Nat) (hn : n ≤ 64) :
    v n = roundsTo K W (v 0) n := by
  induction n with
  | zero => rfl
  | succ n ih => rw [h n hn, ih (Nat.le_of_lt hn), roundsTo_succ K W _ n hn]

/-- R151, word by word. -/
theorem feedForward_eq (H : Words8) (r : Working) :
    feedForward H r =
      #v[add32 [H[0], r.a], add32 [H[1], r.b], add32 [H[2], r.c], add32 [H[3], r.d],
        add32 [H[4], r.e], add32 [H[5], r.f], add32 [H[6], r.g], add32 [H[7], r.h]] := by
  apply Vector.ext
  intro i hi
  rw [feedForward_getElem]
  interval_cases i <;> rfl

/-- Settles O19: `v 64` is what the 64 rounds leave, and the feed-forward adds it word by word. -/
theorem compressRunsSixtyFourRounds : Obligations.CompressRunsSixtyFourRounds := by
  intro Hin block K v hstart hround
  have hend : v 64 = runRounds K (schedule block) (workingOf Hin) := by
    rw [eq_roundsTo_of_rounds hround 64 (Nat.le_refl _), hstart, runRounds_eq_roundsTo, workingOf]
  rw [compress, ← hend, feedForward_eq]

end Sys2Proof.Machine
end

section
/-! `INIT` (spec/42_core_compression.md R142, R195). -/

namespace Sys2Proof.Machine

/-- R142: an idle core outside every framing operation takes `INIT`. -/
theorem execInit_idle {s : State} (hp : s.phase = .idle) (ht : s.task = .nothing) :
    exec .init s = .next s.loadIV.flagsOfInit := by
  rw [execInit_free ht, sampleInit_idle hp]

/-- What `INIT` writes does not depend on what was there before. -/
theorem loadIV_flagsOfInit_idem (s : State) :
    s.loadIV.flagsOfInit.loadIV.flagsOfInit = s.loadIV.flagsOfInit := rfl

/-- Settles O21: the second `INIT` meets an idle core again and writes the same. -/
theorem initLoadsInitialVector : Obligations.InitLoadsInitialVector := by
  intro s
  refine ⟨fun hp ht => ⟨execInit_idle hp ht, ?_⟩, fun hb => ?_⟩
  · have hagain : exec .init s.loadIV.flagsOfInit = .next s.loadIV.flagsOfInit := by
      rw [execInit_idle (s := s.loadIV.flagsOfInit) hp ht, loadIV_flagsOfInit_idem]
    rw [execInit_idle hp ht, andThen_next, hagain]
  · rw [execInit_busy hb, sampleInit_busy hb]

end Sys2Proof.Machine
end

section
/-! Rotation and shift, bit by bit (spec/43_mixing_primitives.md R171, R172), and the four sigma functions made of them
(R175 to R178). -/

namespace Sys2Proof.Machine

/-- Within a word, `rotr` is the library's rotation. -/
theorem rotr_eq_rotateRight (x : Word) {n : Nat} (hn : n < 32) : rotr x n = x.rotateRight n :=
  (BitVec.rotateRight_eq_rotateRightAux_of_lt hn).symm

/-- R171: bit `i` of `rotr(x, n)` is bit `(i + n) mod 32` of `x`. -/
theorem rotr_getLsbD (x : Word) {n i : Nat} (hn : n < 32) (hi : i < 32) :
    (rotr x n).getLsbD i = x.getLsbD ((i + n) % 32) := by
  rw [rotr_eq_rotateRight x hn, BitVec.getLsbD_rotateRight, Nat.mod_eq_of_lt hn]
  rcases Nat.lt_or_ge i (32 - n) with hlow | hwrap
  · rw [decide_eq_true hlow, cond_true, Nat.add_comm, Nat.mod_eq_of_lt (by omega)]
  · rw [decide_eq_false (by omega), cond_false, decide_eq_true hi, Bool.true_and,
      show (i + n) % 32 = i - (32 - n) by omega]

/-- R171: the two parts of the formula do not meet above bit 31. -/
theorem rotr_toNat (x : Word) (n : Nat) :
    (rotr x n).toNat = ((x.toNat >>> n) ||| (x.toNat <<< (32 - n))) % 2 ^ 32 := by
  have hshr : (x >>> n).toNat < 2 ^ 32 := (x >>> n).isLt
  rw [BitVec.toNat_ushiftRight] at hshr
  rw [rotr, BitVec.toNat_or, BitVec.toNat_ushiftRight, BitVec.toNat_shiftLeft, Nat.or_mod_two_pow,
    Nat.mod_eq_of_lt hshr]

/-- R171: rotating on by the rest of the word is the identity. -/
theorem rotr_rotr_cancel (x : Word) {n : Nat} (hlo : 1 ≤ n) (hhi : n < 32) : rotr (rotr x n) (32 - n) = x := by
  apply BitVec.eq_of_getLsbD_eq
  intro i hi
  rw [rotr_getLsbD _ (by omega) hi, rotr_getLsbD _ hhi (Nat.mod_lt _ (by decide)),
    show ((i + (32 - n)) % 32 + n) % 32 = i by omega]

/-- The bit positions moved on by `n` are the bit positions, rotated. -/
theorem map_add_mod_range (n : Nat) : (List.range 32).map (fun i => (i + n) % 32) = (List.range 32).rotate n := by
  apply List.ext_getElem
  · simp
  · intro i h1 h2
    simp [List.getElem_rotate]

/-- R171: no bit is lost. -/
theorem rotr_countP (x : Word) {n : Nat} (hn : n < 32) :
    (List.range 32).countP (rotr x n).getLsbD = (List.range 32).countP x.getLsbD := by
  calc (List.range 32).countP (rotr x n).getLsbD
      = (List.range 32).countP (x.getLsbD ∘ fun i => (i + n) % 32) :=
        List.countP_congr fun i hi => by rw [rotr_getLsbD x hn (List.mem_range.mp hi), Function.comp_apply]
    _ = ((List.range 32).rotate n).countP x.getLsbD := by rw [← List.countP_map, map_add_mod_range]
    _ = (List.range 32).countP x.getLsbD := (List.rotate_perm _ n).countP_eq _

/-- Settles O7: the bit map of `rotr` gives the inverse and, the positions being permuted, the count of one bits. -/
theorem rotrMovesEveryBit : Obligations.RotrMovesEveryBit := by
  intro x n hlo hhi
  have hn : n < 32 := Nat.lt_succ_of_le hhi
  exact ⟨rotr_toNat x n, fun i hi => rotr_getLsbD x hn hi, rotr_rotr_cancel x hlo hn, rotr_countP x hn⟩

/-- Settles O8: a shift of a number is its floor division. -/
theorem shrIsFloorDivision : Obligations.ShrIsFloorDivision := by
  intro x n
  rw [shr, BitVec.toNat_ushiftRight, Nat.shiftRight_eq_div_pow]

/-- R172: zeros enter at the top. -/
theorem shr_getLsbD (x : Word) (n i : Nat) : (shr x n).getLsbD i = (decide (i + n < 32) && x.getLsbD (i + n)) := by
  rw [shr, BitVec.getLsbD_ushiftRight, Nat.add_comm]
  rcases Nat.lt_or_ge (i + n) 32 with hin | hout
  · rw [decide_eq_true hin, Bool.true_and]
  · rw [BitVec.getLsbD_of_ge _ _ hout, Bool.and_false]

theorem rotr_xor (x y : Word) {n : Nat} (hn : n < 32) : rotr (x ^^^ y) n = rotr x n ^^^ rotr y n := by
  apply BitVec.eq_of_getLsbD_eq
  intro i hi
  simp only [BitVec.getLsbD_xor, rotr_getLsbD _ hn hi]

theorem shr_xor (x y : Word) (n : Nat) : shr (x ^^^ y) n = shr x n ^^^ shr y n :=
  BitVec.ushiftRight_xor_distrib x y n

/-- The shape the four sigma functions share: two rotated copies and a third, XORed bit by bit. -/
theorem rotr_xor_rotr_xor_getLsbD (x u : Word) {m n i : Nat} (hm : m < 32) (hn : n < 32) (hi : i < 32) :
    (rotr x m ^^^ rotr x n ^^^ u).getLsbD i =
      ((x.getLsbD ((i + m) % 32) ^^ x.getLsbD ((i + n) % 32)) ^^ u.getLsbD i) := by
  rw [BitVec.getLsbD_xor, BitVec.getLsbD_xor, rotr_getLsbD x hm hi, rotr_getLsbD x hn hi]

/-- That shape is linear over XOR where its third copy is. -/
theorem rotr_xor_rotr_xor_linear {f : Word → Word} {x y : Word} (hf : f (x ^^^ y) = f x ^^^ f y) {m n : Nat}
    (hm : m < 32) (hn : n < 32) :
    rotr (x ^^^ y) m ^^^ rotr (x ^^^ y) n ^^^ f (x ^^^ y) =
      (rotr x m ^^^ rotr x n ^^^ f x) ^^^ (rotr y m ^^^ rotr y n ^^^ f y) := by
  rw [rotr_xor x y hm, rotr_xor x y hn, hf]
  ac_rfl

theorem bigSigma0_getLsbD (x : Word) {i : Nat} (hi : i < 32) :
    (bigSigma0 x).getLsbD i =
      ((x.getLsbD ((i + 17) % 32) ^^ x.getLsbD ((i + 23) % 32)) ^^ x.getLsbD ((i + 30) % 32)) := by
  rw [bigSigma0, rotr_xor_rotr_xor_getLsbD _ _ (by decide) (by decide) hi, rotr_getLsbD x (by decide) hi]

theorem bigSigma1_getLsbD (x : Word) {i : Nat} (hi : i < 32) :
    (bigSigma1 x).getLsbD i =
      ((x.getLsbD ((i + 3) % 32) ^^ x.getLsbD ((i + 19) % 32)) ^^ x.getLsbD ((i + 28) % 32)) := by
  rw [bigSigma1, rotr_xor_rotr_xor_getLsbD _ _ (by decide) (by decide) hi, rotr_getLsbD x (by decide) hi]

theorem smallSigma0_getLsbD (x : Word) {i : Nat} (hi : i < 32) :
    (smallSigma0 x).getLsbD i =
      ((x.getLsbD ((i + 11) % 32) ^^ x.getLsbD ((i + 24) % 32)) ^^ (decide (i + 3 < 32) && x.getLsbD (i + 3))) := by
  rw [smallSigma0, rotr_xor_rotr_xor_getLsbD _ _ (by decide) (by decide) hi, shr_getLsbD]

theorem smallSigma1_getLsbD (x : Word) {i : Nat} (hi : i < 32) :
    (smallSigma1 x).getLsbD i =
      ((x.getLsbD ((i + 29) % 32) ^^ x.getLsbD ((i + 31) % 32)) ^^ (decide (i + 10 < 32) && x.getLsbD (i + 10))) := by
  rw [smallSigma1, rotr_xor_rotr_xor_getLsbD _ _ (by decide) (by decide) hi, shr_getLsbD]

theorem bigSigma0_xor (x y : Word) : bigSigma0 (x ^^^ y) = bigSigma0 x ^^^ bigSigma0 y :=
  rotr_xor_rotr_xor_linear (f := (rotr · 30)) (rotr_xor x y (by decide)) (by decide) (by decide)

theorem bigSigma1_xor (x y : Word) : bigSigma1 (x ^^^ y) = bigSigma1 x ^^^ bigSigma1 y :=
  rotr_xor_rotr_xor_linear (f := (rotr · 28)) (rotr_xor x y (by decide)) (by decide) (by decide)

theorem smallSigma0_xor (x y : Word) : smallSigma0 (x ^^^ y) = smallSigma0 x ^^^ smallSigma0 y :=
  rotr_xor_rotr_xor_linear (f := (shr · 3)) (shr_xor x y 3) (by decide) (by decide)

theorem smallSigma1_xor (x y : Word) : smallSigma1 (x ^^^ y) = smallSigma1 x ^^^ smallSigma1 y :=
  rotr_xor_rotr_xor_linear (f := (shr · 10)) (shr_xor x y 10) (by decide) (by decide)

/-- Settles O11: each function bit by bit and its linearity, from the bit maps of `rotr` and `shr`. -/
theorem sigmasXorTheirRotations : Obligations.SigmasXorTheirRotations :=
  ⟨fun x _ hi => ⟨bigSigma0_getLsbD x hi, bigSigma1_getLsbD x hi, smallSigma0_getLsbD x hi, smallSigma1_getLsbD x hi⟩,
    fun x y => ⟨bigSigma0_xor x y, bigSigma1_xor x y, smallSigma0_xor x y, smallSigma1_xor x y⟩⟩

end Sys2Proof.Machine
end

section
/-! `Ch` and `Maj` as multiplexers (spec/43_mixing_primitives.md R173, R174). -/

namespace Sys2Proof.Machine

theorem zero_getLsbD (i : Nat) : (0 : Word).getLsbD i = false := BitVec.getLsbD_zero

theorem ones_getLsbD {i : Nat} (hi : i < 32) : (0xffffffff : Word).getLsbD i = true :=
  (BitVec.getLsbD_allOnes (v := 32)).trans (decide_eq_true hi)

/-- R173: a bit of `z` selects the bit of `x` or of `y`. -/
theorem ch_getLsbD (x y z : Word) {i : Nat} (hi : i < 32) :
    (ch x y z).getLsbD i = if z.getLsbD i then x.getLsbD i else y.getLsbD i := by
  simp only [ch, BitVec.getLsbD_or, BitVec.getLsbD_and, BitVec.getLsbD_not, hi]
  cases z.getLsbD i
  · simp
  · simp

/-- R174: a bit of `x` selects the bit of `z` or of `y`. -/
theorem maj_getLsbD (x y z : Word) {i : Nat} (hi : i < 32) :
    (maj x y z).getLsbD i = if x.getLsbD i then z.getLsbD i else y.getLsbD i := by
  simp only [maj, BitVec.getLsbD_or, BitVec.getLsbD_and, BitVec.getLsbD_not, hi]
  cases x.getLsbD i
  · cases y.getLsbD i
    · simp
    · simp
  · cases z.getLsbD i
    · simp
    · simp

/-- R174: of the three parts of `Maj`, `z AND y` is covered by the other two. -/
theorem maj_eq_ch (x y z : Word) : maj x y z = ch z y x := by
  apply BitVec.eq_of_getLsbD_eq
  intro i hi
  rw [maj_getLsbD x y z hi, ch_getLsbD z y x hi]

/-- R173: the two parts of `Ch` have no one bit in common. -/
theorem ch_parts_disjoint (x y z : Word) : (x &&& z) &&& (y &&& ~~~z) = 0 := by
  apply BitVec.eq_of_getLsbD_eq
  intro i _
  simp only [BitVec.getLsbD_and, BitVec.getLsbD_not, zero_getLsbD]
  cases z.getLsbD i
  · simp
  · simp

theorem or_eq_xor_of_and_eq_zero {x y : Word} (h : x &&& y = 0) : x ||| y = x ^^^ y := by
  apply BitVec.eq_of_getLsbD_eq
  intro i _
  have hbit := congrArg (BitVec.getLsbD · i) h
  simp only [BitVec.getLsbD_and, zero_getLsbD] at hbit
  rw [BitVec.getLsbD_or, BitVec.getLsbD_xor]
  cases hx : x.getLsbD i
  · simp
  · rw [hx, Bool.true_and] at hbit
    rw [hbit]
    rfl

theorem add32_pair (x y : Word) : add32 [x, y] = x + y := by
  simp [add32]

theorem ch_zero (x y : Word) : ch x y 0 = y := by
  apply BitVec.eq_of_getLsbD_eq
  intro i hi
  rw [ch_getLsbD x y 0 hi, zero_getLsbD, if_neg Bool.false_ne_true]

theorem ch_ones (x y : Word) : ch x y 0xffffffff = x := by
  apply BitVec.eq_of_getLsbD_eq
  intro i hi
  rw [ch_getLsbD x y _ hi, ones_getLsbD hi, if_pos rfl]

theorem ch_self (x z : Word) : ch x x z = x := by
  apply BitVec.eq_of_getLsbD_eq
  intro i hi
  rw [ch_getLsbD x x z hi, ite_self]

/-- Settles O9: `Ch` bit by bit; its two parts are disjoint, so OR, XOR and addition agree on them. -/
theorem chSelectsByThirdArgument : Obligations.ChSelectsByThirdArgument := by
  intro x y z
  have hdisj := ch_parts_disjoint x y z
  refine ⟨fun i hi => ch_getLsbD x y z hi, or_eq_xor_of_and_eq_zero hdisj, ?_, ch_zero x y, ch_ones x y,
    ch_self x z, ch_self 0 z⟩
  rw [add32_pair, BitVec.add_eq_or_of_and_eq_zero _ _ hdisj, ch]

/-- Settles O10: `Maj` is `Ch` with the arguments turned round; the arguments 0, all ones, 0 tell it from the majority
function at every bit and do not allow the first two to be exchanged. -/
theorem majSelectsByFirstArgument : Obligations.MajSelectsByFirstArgument := by
  refine ⟨fun x y z => ⟨fun i hi => maj_getLsbD x y z hi, ?_, ?_, ?_, ?_⟩, fun i hi => ⟨0, 0xffffffff, 0, ?_, ?_⟩⟩
  · rw [maj_eq_ch, ch, BitVec.and_comm z x, BitVec.and_comm y]
  · rw [maj_eq_ch, ch_zero]
  · rw [maj_eq_ch, ch_ones]
  · rw [maj_eq_ch, ch_self]
  · have hmajority : (0 : Word) &&& 0xffffffff ^^^ 0 &&& 0 ^^^ 0xffffffff &&& 0 = 0 := by decide
    rw [hmajority, maj_eq_ch, ch_zero, ones_getLsbD hi, zero_getLsbD]
    decide
  · rw [maj_eq_ch, maj_eq_ch, ch_zero, ch_ones]
    decide

end Sys2Proof.Machine
end

section
/-! Words, the length field and digits as bytes and characters (spec/43_mixing_primitives.md R179 to R181). -/

namespace Sys2Proof.Machine

/-- Read big-endian, the first `n` of the `m` bytes of a bit vector, the most significant first, are its top `8n` bits. -/
theorem natOfBytes_slices {m : Nat} (v : BitVec (8 * m)) (n : Nat) (hn : n ≤ m) :
    natOfBytes ((List.range n).map fun k => v.extractLsb' (8 * (m - 1) - 8 * k) 8) = v.toNat / 2 ^ (8 * (m - n)) := by
  induction n with
  | zero => simp [Nat.div_eq_of_lt v.isLt]
  | succ n ih =>
    rw [List.range_succ, List.map_append, List.map_singleton, natOfBytes_concat, ih (by omega), extractLsb'_toNat_div,
      show 8 * (m - 1) - 8 * n = 8 * (m - (n + 1)) by omega, show 8 * (m - n) = 8 * (m - (n + 1)) + 8 by omega,
      pow_add, ← Nat.div_div_eq_div_mul]
    generalize v.toNat / 2 ^ (8 * (m - (n + 1))) = top
    omega

/-- R180, read back. -/
theorem natOfBytes_be64bytes (v : BitVec 64) : natOfBytes (be64bytes v) = v.toNat :=
  (natOfBytes_slices (m := 8) v 8 (Nat.le_refl 8)).trans (Nat.div_one _)

/-- The four bytes of a word, the most significant first. -/
def wordBytes (w : Word) : List Byte := (List.range 4).map fun k => w.extractLsb' (24 - 8 * k) 8

theorem natOfBytes_wordBytes (w : Word) : natOfBytes (wordBytes w) = w.toNat :=
  (natOfBytes_slices (m := 4) w 4 (Nat.le_refl 4)).trans (Nat.div_one _)

@[simp] theorem wordBytes_length (w : Word) : (wordBytes w).length = 4 := by simp [wordBytes]

theorem be32_wordBytes (w : Word) : be32 (wordBytes w) = w := by
  rw [be32, natOfBytes_wordBytes, BitVec.ofNat_toNat, BitVec.setWidth_eq]

theorem be32_toNat_of_length {bytes : List Byte} (h : bytes.length = 4) : (be32 bytes).toNat = natOfBytes bytes := by
  have hlt := natOfBytes_lt bytes
  rw [h] at hlt
  rw [be32, BitVec.toNat_ofNat, Nat.mod_eq_of_lt hlt]

/-- R179: `be32` tells two lists of four bytes apart. -/
theorem be32_inj {xs ys : List Byte} (hx : xs.length = 4) (hy : ys.length = 4) (h : be32 xs = be32 ys) : xs = ys := by
  apply natOfBytes_inj (hx.trans hy.symm)
  rw [← be32_toNat_of_length hx, h, be32_toNat_of_length hy]

/-- R180: byte `k` is a slice of `v`. -/
theorem be64bytes_getElem? (v : BitVec 64) (k : Nat) (hk : k < 8) :
    (be64bytes v)[k]? = some (v.extractLsb' (56 - 8 * k) 8) := by
  simp [be64bytes, hk]

/-- Settles O12: the list of four bytes of a word is `wordBytes`, unique by `be32_inj`. -/
theorem byteConversionsAreBigEndian : Obligations.ByteConversionsAreBigEndian := by
  refine ⟨be32_toNat, fun w => ⟨wordBytes w, ⟨wordBytes_length w, be32_wordBytes w⟩, fun bytes hbytes => ?_⟩,
    fun v => ⟨be64bytes_length v, be64bytes_getElem? v, natOfBytes_be64bytes v⟩⟩
  obtain ⟨hlen, hword⟩ := hbytes
  exact be32_inj hlen (wordBytes_length w) (hword.trans (be32_wordBytes w).symm)

/-- R181: the digit of four bits stands at their value in the alphabet. -/
theorem hexAlphabet_getElem?_toNat (v : BitVec 4) : hexAlphabet[v.toNat]? = some (hexDigit v) := by
  have hv : v.toNat < hexAlphabet.length := v.isLt
  rw [hexDigit, List.getD_eq_getElem _ _ hv, List.getElem?_eq_getElem hv]

/-- R181: the bits `w[31-4k : 28-4k]` are hexadecimal digit `7 - k` of the number. -/
theorem nibble_toNat (w : Word) (k : Nat) (hk : k < 8) :
    (w.extractLsb' (28 - 4 * k) 4).toNat = w.toNat / 16 ^ (7 - k) % 16 := by
  rw [extractLsb'_toNat_div, show 28 - 4 * k = 4 * (7 - k) by omega, pow_mul]
  norm_num

/-- Settles O13: character `k` is the digit of four bits of the word, which are a hexadecimal digit of its value. -/
theorem hexEightDigits : Obligations.HexEightDigits := by
  refine fun w => ⟨hex8_length w, fun k hk => ?_⟩
  rw [hex8_getElem? w k hk, ← hexAlphabet_getElem?_toNat, nibble_toNat w k hk, hexAlphabet]

end Sys2Proof.Machine
end

section
/-! When the core takes a command and when it faults: `NEXT` on an idle core, both commands on a busy one
(spec/42_core_compression.md R143, R153; spec/60_exceptions.md R195, R196, R201). -/

namespace Sys2Proof.Machine

/-- R195: a busy core does not take `INIT`, not even inside a framing operation. -/
theorem execInit_busy_fault {s : State} (hb : s.phase = .busy) :
    exec .init s = .fault (.coreBusyViolation .init) := by
  rw [execInit_busy hb, sampleInit_busy hb]

/-- R195, R201: a busy core does not take `NEXT`; whether an `INIT` has been accepted is not asked. -/
theorem execNext_busy_fault (block : Block) {s : State} (hb : s.phase = .busy) :
    exec (.next block) s = .fault (.coreBusyViolation .next) := by
  rw [execNext_busy block hb, sampleNext_busy block hb]

/-- R196: with no `INIT` accepted since reset there is no chaining state to go on from. -/
theorem execNext_uninitialised (block : Block) {s : State} (hp : s.phase = .idle) (ht : s.task = .nothing)
    (hi : s.initSinceReset = false) : exec (.next block) s = .fault .coreUninitialised := by
  rw [execNext_free block ht, sampleNext_uninitialised block hp hi]

/-- R143: an idle core with a chaining state, outside every framing operation, takes `NEXT`. -/
theorem execNext_accepted (block : Block) {s : State} (hp : s.phase = .idle) (ht : s.task = .nothing)
    (hi : s.initSinceReset = true) : exec (.next block) s = .next (s.acceptNext block) := by
  rw [execNext_free block ht, sampleNext_idle block hp hi]

/-- R51, R146: the load makes the first sixteen entries from the block, as slices of the port. -/
theorem loadSchedule_getElem_lt16 (block : Block) (W : Words64) (t : Nat) (ht : t < 16) :
    (loadSchedule block W)[t] = block.extractLsb' (480 - 32 * t) 32 := by
  rw [loadSchedule_getElem, if_pos ht, blockWord_eq_slice block t ht]

theorem loadSchedule_getElem_ge16 (block : Block) (W : Words64) (t : Nat) (hlo : 16 ≤ t) (hhi : t < 64) :
    (loadSchedule block W)[t] = W[t] := by
  rw [loadSchedule_getElem, if_neg (Nat.not_lt.2 hlo)]

/-- Settles O22: `sampleNext` has one answer for each case, and an accepted `NEXT` writes the load as the schedule. -/
theorem nextAcceptance : Obligations.NextAcceptance := fun s block =>
  ⟨execNext_busy_fault block, execNext_uninitialised block, fun hp ht hi =>
    ⟨loadSchedule block s.W, loadSchedule_getElem_lt16 block s.W, loadSchedule_getElem_ge16 block s.W,
      execNext_accepted block hp ht hi⟩⟩

/-- A word that decodes is its instruction, and after `IDLE` the machine's turn (R140, R141). -/
theorem presentWord_of_decode {w : PortWord} {i : Instr} (h : decode w = .ok i) (s : State) :
    presentWord w s = andThen (exec i s) fun u => u.afterCommand i := by
  simp only [presentWord, h]

/-- A word of any command but `IDLE` answers what the command answers. -/
theorem presentWord_of_decode_ne_idle {w : PortWord} {i : Instr} (h : decode w = .ok i) (hi : i ≠ .idle) (s : State) :
    presentWord w s = exec i s := by
  rw [presentWord_of_decode h, andThen_afterCommand hi]

/-- R73, R141: whatever its block bits, a word with `cmd = 00` leaves the machine its turn. -/
theorem presentWord_cmd00 (block : Block) (s : State) : presentWord (.core (0b00#2 ++ block)) s = s.turn :=
  presentWord_of_decode (decode_core_cmd00 block) s

/-- Settles O23: `cmd` alone tells the command; a busy core faults on the two commands it cannot take, and under `IDLE`
it takes its own step. -/
theorem busyCommandsFault : Obligations.BusyCommandsFault := by
  intro s block hb
  refine ⟨?_, ?_, s.coreStep, ?_⟩
  · rw [presentWord_of_decode_ne_idle (decode_core_cmd01 block) (by simp), execInit_busy_fault hb]
  · rw [presentWord_of_decode_ne_idle (decode_core_cmd10 block) (by simp), execNext_busy_fault block hb]
  · rw [presentWord_cmd00, turn_busy hb]

end Sys2Proof.Machine
end

section
/-! The operation word, the words written out as numbers, and that no bit of an operand is lost by the encoding
(spec/30_encoding.md R70 to R78). -/

namespace Sys2Proof.Machine

/-- R77, R78: what an operation word decodes to is a function of `fop`, and the byte is read by `UPDATE_BYTE` only. -/
theorem decode_framing_append (fop : BitVec 2) (b : Byte) :
    decode (.framing (fop ++ b)) =
      if fop = 0b00#2 then .error .nothingPresented
      else if fop = 0b01#2 then .ok .construct
      else if fop = 0b10#2 then .ok (.updateByte b)
      else .ok .finalize := by
  simp only [decode, decodeFraming, fopField_append, byteField_append]

@[simp] theorem decode_framing_fop00 (b : Byte) : decode (.framing (0b00#2 ++ b)) = .error .nothingPresented :=
  decode_framing_append 0b00#2 b

@[simp] theorem decode_framing_fop01 (b : Byte) : decode (.framing (0b01#2 ++ b)) = .ok .construct :=
  decode_framing_append 0b01#2 b

@[simp] theorem decode_framing_fop10 (b : Byte) : decode (.framing (0b10#2 ++ b)) = .ok (.updateByte b) :=
  decode_framing_append 0b10#2 b

@[simp] theorem decode_framing_fop11 (b : Byte) : decode (.framing (0b11#2 ++ b)) = .ok .finalize :=
  decode_framing_append 0b11#2 b

/-- The decoder reads back what the encoder writes: one equation of the decoder for each instruction. -/
@[simp] theorem decode_encode (i : Instr) : decode (encode i) = .ok i := by
  cases i with
  | idle => exact decode_core_cmd00 0
  | init => exact decode_core_cmd01 0
  | next block => exact decode_core_cmd10 block
  | construct => exact decode_framing_fop01 0
  | updateByte b => exact decode_framing_fop10 b
  | finalize => exact decode_framing_fop11 0

/-- Settles O1: every operand value is well-formed, so `decode_encode` is the whole of it. -/
theorem decodeEncodeRoundTrip : Obligations.DecodeEncodeRoundTrip := fun i _ => decode_encode i

/-- R78: `fop = 00` is no operation: the machine takes its turn. -/
theorem presentWord_of_nothingPresented {w : PortWord} (h : decode w = .error .nothingPresented) (s : State) :
    presentWord w s = s.turn := by
  simp only [presentWord, h]

/-- Settles O3: one equation per value of `fop`, and an unoccupied machine's turn changes nothing. -/
theorem operationWordsDecodeByFop : Obligations.OperationWordsDecodeByFop := fun b =>
  ⟨decode_framing_fop00 b, decode_framing_fop01 b, decode_framing_fop10 b, decode_framing_fop11 b, fun s =>
    ⟨presentWord_of_nothingPresented (decode_framing_fop00 b) s, turn_unoccupied⟩⟩

/-- Settles O4: ten fixed words, decoded by evaluation. -/
theorem sampleWordsDecode : Obligations.SampleWordsDecode := by
  unfold Obligations.SampleWordsDecode
  decide +kernel

/-- A table word that decodes is a word of one of the two ports that decodes to the same instruction. -/
theorem decodeTableWord_eq_some {nbits w : Nat} {i : Instr} (h : decodeTableWord nbits w = some i) :
    ∃ p, portWordOfTable nbits w = some p ∧ decode p = .ok i := by
  unfold decodeTableWord at h
  split at h
  · cases h
  · rename_i p hp
    split at h
    · rename_i j hj
      exact ⟨p, hp, hj.trans (congrArg _ (Option.some.inj h))⟩
    · cases h

theorem exec_idle (s : State) : exec .idle s = .next s := rfl

/-- A step that takes an instruction's word runs the instruction; after `IDLE` the machine's turn follows. -/
theorem step_take_instr {s : State} {wait : Wait} {w : PortWord} {rest : List HostLine} {i : Instr}
    (h : s.script = ⟨wait, .present w⟩ :: rest) (hw : s.waitsFor wait = false) (hd : decode w = .ok i) :
    step s = andThen (exec i { s with script := rest }) fun u => u.afterCommand i := by
  rw [step_take h hw, act, presentWord_of_decode hd]

theorem step_take_instr_ne_idle {s : State} {wait : Wait} {w : PortWord} {rest : List HostLine} {i : Instr}
    (h : s.script = ⟨wait, .present w⟩ :: rest) (hw : s.waitsFor wait = false) (hd : decode w = .ok i)
    (hi : i ≠ .idle) : step s = exec i { s with script := rest } := by
  rw [step_take_instr h hw hd, andThen_afterCommand hi]

theorem step_take_idle {s : State} {wait : Wait} {w : PortWord} {rest : List HostLine}
    (h : s.script = ⟨wait, .present w⟩ :: rest) (hw : s.waitsFor wait = false) (hd : decode w = .ok .idle) :
    step s = State.turn { s with script := rest } :=
  step_take_instr h hw hd

/-- Settles O47: the line taken is the decoded instruction's. -/
theorem stepRunsDecodedInstruction : Obligations.StepRunsDecodedInstruction := by
  intro s wait w rest i hs hw hd
  refine ⟨step_take_instr_ne_idle hs hw hd, fun hi => ?_⟩
  subst hi
  exact step_take_idle hs hw hd

/-- Settles O48: the placed word is the next line, it does not wait, and taking it gives back the script as it was. -/
theorem placedWordRunsNext : Obligations.PlacedWordRunsNext := by
  intro s nbits w i h
  obtain ⟨p, hp, hd⟩ := decodeTableWord_eq_some h
  have hs : (s.withFetchWord nbits w).script = ⟨.no, .present p⟩ :: s.script := by
    simp only [State.withFetchWord, placeTableWord, hp]
  have hback : { s.withFetchWord nbits w with script := s.script } = s := by
    simp only [State.withFetchWord, placeTableWord, hp]
  refine ⟨fun hi => ?_, fun hi => ?_⟩
  · rw [step_take_instr_ne_idle hs rfl hd hi, hback]
  · subst hi
    rw [step_take_idle hs rfl hd, hback]

/-- Settles O20: `IDLE` answers the state it is given, and under an `IDLE` line the machine takes its turn. -/
theorem idleDoesNothing : Obligations.IdleDoesNothing :=
  ⟨exec_idle, fun _ _ _ block hs hw => step_take_idle hs hw (decode_core_cmd00 block)⟩

/-- Settles O49: while the host waits, and when it has no line left, a step is the machine's turn. -/
theorem hostWaitsWhileBusy : Obligations.HostWaitsWhileBusy := fun _ =>
  ⟨fun _ _ hs ho => step_wait hs (occupied_eq_true.2 ho), step_nil, turn_busy, turn_unoccupied⟩

/-- Settles O50: the action of a second driver is refused. -/
theorem secondDriverRefused : Obligations.SecondDriverRefused := fun _ _ _ _ hs hw => step_take hs hw

end Sys2Proof.Machine
end

section
/-! The framing operations up to their first wait, one equation for each case (spec/40_framing_update.md R102, R103;
spec/41_framing_finalize.md R122 to R126). -/

namespace Sys2Proof.Machine

theorem execUpdateByte_free {s : State} (b : Byte) (ht : s.task = .nothing) :
    exec (.updateByte b) s = guardUpdate .updateByte 1 (feedByte b) s :=
  startOperation_nothing _ ht

theorem execFinalize_free {s : State} (ht : s.task = .nothing) :
    exec .finalize s = guardPhase .finalize finalize s :=
  startOperation_nothing _ ht

theorem execConstruct_free {s : State} (ht : s.task = .nothing) : exec .construct s = construct s :=
  startOperation_nothing _ ht

/-- The bytes of an update, and their count (R103). -/
def State.fed (s : State) (bytes : List Byte) : State := (s.appendPending bytes).countBytes bytes.length

@[simp] theorem fed_phase (s : State) (bytes : List Byte) : (s.fed bytes).phase = s.phase := rfl
@[simp] theorem fed_initSinceReset (s : State) (bytes : List Byte) :
    (s.fed bytes).initSinceReset = s.initSinceReset := rfl
@[simp] theorem fed_pendingBuffer (s : State) (bytes : List Byte) :
    (s.fed bytes).pendingBuffer = s.pendingBuffer ++ bytes := rfl
@[simp] theorem fed_totalBitLength (s : State) (bytes : List Byte) :
    (s.fed bytes).totalBitLength = s.totalBitLength + BitVec.ofNat 64 (8 * bytes.length) := rfl
@[simp] theorem fed_fePhase (s : State) (bytes : List Byte) : (s.fed bytes).fePhase = s.fePhase := rfl
@[simp] theorem fed_task (s : State) (bytes : List Byte) : (s.fed bytes).task = s.task := rfl
@[simp] theorem fed_script (s : State) (bytes : List Byte) : (s.fed bytes).script = s.script := rfl

theorem opUpdate_accumulating {s : State} (bytes : List Byte) (ht : s.task = .nothing) (hf : s.fePhase = .accumulating)
    (ho : s.totalBitLength.toNat + 8 * bytes.length < 2 ^ 64) : opUpdate bytes s = drain (s.fed bytes) := by
  rw [opUpdate, startOperation_nothing _ ht, guardUpdate_accumulating _ _ _ hf ho]
  rfl

/-- A byte that does not fill a block is appended and counted, and that is all (R102). -/
theorem feedByte_short {s : State} (b : Byte) (hl : s.pendingBuffer.length ≠ 63) :
    feedByte b s = .next (s.fed [b]) := by
  rw [feedByte, if_neg (by simp; omega)]
  rfl

/-- The byte that fills a block hands the block over (R102). -/
theorem feedByte_block {s : State} (b : Byte) (hl : s.pendingBuffer.length = 63) :
    feedByte b s = compressStep (blockOfBytes (s.pendingBuffer ++ [b])) .drain (s.fed [b]).clearPending := by
  have hfront : ((s.appendPending [b]).countBytes 1).frontBlock = s.pendingBuffer ++ [b] :=
    List.take_of_length_le (by simp [hl])
  rw [feedByte, if_pos (by simp [hl]), hfront]
  rfl

/-- Below the limit `UPDATE_BYTE` with less than a block held is `UPDATE` of the one byte (R104). -/
theorem execUpdateByte_eq_opUpdate {s : State} (b : Byte) (ht : s.task = .nothing) (hf : s.fePhase = .accumulating)
    (ho : s.totalBitLength.toNat + 8 < 2 ^ 64) (hl : s.pendingBuffer.length < 64) :
    exec (.updateByte b) s = opUpdate [b] s := by
  rw [execUpdateByte_free b ht, guardUpdate_accumulating _ _ _ hf ho, feedByte_eq_feedBytes b ht hl,
    opUpdate_accumulating [b] ht hf ho]
  rfl

/-- So it answers a next state only where the update answers it. -/
theorem opUpdate_of_execUpdateByte {b : Byte} {s u : State} (hl : s.pendingBuffer.length < 64)
    (h : exec (.updateByte b) s = .next u) : opUpdate [b] s = .next u := by
  obtain ⟨ht, hf, ho, -⟩ := execUpdateByte_next h
  rwa [← execUpdateByte_eq_opUpdate b ht hf ho hl]

/-- `FINALIZE` with room for the length in the block (R122, R124 to R126). -/
theorem finalize_one {s : State} (hl : s.pendingBuffer.length ≤ 55) :
    finalize s = padLastBlock s.totalBitLength (padByte s) := by
  rw [finalize, if_neg (by simp; omega)]

/-- `FINALIZE` without it: zeros to the end of the block first (R123). -/
theorem finalize_two {s : State} (hl : 56 ≤ s.pendingBuffer.length) :
    finalize s = compressBuffer (.padSecond s.totalBitLength) (padBlock (padByte s)) := by
  rw [finalize, if_pos (by simp; omega)]

/-- Whoever has presented a block, or waits to, has a busy core before it (R109). -/
theorem compressStep_leaves_busy {block : Block} {after : AfterBlock} {s u : State}
    (h : compressStep block after s = .next u) : u.phase = .busy := by
  obtain ⟨hb, rfl⟩ | ⟨-, -, rfl⟩ := compressStep_next h
  · exact hb
  · rfl

theorem execFinalize_leaves_busy {s u : State} (h : exec .finalize s = .next u) : u.phase = .busy := by
  obtain ⟨ht, hf, -⟩ := execFinalize_next h
  rw [execFinalize_free ht, guardPhase_accumulating _ _ hf] at h
  by_cases hl : s.pendingBuffer.length ≤ 55
  · rw [finalize_one hl] at h
    exact compressStep_leaves_busy h
  · rw [finalize_two (by omega)] at h
    exact compressStep_leaves_busy h

end Sys2Proof.Machine
end

section
/-! Every step keeps the invariants: one lemma for each thing a step can do, the operations of the framing layer through
what they ask of a block they hand over (spec/10_state.md sections 4 and 8; spec/40_framing_update.md section 4). -/

namespace Sys2Proof.Machine

@[simp] theorem finalizing_nothing : FramingTask.finalizing .nothing = false := rfl

@[simp] theorem after_nothing : FramingTask.after .nothing = none := rfl

/-- An operation that waits for a block is `FINALIZE` unless it is to drain. -/
theorem finalizing_of_after {task : FramingTask} {after : AfterBlock} (h : task.after = some after) :
    task.finalizing = true ↔ after ≠ .drain := by
  cases after <;> simp [FramingTask.finalizing, h]

theorem task_ne_nothing_of_after {task : FramingTask} {after : AfterBlock} (h : task.after = some after) :
    task ≠ .nothing := by
  rintro rfl
  cases h

/-- Below the limit, a buffer that is as long as the count says, modulo 64, still is with `n` bytes more (R106). -/
theorem pending_total_count {p L n : Nat} (h : p % 64 = L / 8 % 64) : (p + n) % 64 = (L + 8 * n) / 8 % 64 := by omega

/-- What the invariants say of the flags and phase of the core. -/
structure CoreInv (s : State) : Prop where
  ready_iff : s.ready = true ↔ s.phase = .idle
  digestValid_iff : s.digestValid = true ↔ s.phase = .idle ∧ s.initSinceReset = true
  busy_init : s.phase = .busy → s.initSinceReset = true

theorem Inv.core {s : State} (h : Inv s) : CoreInv s := ⟨h.ready_iff, h.digestValid_iff, h.busy_init⟩

theorem coreInv_acceptNext {s : State} (block : Block) (hi : s.initSinceReset = true) :
    CoreInv (s.acceptNext block) :=
  ⟨by simp, by simp, fun _ => hi⟩

theorem coreInv_setTask {s : State} (h : CoreInv s) (task : FramingTask) : CoreInv (s.setTask task) :=
  ⟨h.ready_iff, h.digestValid_iff, h.busy_init⟩

theorem coreInv_compressStep {block : Block} {after : AfterBlock} {s u : State} (hc : CoreInv s)
    (h : compressStep block after s = .next u) : CoreInv u := by
  obtain ⟨-, rfl⟩ | ⟨-, hi, rfl⟩ := compressStep_next h
  · exact coreInv_setTask hc _
  · exact coreInv_setTask (coreInv_acceptNext block hi) _

/-- What a framing operation has to leave in the framing layer when it hands over a block, to go on with `after`. -/
structure WaitInv (after : AfterBlock) (s : State) : Prop where
  total_dvd : 8 ∣ s.totalBitLength.toNat
  accumulating : s.fePhase = .accumulating
  constructed_init : s.initSinceReset = true
  pending_total : after = .drain → s.pendingBuffer.length % 64 = s.totalBitLength.toNat / 8 % 64
  finalizing_length : after ≠ .drain → s.pendingBuffer.length = 64
  original_length : ∀ L, after = .padSecond L → L = s.totalBitLength

/-- An operation that waits for its block meets the invariants. -/
theorem inv_of_waitInv {after : AfterBlock} {s : State} (hc : CoreInv s) (hw : WaitInv after s)
    (ht : s.task.after = some after) : Inv s where
  ready_iff := hc.ready_iff
  digestValid_iff := hc.digestValid_iff
  busy_init := hc.busy_init
  pending_lt h := absurd h (task_ne_nothing_of_after ht)
  total_dvd := hw.total_dvd
  pending_total _ h := hw.pending_total <| by
    by_contra hne
    rw [(finalizing_of_after ht).2 hne] at h
    cases h
  pending_nil h := absurd hw.accumulating h
  total_zero h := by
    rw [hw.accumulating] at h
    cases h
  constructed_init _ := hw.constructed_init
  task_phase _ := hw.accumulating
  finalizing_length h := hw.finalizing_length ((finalizing_of_after ht).1 h)
  original_length L h := hw.original_length L (by rwa [ht, Option.some.injEq] at h)

/-- A block handed over, its `NEXT` accepted or still to come (R109). -/
theorem inv_compressStep {block : Block} {after : AfterBlock} {s u : State} (hc : CoreInv s) (hw : WaitInv after s)
    (h : compressStep block after s = .next u) : Inv u := by
  obtain ⟨-, -, hL, hf, hi, hb, -, ht⟩ := compressStep_frame h
  refine inv_of_waitInv (coreInv_compressStep hc h) ⟨?_, ?_, ?_, ?_, ?_, ?_⟩ ht
  · exact hL ▸ hw.total_dvd
  · exact hf ▸ hw.accumulating
  · exact hi ▸ hw.constructed_init
  · exact hL ▸ hb ▸ hw.pending_total
  · exact hb ▸ hw.finalizing_length
  · exact hL ▸ hw.original_length

/-- What the invariants give of an operation that waits for its block. -/
theorem Inv.waitInv {after : AfterBlock} {s : State} (h : Inv s) (ht : s.task.after = some after) : WaitInv after s where
  total_dvd := h.total_dvd
  accumulating := h.task_phase (by simp [ht])
  constructed_init := h.constructed_init (by simp [h.task_phase (by simp [ht])])
  pending_total hd := h.pending_total (h.task_phase (by simp [ht])) <| by
    subst hd
    simp [FramingTask.finalizing, ht]
  finalizing_length hd := h.finalizing_length ((finalizing_of_after ht).2 hd)
  original_length L hL := h.original_length L (hL ▸ ht)

/-- An engine that accumulates, with no operation in progress and less than a block held. -/
theorem inv_of_short {s : State} (hc : CoreInv s) (ht : s.task = .nothing) (hl : s.pendingBuffer.length < 64)
    (hw : WaitInv .drain s) : Inv s where
  ready_iff := hc.ready_iff
  digestValid_iff := hc.digestValid_iff
  busy_init := hc.busy_init
  pending_lt _ := hl
  total_dvd := hw.total_dvd
  pending_total _ _ := hw.pending_total rfl
  pending_nil h := absurd hw.accumulating h
  total_zero h := by
    rw [hw.accumulating] at h
    cases h
  constructed_init _ := hw.constructed_init
  task_phase _ := hw.accumulating
  finalizing_length h := by simp [ht] at h
  original_length L h := by simp [ht] at h

/-- What the invariants give of an engine that accumulates, with no operation in progress. -/
theorem Inv.waitInv_nothing {s : State} (h : Inv s) (ht : s.task = .nothing) (hf : s.fePhase = .accumulating) :
    WaitInv .drain s where
  total_dvd := h.total_dvd
  accumulating := hf
  constructed_init := h.constructed_init (by simp [hf])
  pending_total _ := h.pending_total hf (by simp [ht])
  finalizing_length hd := absurd rfl hd
  original_length L hL := by cases hL

/-- The bytes of an update, and their count, below the limit (R103). -/
theorem waitInv_feed {s : State} {bytes : List Byte} (hw : WaitInv .drain s)
    (ho : s.totalBitLength.toNat + 8 * bytes.length < 2 ^ 64) :
    WaitInv .drain (s.fed bytes) where
  total_dvd := by
    have := hw.total_dvd
    rw [fed_totalBitLength, countBytes_toNat ho]
    omega
  accumulating := hw.accumulating
  constructed_init := hw.constructed_init
  pending_total _ := by
    rw [fed_totalBitLength, countBytes_toNat ho, fed_pendingBuffer, List.length_append]
    exact pending_total_count (hw.pending_total rfl)
  finalizing_length hd := absurd rfl hd
  original_length L hL := by cases hL

theorem waitInv_dropFrontBlock {s : State} (hw : WaitInv .drain s) (hl : 64 ≤ s.pendingBuffer.length) :
    WaitInv .drain s.dropFrontBlock where
  total_dvd := hw.total_dvd
  accumulating := hw.accumulating
  constructed_init := hw.constructed_init
  pending_total h := by
    have := hw.pending_total h
    rw [State.dropFrontBlock_pendingBuffer, State.dropFrontBlock_totalBitLength, List.length_drop]
    omega
  finalizing_length hd := absurd rfl hd
  original_length L hL := by cases hL

/-- The drain loop up to its next wait (R103). -/
theorem inv_drain {s u : State} (hc : CoreInv s) (hw : WaitInv .drain s) (h : drain s = .next u) : Inv u := by
  by_cases hl : s.pendingBuffer.length < 64
  · rw [drain_short hl] at h
    injection h with h
    subst h
    exact inv_of_short (coreInv_setTask hc _) rfl hl
      ⟨hw.total_dvd, hw.accumulating, hw.constructed_init, hw.pending_total, hw.finalizing_length, hw.original_length⟩
  · rw [drain_long (by omega)] at h
    exact inv_compressStep (s := s.dropFrontBlock) ⟨hc.ready_iff, hc.digestValid_iff, hc.busy_init⟩
      (waitInv_dropFrontBlock hw (by omega)) h

/-- `UPDATE` up to its first wait (R103). -/
theorem inv_opUpdate {bytes : List Byte} {s u : State} (h : Inv s) (hu : opUpdate bytes s = .next u) : Inv u := by
  obtain ⟨ht, hf, ho, he, -⟩ := opUpdate_next hu
  exact inv_drain (s := s.fed bytes)
    ⟨h.ready_iff, h.digestValid_iff, h.busy_init⟩ (waitInv_feed (h.waitInv_nothing ht hf) ho) he

theorem inv_updateByte {b : Byte} {s u : State} (h : Inv s) (hu : exec (.updateByte b) s = .next u) : Inv u :=
  inv_opUpdate h (opUpdate_of_execUpdateByte (h.pending_lt (execUpdateByte_next hu).1) hu)

/-- A whole padding block handed over (R123, R126). -/
theorem inv_compressBuffer {after : AfterBlock} {s u : State} (hc : CoreInv s) (hd : 8 ∣ s.totalBitLength.toNat)
    (hf : s.fePhase = .accumulating) (hi : s.initSinceReset = true) (hl : s.pendingBuffer.length = 64)
    (ha : after = .digest ∨ after = .padSecond s.totalBitLength) (h : compressBuffer after s = .next u) : Inv u := by
  refine inv_compressStep hc ⟨hd, hf, hi, fun e => ?_, fun _ => hl, fun L e => ?_⟩ h
  · rcases ha with rfl | rfl <;> cases e
  · rcases ha with rfl | rfl <;> cases e
    rfl

theorem padBlock_length {s : State} (h : s.pendingBuffer.length ≤ 64) : (padBlock s).pendingBuffer.length = 64 := by
  simp
  omega

theorem padLength_length (L : BitVec 64) {s : State} (h : s.pendingBuffer.length ≤ 56) :
    (padLength L s).pendingBuffer.length = 64 := by
  simp
  omega

/-- The last padding block handed over (R124 to R126). -/
theorem inv_padLastBlock {s u : State} (L : BitVec 64) (hc : CoreInv s) (hd : 8 ∣ s.totalBitLength.toNat)
    (hf : s.fePhase = .accumulating) (hi : s.initSinceReset = true) (hl : s.pendingBuffer.length ≤ 56)
    (h : padLastBlock L s = .next u) : Inv u :=
  inv_compressBuffer (s := padLength L s) ⟨hc.ready_iff, hc.digestValid_iff, hc.busy_init⟩ hd hf hi
    (padLength_length L hl) (.inl rfl) h

/-- `FINALIZE` up to its first wait (R120). -/
theorem inv_finalize {s u : State} (h : Inv s) (hu : exec .finalize s = .next u) : Inv u := by
  obtain ⟨ht, hf, -⟩ := execFinalize_next hu
  have hlt := h.pending_lt ht
  have hi := h.constructed_init (by simp [hf])
  rw [execFinalize_free ht, guardPhase_accumulating _ _ hf] at hu
  by_cases hl : s.pendingBuffer.length ≤ 55
  · rw [finalize_one hl] at hu
    exact inv_padLastBlock (s := padByte s) s.totalBitLength ⟨h.ready_iff, h.digestValid_iff, h.busy_init⟩ h.total_dvd
      hf hi (by simp; omega) hu
  · rw [finalize_two (by omega)] at hu
    exact inv_compressBuffer (s := padBlock (padByte s)) ⟨h.ready_iff, h.digestValid_iff, h.busy_init⟩ h.total_dvd hf
      hi (padBlock_length (by simp; omega)) (.inr rfl) hu

/-- A fresh engine (R101). -/
theorem inv_constructed {s : State} (h : Inv s) (hp : s.phase = .idle) : Inv s.constructed :=
  inv_of_short ⟨h.ready_iff, by simp [hp], by simp⟩ rfl (by simp)
    ⟨by simp, rfl, rfl, fun _ => by simp, fun hd => absurd rfl hd, fun _ hL => by cases hL⟩

/-- Writes of the core alone: what the framing layer holds is as before, and so is whether `H` holds a value, unless it
does now. -/
theorem inv_of_coreWrite {s u : State} (h : Inv s) (hc : CoreInv u)
    (hi : s.initSinceReset = true → u.initSinceReset = true) (hb : u.pendingBuffer = s.pendingBuffer)
    (hL : u.totalBitLength = s.totalBitLength) (hf : u.fePhase = s.fePhase) (ht : u.task = s.task) : Inv u where
  ready_iff := hc.ready_iff
  digestValid_iff := hc.digestValid_iff
  busy_init := hc.busy_init
  pending_lt := by rw [ht, hb]; exact h.pending_lt
  total_dvd := by rw [hL]; exact h.total_dvd
  pending_total := by rw [hf, ht, hb, hL]; exact h.pending_total
  pending_nil := by rw [hf, hb]; exact h.pending_nil
  total_zero := by rw [hf, hL]; exact h.total_zero
  constructed_init := by rw [hf]; exact fun hne => hi (h.constructed_init hne)
  task_phase := by rw [ht, hf]; exact h.task_phase
  finalizing_length := by rw [ht, hb]; exact h.finalizing_length
  original_length := by rw [ht, hL]; exact h.original_length

theorem inv_coreStep {s : State} (h : Inv s) (hb : s.phase = .busy) : Inv s.coreStep := by
  have hi := h.busy_init hb
  have hc : CoreInv s.coreStep := by
    obtain ⟨_, e⟩ | ⟨_, e⟩ := coreStep_cases s <;> rw [e]
    · exact ⟨h.ready_iff, h.digestValid_iff, h.busy_init⟩
    · exact ⟨by simp, by simp [hi], by simp⟩
  exact inv_of_coreWrite h hc (by simp) (by simp) (by simp) (by simp) (by simp)

/-- `CONSTRUCT` begins its wait (R101). -/
theorem inv_setTask_construct {s : State} (h : Inv s) (ht : s.task = .nothing) : Inv (s.setTask .construct) where
  ready_iff := h.ready_iff
  digestValid_iff := h.digestValid_iff
  busy_init := h.busy_init
  pending_lt e := by cases e
  total_dvd := h.total_dvd
  pending_total hf _ := h.pending_total hf (by simp [ht])
  pending_nil := h.pending_nil
  total_zero := h.total_zero
  constructed_init := h.constructed_init
  task_phase e := absurd rfl e
  finalizing_length e := by cases e
  original_length _ e := by cases e

/-- The end of `FINALIZE` (R128). -/
theorem inv_returnDigest {s : State} (h : Inv s) (ht : s.task = .await .digest) : Inv (returnDigest s) where
  ready_iff := h.ready_iff
  digestValid_iff := h.digestValid_iff
  busy_init := h.busy_init
  pending_lt _ := by simp
  total_dvd := h.total_dvd
  pending_total e := by cases e
  pending_nil _ := rfl
  total_zero e := by cases e
  constructed_init _ := (h.waitInv (after := .digest) (by rw [ht]; rfl)).constructed_init
  task_phase e := absurd rfl e
  finalizing_length e := by cases e
  original_length _ e := by cases e

theorem inv_record {s : State} (h : Inv s) (o : Observation) : Inv (s.record o) :=
  inv_of_coreWrite h ⟨h.ready_iff, h.digestValid_iff, h.busy_init⟩ id rfl rfl rfl rfl

/-- The reset event (R220): nothing of what was before is left. -/
theorem inv_resetEvent (s : State) : Inv s.resetEvent where
  ready_iff := by simp
  digestValid_iff := by simp
  busy_init := by simp
  pending_lt _ := by simp
  total_dvd := by simp
  pending_total e := by cases e
  pending_nil _ := rfl
  total_zero _ := rfl
  constructed_init e := absurd rfl e
  task_phase e := absurd rfl e
  finalizing_length e := by cases e
  original_length _ e := by cases e

/-- The turn of the machine keeps the invariants: the core's step, or the operation in progress up to its next wait. -/
theorem inv_turn {s u : State} (h : Inv s) (hu : s.turn = .next u) : Inv u := by
  obtain ⟨hb, rfl⟩ | ⟨-, -, rfl⟩ | ⟨hp, -, rfl⟩ | ⟨block, after, -, ht, he⟩ | ⟨-, ht, he⟩ | ⟨L, -, ht, he⟩ |
    ⟨-, ht, rfl⟩ := turn_next_cases hu
  · exact inv_coreStep h hb
  · exact h
  · exact inv_constructed h hp
  · exact inv_compressStep h.core (h.waitInv (by rw [ht]; rfl)) he
  · exact inv_drain h.core (h.waitInv (by rw [ht]; rfl)) he
  · have hw := h.waitInv (after := .padSecond L) (by rw [ht]; rfl)
    exact inv_padLastBlock (s := s.clearPending) L ⟨h.ready_iff, h.digestValid_iff, h.busy_init⟩ hw.total_dvd
      hw.accumulating hw.constructed_init (by simp) he
  · exact inv_returnDigest h ht

/-- Every instruction keeps the invariants. -/
theorem inv_exec {i : Instr} {s u : State} (h : Inv s) (hu : exec i s = .next u) : Inv u := by
  cases i with
  | idle =>
    cases hu
    exact h
  | init =>
    obtain ⟨hp, -, rfl⟩ := execInit_next hu
    exact inv_of_coreWrite h ⟨h.ready_iff, by simp [hp], by simp⟩ (by simp) rfl rfl rfl rfl
  | next block =>
    obtain ⟨-, -, hi, rfl⟩ := execNext_next hu
    exact inv_of_coreWrite h (coreInv_acceptNext block hi) id rfl rfl rfl rfl
  | construct =>
    obtain ⟨ht, ⟨hp, rfl⟩ | ⟨-, rfl⟩⟩ := execConstruct_next hu
    · exact inv_constructed h hp
    · exact inv_setTask_construct h ht
  | updateByte b => exact inv_updateByte h hu
  | finalize => exact inv_finalize h hu

/-- Settles O51: a step is a turn, or one line's action on the state with the line taken, and each keeps them. -/
theorem stepKeepsInvariants : Obligations.StepKeepsInvariants := by
  intro s u h hu
  obtain ⟨-, he⟩ | ⟨rest, hcase⟩ := step_next_cases hu
  · exact inv_turn h he
  · have h' := inv_withScript h rest
    obtain ⟨-, rfl⟩ | ⟨w, i, v, -, -, he, ha⟩ | ⟨w, -, -, he⟩ | ⟨bytes, -, he⟩ | ⟨n, -, rfl⟩ | ⟨sig, o, -, rfl⟩ := hcase
    · exact inv_resetEvent _
    · have hv := inv_exec h' he
      unfold State.afterCommand at ha
      split at ha
      · exact inv_turn hv ha
      · cases ha
        exact hv
    · exact inv_turn h' he
    · exact inv_opUpdate h' he
    · exact h'
    · exact inv_record h' o

/-- Settles O52: the state after reset is one that the reset event leaves. -/
theorem resetMeetsInvariants : Obligations.ResetMeetsInvariants := inv_resetEvent State.reset

end Sys2Proof.Machine
end

section
/-! Hidden state never shows: every function of the machine answers alike on states that agree on everything but hidden
state (spec/10_state.md section 9, R36). -/

namespace Sys2Proof.Machine

theorem sameButHidden_refl (s : State) : SameButHidden s s :=
  ⟨rfl, rfl, rfl, rfl, rfl, rfl, rfl, rfl, rfl, rfl, rfl, rfl, rfl, fun _ => rfl, fun _ => rfl, fun _ _ _ => rfl⟩

/-- `f` answers alike on states that agree on everything but hidden state. -/
def HidesState (f : State → Result) : Prop := ∀ s s' : State, SameButHidden s s' → sameOutcome (f s) (f s')

/-! ### The updates of the state -/

section updates
variable {s s' : State} (h : SameButHidden s s')
include h

theorem SameButHidden.withScript (lines : List HostLine) :
    SameButHidden { s with script := lines } { s' with script := lines } :=
  { h with script := rfl }

theorem SameButHidden.appendPending (bytes : List Byte) :
    SameButHidden (s.appendPending bytes) (s'.appendPending bytes) :=
  { h with pendingBuffer := congrArg (· ++ bytes) h.pendingBuffer }

theorem SameButHidden.dropFrontBlock : SameButHidden s.dropFrontBlock s'.dropFrontBlock :=
  { h with pendingBuffer := congrArg (List.drop 64) h.pendingBuffer }

theorem SameButHidden.clearPending : SameButHidden s.clearPending s'.clearPending :=
  { h with pendingBuffer := rfl }

theorem SameButHidden.countBytes (n : Nat) : SameButHidden (s.countBytes n) (s'.countBytes n) :=
  { h with totalBitLength := congrArg (· + BitVec.ofNat 64 (8 * n)) h.totalBitLength }

theorem SameButHidden.setTask (task : FramingTask) : SameButHidden (s.setTask task) (s'.setTask task) :=
  { h with task := rfl }

theorem SameButHidden.record (o : Observation) : SameButHidden (s.record o) (s'.record o) :=
  { h with observed := congrArg (· ++ [o]) h.observed }

theorem SameButHidden.returnDigest : SameButHidden (returnDigest s) (Machine.returnDigest s') :=
  { h with
    pendingBuffer := rfl, fePhase := rfl, task := rfl
    observed := by rw [returnDigest_observed, returnDigest_observed, h.observed, h.H] }

theorem SameButHidden.resetEvent : SameButHidden s.resetEvent s'.resetEvent :=
  { sameButHidden_refl s.resetEvent with IV := h.IV, K := h.K, script := h.script, observed := h.observed }

theorem SameButHidden.loadIV_flagsOfInit : SameButHidden s.loadIV.flagsOfInit s'.loadIV.flagsOfInit :=
  { h with H := h.IV, initSinceReset := rfl, digestValid := rfl }

theorem SameButHidden.constructed : SameButHidden s.constructed s'.constructed :=
  { h.loadIV_flagsOfInit with pendingBuffer := rfl, totalBitLength := rfl, fePhase := rfl, task := rfl }

/-- Acceptance of a `NEXT` overwrites all that it will use of `a..h`, `t` and `W`. -/
theorem SameButHidden.acceptNext (block : Block) : SameButHidden (s.acceptNext block) (s'.acceptNext block) :=
  { h with
    phase := rfl, ready := rfl, digestValid := rfl
    busy_regs := fun _ => congrArg workingOf h.H
    busy_t := fun _ => rfl
    busy_W := fun _ j hj => by
      have hj16 : j.val < 16 := by simpa using hj
      simp only [State.acceptNext_W, loadSchedule_getElem, if_pos hj16] }

/-- The schedule word that a busy core makes next depends on words already made. -/
theorem SameButHidden.scheduleStep (hb : s.phase = .busy) (t : Fin 64) (ht : t.val = s.t.val) (j : Nat)
    (hj : j < 64) (hlt : j < max 16 (s.t.val + 1)) :
    (Machine.scheduleStep s'.W t)[j] = (Machine.scheduleStep s.W t)[j] := by
  have hW : ∀ i : Nat, (hi : i < 64) → i < max 16 s.t.val → s'.W[i] = s.W[i] := fun i hi hm => h.busy_W hb ⟨i, hi⟩ hm
  rw [scheduleStep_getElem, scheduleStep_getElem]
  split
  · exact scheduleWord_congr _ _ _ (by omega) fun i hi => hW i (by omega) (by omega)
  · exact hW j hj (by omega)

theorem SameButHidden.roundStep (hb : s.phase = .busy) (t : Fin 64) (ht : t.val = s.t.val) :
    SameButHidden (s.roundStep t) (s'.roundStep t) :=
  { h with
    busy_regs := fun _ => by
      have hw := h.scheduleStep hb t ht t.val t.isLt (by omega)
      rw [State.roundStep_regs, State.roundStep_regs, h.busy_regs hb, h.K, hw]
    busy_t := fun _ => rfl
    busy_W := fun _ j hj => h.scheduleStep hb t ht j.val j.isLt (by simpa [ht] using hj) }

theorem SameButHidden.finishStep (hb : s.phase = .busy) : SameButHidden s.finishStep s'.finishStep :=
  { h with
    H := by rw [State.finishStep_H, State.finishStep_H, h.H, h.busy_regs hb]
    phase := rfl, ready := rfl, digestValid := rfl
    busy_regs := fun e => (by cases e)
    busy_t := fun e => (by cases e)
    busy_W := fun e => (by cases e) }

theorem SameButHidden.coreStep (hb : s.phase = .busy) : SameButHidden s.coreStep s'.coreStep := by
  have ht := h.busy_t hb
  obtain ⟨hl, e⟩ | ⟨hl, e⟩ := coreStep_cases s
  · rw [e, coreStep_round s' (by rw [ht]; exact hl)]
    simp only [ht]
    exact h.roundStep hb _ rfl
  · rw [e, coreStep_finish s' (by rw [ht]; exact hl)]
    exact h.finishStep hb

theorem SameButHidden.frontBlock : s'.frontBlock = s.frontBlock := congrArg (List.take 64) h.pendingBuffer

theorem SameButHidden.wouldOverflow (n : Nat) : s'.wouldOverflow n = s.wouldOverflow n := by
  rw [State.wouldOverflow, State.wouldOverflow, h.totalBitLength]

theorem SameButHidden.waitsFor (wait : Wait) : s'.waitsFor wait = s.waitsFor wait := by
  cases wait with
  | no => rfl
  | phase => rw [waitsFor_phase, waitsFor_phase, h.task]
  | completion => rw [waitsFor_completion, waitsFor_completion, State.occupied, State.occupied, h.phase, h.task]

end updates

/-! ### What operations are made of -/

theorem hidesState_next : HidesState .next := fun _ _ h => h

theorem hidesState_refused (e : Refusal) : HidesState fun _ => .refused e := fun _ _ _ => rfl

theorem sameOutcome_andThen {r r' : Result} {f : State → Result} (hr : sameOutcome r r') (hf : HidesState f) :
    sameOutcome (andThen r f) (andThen r' f) := by
  cases r with
  | next s =>
    cases r' with
    | next s' => exact hf s s' hr
    | fault e => exact hr.elim
    | refused e => exact hr.elim
  | fault e =>
    cases r' with
    | next s' => exact hr.elim
    | fault e' => exact hr
    | refused e' => exact hr.elim
  | refused e =>
    cases r' with
    | next s' => exact hr.elim
    | fault e' => exact hr.elim
    | refused e' => exact hr

theorem hidesState_andThen {f g : State → Result} (hf : HidesState f) (hg : HidesState g) :
    HidesState fun s => andThen (f s) g := fun s s' h => sameOutcome_andThen (hf s s' h) hg

theorem hidesState_startOperation {f : State → Result} (hf : HidesState f) : HidesState (startOperation f) := by
  intro s s' h
  unfold startOperation
  rw [h.task]
  split
  · exact hf s s' h
  · rfl

theorem hidesState_coreCommand {f : State → Result} (hf : HidesState f) : HidesState (coreCommand f) := by
  intro s s' h
  unfold coreCommand
  rw [h.task, h.phase]
  split
  · rfl
  · exact hf s s' h

theorem hidesState_guardPhase (op : FramingOp) {body : State → Result} (hf : HidesState body) :
    HidesState (guardPhase op body) := by
  intro s s' h
  unfold guardPhase
  rw [h.fePhase]
  split
  · rfl
  · rfl
  · exact hf s s' h

theorem hidesState_guardUpdate (op : FramingOp) (n : Nat) {body : State → Result} (hf : HidesState body) :
    HidesState (guardUpdate op n body) := by
  refine hidesState_guardPhase op fun s s' h => ?_
  simp only [h.wouldOverflow]
  split
  · rfl
  · exact hf s s' h

theorem hidesState_sampleInit : HidesState State.sampleInit := by
  intro s s' h
  unfold State.sampleInit
  rw [h.phase]
  split
  · rfl
  · exact h.loadIV_flagsOfInit

theorem hidesState_sampleNext (block : Block) : HidesState fun s => s.sampleNext block := by
  intro s s' h
  simp only [State.sampleNext, h.phase, h.initSinceReset]
  split
  · rfl
  · split
    · rfl
    · exact h.acceptNext block

theorem hidesState_compressStep (block : Block) (after : AfterBlock) : HidesState (compressStep block after) := by
  intro s s' h
  unfold compressStep
  rw [h.phase]
  split
  · exact h.setTask _
  · exact sameOutcome_andThen (hidesState_sampleNext block s s' h) fun _ _ h' => h'.setTask _

theorem hidesState_constructNow : HidesState constructNow :=
  hidesState_andThen hidesState_sampleInit fun _ _ h =>
    { h with pendingBuffer := rfl, totalBitLength := rfl, fePhase := rfl, task := rfl }

theorem hidesState_construct : HidesState construct := by
  intro s s' h
  unfold construct
  rw [h.phase]
  split
  · exact h.setTask _
  · exact hidesState_constructNow s s' h

theorem hidesState_drain : HidesState drain := by
  intro s s' h
  unfold drain
  rw [h.pendingBuffer, h.frontBlock]
  split
  · exact h.setTask _
  · exact hidesState_compressStep _ _ _ _ h.dropFrontBlock

theorem hidesState_compressBuffer (after : AfterBlock) : HidesState (compressBuffer after) := by
  intro s s' h
  unfold compressBuffer
  rw [h.pendingBuffer]
  exact hidesState_compressStep _ _ _ _ h

theorem hidesState_padLastBlock (L : BitVec 64) : HidesState (padLastBlock L) := by
  intro s s' h
  have hpad : SameButHidden (padLength L s) (padLength L s') := by
    unfold padLength
    rw [h.pendingBuffer]
    exact (h.appendPending _).appendPending _
  exact hidesState_compressBuffer _ _ _ hpad

theorem hidesState_finalize : HidesState finalize := by
  intro s s' h
  have hpad : SameButHidden (padByte s) (padByte s') := h.appendPending _
  have hblock : SameButHidden (padBlock (padByte s)) (padBlock (padByte s')) := by
    unfold padBlock
    rw [hpad.pendingBuffer]
    exact hpad.appendPending _
  unfold finalize
  simp only [hpad.pendingBuffer, h.totalBitLength]
  split
  · exact hidesState_compressBuffer _ _ _ hblock
  · exact hidesState_padLastBlock _ _ _ hpad

theorem hidesState_feedByte (b : Byte) : HidesState (feedByte b) := by
  intro s s' h
  have hfed := (h.appendPending [b]).countBytes 1
  unfold feedByte
  simp only [hfed.pendingBuffer, hfed.frontBlock]
  split
  · exact hidesState_compressStep _ _ _ _ hfed.clearPending
  · exact hfed

theorem hidesState_feedBytes (bytes : List Byte) : HidesState (feedBytes bytes) := fun _ _ h =>
  hidesState_drain _ _ ((h.appendPending bytes).countBytes bytes.length)

theorem hidesState_checkUpdate (n : Nat) : HidesState (checkUpdate n) := by
  intro s s' h
  unfold checkUpdate
  rw [h.task]
  split
  · rfl
  · exact hidesState_guardUpdate .update n hidesState_next s s' h

theorem hidesState_resume : HidesState State.resume := by
  intro s s' h
  unfold State.resume
  rw [h.task]
  split
  · exact h
  · exact hidesState_constructNow s s' h
  · exact hidesState_compressStep _ _ s s' h
  · exact hidesState_drain s s' h
  · exact hidesState_padLastBlock _ _ _ h.clearPending
  · exact h.returnDigest

/-- A busy core takes the same step on what it has made so far; an idle one looks at no hidden state. -/
theorem hidesState_turn : HidesState State.turn := by
  intro s s' h
  unfold State.turn
  rw [h.phase]
  split
  · rename_i hb
    exact h.coreStep hb
  · exact hidesState_resume s s' h

/-! ### Instructions, actions, steps -/

theorem hidesState_exec (i : Instr) : HidesState (exec i) := by
  cases i with
  | idle => exact hidesState_next
  | init => exact hidesState_coreCommand hidesState_sampleInit
  | next block => exact hidesState_coreCommand (hidesState_sampleNext block)
  | construct => exact hidesState_startOperation hidesState_construct
  | updateByte b => exact hidesState_startOperation (hidesState_guardUpdate _ _ (hidesState_feedByte b))
  | finalize => exact hidesState_startOperation (hidesState_guardPhase _ hidesState_finalize)

theorem hidesState_presentWord (w : PortWord) : HidesState (presentWord w) := by
  have hafter : ∀ i : Instr, HidesState fun u => u.afterCommand i := by
    intro i s s' h
    simp only [State.afterCommand]
    split
    · exact hidesState_turn s s' h
    · exact h
  intro s s' h
  unfold presentWord
  split
  · exact sameOutcome_andThen (hidesState_exec _ s s' h) (hafter _)
  · rfl
  · exact hidesState_turn s s' h

theorem hidesState_observe (sig : Signal) : HidesState (observe sig) := by
  intro s s' h
  cases sig with
  | ready =>
    simp only [observe, h.ready]
    exact h.record _
  | digestValid =>
    simp only [observe, h.digestValid]
    exact h.record _
  | digest =>
    simp only [observe, h.digestValid, State.digest, h.H]
    split
    · exact h.record _
    · rfl

theorem hidesState_act (a : Action) : HidesState (act a) := by
  cases a with
  | reset => exact fun _ _ h => h.resetEvent
  | present w => exact hidesState_presentWord w
  | update bytes => exact hidesState_startOperation (hidesState_guardUpdate _ _ (hidesState_feedBytes bytes))
  | checkUpdate n => exact hidesState_checkUpdate n
  | observe sig => exact hidesState_observe sig
  | foreign w => exact hidesState_refused _

/-- Settles O57: both states take the same line, or both take the machine's turn. -/
theorem hiddenStateNeverShows : Obligations.HiddenStateNeverShows := by
  intro s s' h
  rcases hs : s.script with _ | ⟨⟨wait, a⟩, rest⟩
  · rw [step_nil hs, step_nil (h.script.trans hs)]
    exact hidesState_turn s s' h
  · have hs' := h.script.trans hs
    have hw' := h.waitsFor wait
    cases hw : s.waitsFor wait with
    | true =>
      rw [step_wait hs hw, step_wait hs' (hw'.trans hw)]
      exact hidesState_turn s s' h
    | false =>
      rw [step_take hs hw, step_take hs' (hw'.trans hw)]
      exact hidesState_act a _ _ (h.withScript rest)

end Sys2Proof.Machine
end

section
/-! Sums of words (spec/43_mixing_primitives.md R170), the digest as a port and as a string (spec/10_state.md R31;
spec/41_framing_finalize.md R127, R131, R133), and the padded message (R129). -/

namespace Sys2Proof.Machine

theorem add32_eq_sum (xs : List Word) : add32 xs = xs.sum := List.sum_eq_foldl.symm

theorem add32_append (xs ys : List Word) : add32 (xs ++ ys) = add32 [add32 xs, add32 ys] := by
  simp only [add32_eq_sum, List.sum_append, List.sum_cons, List.sum_nil, add_zero]

theorem sum_toNat (xs : List Word) : xs.sum.toNat = (xs.map BitVec.toNat).sum % 2 ^ 32 := by
  induction xs with
  | nil => rfl
  | cons x xs ih =>
    rw [List.sum_cons, BitVec.toNat_add, ih, Nat.add_mod_mod, List.map_cons, List.sum_cons]

/-- Settles O6: `add32` is the sum of the words, which is the sum of their values modulo `2^32`. -/
theorem add32IsSumModulo : Obligations.Add32IsSumModulo := by
  refine ⟨fun xs => ?_, fun xs ys h => ?_, add32_append, fun x => ?_, fun r kt wt => ?_⟩
  · rw [add32_eq_sum, sum_toNat]
  · rw [add32_eq_sum, add32_eq_sum, h.sum_eq]
  · rw [add32_pair, add_zero]
  · simp only [roundT1, add32_eq_sum, List.sum_cons, List.sum_nil, add_zero]

/-- R31: `H[i]` begins at bit `224 - 32 i` of the port. -/
theorem digestOf_getLsbD (H : Words8) (i : Nat) (hi : i < 8) (j : Nat) (hj : j < 32) :
    (digestOf H).getLsbD (224 - 32 * i + j) = H[i].getLsbD j := by
  simp only [digestOf, BitVec.getLsbD_append]
  interval_cases i <;> simp (disch := omega) only [if_pos, if_neg] <;> exact congrArg _ (by omega)

/-- A slice of the port inside `H[i]` is a slice of `H[i]`. -/
theorem digestOf_slice (H : Words8) (i m n : Nat) (hi : i < 8) (hmn : m + n ≤ 32) :
    (digestOf H).extractLsb' (224 - 32 * i + m) n = H[i].extractLsb' m n := by
  ext j hj
  rw [BitVec.getElem_extractLsb', BitVec.getElem_extractLsb', Nat.add_assoc, digestOf_getLsbD H i hi _ (by omega)]

/-- Settles O35: the slice that is the whole of `H[i]`. -/
theorem digestPortOrder : Obligations.DigestPortOrder := fun s i hi =>
  (digestOf_slice s.H i 0 32 hi (Nat.le_refl _)).trans BitVec.extractLsb'_eq_self

theorem flatMap_hex8_length (ws : List Word) : (ws.flatMap hex8).length = 8 * ws.length := by
  induction ws with
  | nil => rfl
  | cons w ws ih =>
    rw [List.flatMap_cons, List.length_append, ih, hex8_length, List.length_cons]
    omega

/-- Eight digits for each word, in the order of the words. -/
theorem flatMap_hex8_getElem? (ws : List Word) (i k : Nat) (hi : i < ws.length) (hk : k < 8) :
    (ws.flatMap hex8)[8 * i + k]? = some (hexDigit (ws[i].extractLsb' (28 - 4 * k) 4)) := by
  induction ws generalizing i with
  | nil => cases hi
  | cons w ws ih =>
    rw [List.flatMap_cons]
    cases i with
    | zero => rw [List.getElem?_append_left (by simp; omega), Nat.mul_zero, Nat.zero_add, hex8_getElem? w k hk]; rfl
    | succ i =>
      rw [List.getElem?_append_right (by simp; omega), hex8_length, show 8 * (i + 1) + k - 8 = 8 * i + k by omega,
        ih i (by simpa using hi)]
      rfl

theorem digestString_length (H : Words8) : (digestString H).length = 64 := by
  rw [digestString, flatMap_hex8_length, Vector.length_toList]

theorem digestString_mem (H : Words8) (c : Char) (hc : c ∈ digestString H) : c ∈ hexAlphabet := by
  obtain ⟨w, -, hw⟩ := List.mem_flatMap.1 hc
  obtain ⟨k, -, rfl⟩ := List.mem_map.1 hw
  exact hexDigit_mem _

/-- R127: character `8 i + k` is digit `k` of `H[i]`. -/
theorem digestString_getElem? (H : Words8) (i k : Nat) (hi : i < 8) (hk : k < 8) :
    (digestString H)[8 * i + k]? = some (hexDigit (H[i].extractLsb' (28 - 4 * k) 4)) := by
  rw [digestString, flatMap_hex8_getElem? _ i k (by simpa using hi) hk, Vector.getElem_toList]

/-- R133: character `j` is digit `j` of the port, the most significant first. -/
theorem digestString_getElem?_port (H : Words8) (j : Nat) (hj : j < 64) :
    (digestString H)[j]? = some (hexDigit ((digestOf H).extractLsb' (252 - 4 * j) 4)) := by
  have hchar := digestString_getElem? H (j / 8) (j % 8) (by omega) (by omega)
  have hslice := digestOf_slice H (j / 8) (28 - 4 * (j % 8)) 4 (by omega) (by omega)
  rw [Nat.div_add_mod, ← hslice, show 224 - 32 * (j / 8) + (28 - 4 * (j % 8)) = 252 - 4 * j by omega] at hchar
  exact hchar

theorem padZeros_lt (n : Nat) : padZeros n < 64 := by
  unfold padZeros
  omega

theorem padding_length (p : Nat) (L : BitVec 64) : (padding p L).length = padZeros p + 9 := by
  simp [padding]

/-- R129: with `0x80`, the zeros and the length the message is a whole number of blocks. -/
theorem length_add_padding (n : Nat) : n + (padZeros n + 9) = 64 * blockCount n := by
  unfold padZeros blockCount
  split <;> omega

/-- Settles O36: the lengths of the parts, and the two cases of `blockCount`. -/
theorem paddedMessageIsWholeBlocks : Obligations.PaddedMessageIsWholeBlocks := by
  intro M
  refine ⟨?_, List.prefix_append _ _, fun h => if_pos h, fun h => if_neg (by omega), ?_, ?_⟩
  · rw [paddedMessage, List.length_append, padding_length, length_add_padding]
  · exact Nat.le_of_lt_succ (padZeros_lt _)
  · unfold padZeros
    omega

end Sys2Proof.Machine
end

section
/-! The core's own steps to the end of a `NEXT`, and scripts of commands (spec/42_core_compression.md R144, R151 to R153,
R157; spec/70_reset_and_hazards.md R230, R231). -/

namespace Sys2Proof.Machine

theorem turn_finish {s : State} (hb : s.phase = .busy) (ht : s.t.val = 64) :
    s.turn = .next { s with H := feedForward s.H s.regs, phase := .idle, ready := true, digestValid := true } := by
  rw [turn_busy hb, coreStep_finish s ht]
  rfl

/-- Settles O17: the turn is the feed-forward, whose words are sums of two. -/
theorem finishAddsRegisters : Obligations.FinishAddsRegisters := by
  intro s ht hb
  refine ⟨feedForward s.H s.regs, ?_, turn_finish hb ht⟩
  rw [feedForward_eq]
  simp only [add32_pair, BitVec.toNat_add, Vector.getElem_mk, List.getElem_toArray, List.getElem_cons_zero,
    List.getElem_cons_succ, and_self]

/-- A `NEXT` of the host's own takes 65 turns (R153). -/
theorem acceptNext_turnsLeft {s : State} (block : Block) (ht : s.task = .nothing) :
    (s.acceptNext block).turnsLeft = 65 := by
  simp [State.turnsLeft, FramingTask.turnsLeft, ht]

theorem acceptNext_complete {s : State} (block : Block) (ht : s.task = .nothing) :
    (s.acceptNext block).complete = .next (s.afterNext block) := by
  rw [complete_nothing (by exact ht), acceptNext_completes]

/-- Settles O18: until its last step the core runs rounds; with it the core is `State.afterNext`. -/
theorem nextCompletesAsAtomicForm : Obligations.NextCompletesAsAtomicForm := by
  intro s block hp ht hi
  have hcomplete : (s.acceptNext block).complete = (s.acceptNext block).turns 65 := by
    rw [State.complete, acceptNext_turnsLeft block ht]
  refine ⟨s.acceptNext block, execNext_accepted block hp ht hi, fun n hn => ?_, runRounds s.K (schedule block)
    (workingOf s.H), schedule block, 64, ?_, hcomplete⟩
  · obtain ⟨hb, hn', hH, hr, hd⟩ := coreSteps_busy (s.acceptNext block) rfl n (by simpa using hn)
    exact ⟨_, turns_busy _ rfl n (by simp; omega), hb, hr, hd, hH, by simpa using hn'⟩
  · rw [← hcomplete, acceptNext_complete block ht, State.afterNext, ← hp]

/-- Settles O24: while the host waits the steps are the core's own, and the `65 - t`th is the last. -/
theorem busyCoreBecomesReady : Obligations.BusyCoreBecomesReady := by
  intro s hb hw
  have hsteps : ∀ n, n ≤ 65 - s.t.val → runSteps n s = .next (s.coreSteps n) := by
    intro n hn
    have hleft : 65 - s.t.val ≤ s.turnsLeft := by simp [State.turnsLeft, hb]
    rw [runSteps_turns n (by omega) hw, turns_busy s hb n (by omega)]
  refine ⟨fun n hn => ⟨_, hsteps n (by omega), (coreSteps_busy s hb n (by omega)).1, ?_⟩, _, hsteps _ (Nat.le_refl _), ?_⟩
  · obtain ⟨-, -, -, -, -, -, -, hscript, -⟩ := coreSteps_frame n s
    exact hscript
  · obtain ⟨hp, hr, hd⟩ := coreSteps_completes s hb
    obtain ⟨-, -, -, hbuf, hL, hf, ht, hscript, ho⟩ := coreSteps_frame (65 - s.t.val) s
    exact ⟨hp, hr, hd, hscript, hf, ht, hbuf, hL, ho⟩

/-- While the host waits, what is in progress completes. -/
theorem runSteps_complete {s : State} (hw : ∀ line rest, s.script = line :: rest → line.wait = .completion) :
    runSteps s.turnsLeft s = s.complete :=
  runSteps_turns _ (Nat.le_refl _) hw

/-- A line that waits for completion is taken by an unoccupied machine. -/
theorem step_presentLine {s : State} {i : Instr} {rest : List HostLine} (hs : s.script = presentLine i :: rest)
    (hp : s.phase = .idle) (ht : s.task = .nothing) (hi : i ≠ .idle) : step s = exec i { s with script := rest } :=
  step_take_instr_ne_idle hs (waitsFor_unoccupied (occupied_eq_false.2 ⟨hp, ht⟩) _) (decode_encode i) hi

/-- A `NEXT` line and the wait after it: 66 steps (R153). -/
theorem runSteps_next_line {s : State} {block : Block} {rest : List HostLine}
    (hs : s.script = presentLine (.next block) :: rest) (hp : s.phase = .idle) (ht : s.task = .nothing)
    (hi : s.initSinceReset = true) (hw : ∀ line rest', rest = line :: rest' → line.wait = .completion) :
    runSteps 66 s = .next (State.afterNext { s with script := rest } block) := by
  have haccept : step s = .next (State.acceptNext { s with script := rest } block) := by
    rw [step_presentLine hs hp ht (by simp)]
    exact execNext_accepted block hp ht hi
  have hcomplete := runSteps_complete (s := State.acceptNext { s with script := rest } block) hw
  rw [acceptNext_turnsLeft (s := { s with script := rest }) block ht,
    acceptNext_complete (s := { s with script := rest }) block ht] at hcomplete
  rw [runSteps_succ, haccept, andThen_next, hcomplete]

theorem map_presentLine_waits {α : Type} (xs : List α) (f : α → Instr) (line : HostLine) (rest : List HostLine)
    (h : xs.map (fun x => presentLine (f x)) = line :: rest) : line.wait = .completion := by
  cases xs with
  | nil => cases h
  | cons x xs =>
    injection h with h
    rw [← h]
    rfl

/-- `NEXT` lines alone, from a valid idle core: `C_0 = H` (R157). -/
theorem runSteps_next_lines (blocks : List Block) {s : State}
    (hs : s.script = blocks.map fun b => presentLine (.next b)) (hp : s.phase = .idle) (ht : s.task = .nothing)
    (hi : s.initSinceReset = true) (hd : s.digestValid = true) :
    ∃ u, runSteps (66 * blocks.length) s = .next u ∧ u.H = blocks.foldl (fun H b => compress H b s.K) s.H ∧
      u.phase = .idle ∧ u.digestValid = true ∧ u.script = [] ∧ u.task = .nothing ∧ (s.ready = true → u.ready = true) := by
  induction blocks generalizing s with
  | nil => exact ⟨s, rfl, rfl, hp, hd, hs, ht, id⟩
  | cons b bs ih =>
    obtain ⟨u, hrun, hH, hp', hd', hs', ht', hr⟩ :=
      ih (s := State.afterNext { s with script := bs.map fun b => presentLine (.next b) } b) rfl rfl ht hi rfl
    refine ⟨u, ?_, hH, hp', hd', hs', ht', fun _ => hr rfl⟩
    rw [List.length_cons, Nat.mul_add, Nat.add_comm, runSteps_add,
      runSteps_next_line hs hp ht hi (map_presentLine_waits bs .next), andThen_next, hrun]

/-- Settles O25: `INIT` in one step, then the `NEXT` lines. -/
theorem commandsChainBlocks : Obligations.CommandsChainBlocks := by
  intro s blocks hp ht hs
  have hinit : step s =
      .next (State.loadIV { s with script := blocks.map fun b => presentLine (.next b) }).flagsOfInit := by
    rw [step_presentLine hs hp ht (by simp)]
    exact execInit_idle hp ht
  obtain ⟨u, hrun, hH, hp', hd', hs', ht', hr⟩ := runSteps_next_lines blocks
    (s := (State.loadIV { s with script := blocks.map fun b => presentLine (.next b) }).flagsOfInit) rfl hp ht rfl rfl
  exact ⟨u, by rw [runSteps_add, runSteps_one, hinit, andThen_next, hrun], hH, hp', hd', hs',
    fun hready => ⟨hs', ht', hp', hr hready⟩⟩

end Sys2Proof.Machine
end

section
/-! Refusals, observation and reset (spec/60_exceptions.md R192 to R194, R198, R199; spec/70_reset_and_hazards.md R220 to
R222). -/

namespace Sys2Proof.Machine

theorem opUpdate_unconstructed {s : State} (bytes : List Byte) (ht : s.task = .nothing)
    (hf : s.fePhase = .unconstructed) : opUpdate bytes s = .fault (.notConstructed .update) := by
  simp [opUpdate, startOperation_nothing _ ht, guardUpdate, guardPhase, hf, raise]

theorem opUpdate_finalized {s : State} (bytes : List Byte) (ht : s.task = .nothing) (hf : s.fePhase = .finalized) :
    opUpdate bytes s = .fault (.useAfterFinalize .update) := by
  simp [opUpdate, startOperation_nothing _ ht, guardUpdate, guardPhase, hf, raise]

theorem guardUpdate_overflow (op : FramingOp) {n : Nat} (body : State → Result) {s : State}
    (hf : s.fePhase = .accumulating) (ho : 2 ^ 64 ≤ s.totalBitLength.toNat + 8 * n) :
    guardUpdate op n body s = .fault (.lengthOverflow n) := by
  simp [guardUpdate, guardPhase, hf, wouldOverflow_eq_true ho, raise]

theorem opUpdate_overflow {s : State} {bytes : List Byte} (ht : s.task = .nothing) (hf : s.fePhase = .accumulating)
    (ho : 2 ^ 64 ≤ s.totalBitLength.toNat + 8 * bytes.length) :
    opUpdate bytes s = .fault (.lengthOverflow bytes.length) := by
  rw [opUpdate, startOperation_nothing _ ht, guardUpdate_overflow _ _ hf ho]

/-- Settles O28: the checks come before anything is written, in the order of the phases. -/
theorem framingFaults : Obligations.FramingFaults := by
  intro s b bytes ht
  rw [execUpdateByte_free b ht, execFinalize_free ht]
  refine ⟨fun hf => ⟨?_, opUpdate_unconstructed bytes ht hf, ?_⟩, fun hf => ⟨?_, opUpdate_finalized bytes ht hf, ?_⟩,
    fun hf => ⟨guardUpdate_overflow (n := 1) _ _ hf, opUpdate_overflow ht hf⟩⟩
  all_goals simp [guardUpdate, guardPhase, hf, raise]

/-- Settles O42: the four operations through `startOperation`, the two commands through `coreCommand`. -/
theorem operationInProgressRefusesOthers : Obligations.OperationInProgressRefusesOthers := fun _ _ _ _ ht =>
  ⟨startOperation_refused _ ht, startOperation_refused _ ht, startOperation_refused _ ht, startOperation_refused _ ht,
    fun hp => ⟨coreCommand_refused State.sampleInit hp ht, coreCommand_refused (fun u => u.sampleNext _) hp ht⟩⟩

theorem observe_digest_valid {s : State} (h : s.digestValid = true) :
    observe .digest s = .next (s.record (.digest s.digest)) := by
  simp [observe, h]

theorem observe_digest_refused {s : State} (h : s.digestValid = false) :
    observe .digest s = .refused .digestNotValid := by
  simp [observe, h]

/-- Settles O43: the record of what was read is all that a read writes. -/
theorem readingOutputs : Obligations.ReadingOutputs := fun _ =>
  ⟨observe_digest_valid, observe_digest_refused, rfl, rfl⟩

/-- R196, R220: after a reset there is no chaining value for a `NEXT`. -/
theorem execNext_resetEvent (s : State) (block : Block) :
    exec (.next block) s.resetEvent = .fault .coreUninitialised :=
  execNext_uninitialised block rfl rfl rfl

/-- Settles O44: the line's action is the reset event. -/
theorem resetEventForgetsEverything : Obligations.ResetEventForgetsEverything := fun s _ rest hs hw =>
  ⟨State.resetEvent { s with script := rest }, step_take hs hw, rfl, rfl, rfl, rfl, rfl, rfl, rfl, rfl, rfl, rfl, rfl,
    rfl, observe_digest_refused rfl, execNext_resetEvent _⟩

/-- Settles O46: the faults of an unconstructed engine, and the two that load `IV`. -/
theorem resetStateAndStartUp : Obligations.ResetStateAndStartUp := by
  refine ⟨rfl, rfl, rfl, rfl, rfl, rfl, rfl, execNext_resetEvent State.reset, fun b => ?_,
    fun bytes => opUpdate_unconstructed bytes rfl rfl, ?_, ⟨_, execInit_idle rfl rfl, rfl, rfl⟩, State.reset.constructed,
    ?_, rfl, rfl⟩
  · exact ((framingFaults State.reset b [] rfl).1 rfl).1
  · exact ((framingFaults State.reset 0 [] rfl).1 rfl).2.2
  · rw [execConstruct_free rfl, construct_idle rfl]

end Sys2Proof.Machine
end

section
/-! What a step can change: the tables, the lifecycle, the counter, the chaining state (spec/10_state.md R21, R29, R30,
R34, R35). -/

namespace Sys2Proof.Machine

theorem takenInstr_of_action {s : State} {a : Action} (ha : takenAction s = some a) (hp : ∀ w, a ≠ .present w) :
    takenInstr s = none := by
  cases a with
  | present w => exact absurd rfl (hp w)
  | _ => simp only [takenInstr, ha]

theorem takenInstr_of_none {s : State} (ha : takenAction s = none) : takenInstr s = none := by
  simp only [takenInstr, ha]

/-- An instruction is taken by a line that presents it, which is no reset. -/
theorem takenAction_ne_reset {s : State} {i : Instr} (h : takenInstr s = some i) : takenAction s ≠ some .reset := by
  intro ha
  rw [takenInstr_of_action ha (by simp)] at h
  cases h

/-- All that a step which answers a next state can have done, by what it runs: the machine's turn, one instruction, the
reset event, an update, or nothing but a record. -/
theorem step_next_effects {s u : State} (h : step s = .next u) : ∃ rest,
    ((∀ i, takenInstr s = some i → i = .idle) ∧ takenAction s ≠ some .reset ∧
      State.turn { s with script := rest } = .next u) ∨
    (∃ i, takenInstr s = some i ∧ exec i { s with script := rest } = .next u) ∨
    (takenAction s = some .reset ∧ takenInstr s = none ∧ u = State.resetEvent { s with script := rest }) ∨
    (∃ bytes, takenAction s = some (.update bytes) ∧ takenInstr s = none ∧
      opUpdate bytes { s with script := rest } = .next u) ∨
    (takenAction s ≠ some .reset ∧ takenInstr s = none ∧
      ∃ o, u = { s with script := rest, observed := s.observed ++ o }) := by
  obtain ⟨ha, he⟩ | ⟨rest, hcase⟩ := step_next_cases h
  · exact ⟨s.script, .inl ⟨by simp [takenInstr_of_none ha], by simp [ha], he⟩⟩
  · refine ⟨rest, ?_⟩
    obtain ⟨ha, rfl⟩ | ⟨w, i, v, ha, hi, he, hv⟩ | ⟨w, ha, hi, he⟩ | ⟨bytes, ha, he⟩ | ⟨n, ha, rfl⟩ |
      ⟨sig, o, ha, rfl⟩ := hcase
    · exact .inr (.inr (.inl ⟨ha, takenInstr_of_action ha (by simp), rfl⟩))
    · by_cases hidle : i = .idle
      · subst hidle
        cases he
        exact .inl ⟨by simp [hi], by simp [ha], hv⟩
      · rw [State.afterCommand, if_neg hidle] at hv
        cases hv
        exact .inr (.inl ⟨i, hi, he⟩)
    · exact .inl ⟨by simp [hi], by simp [ha], he⟩
    · exact .inr (.inr (.inr (.inl ⟨bytes, ha, takenInstr_of_action ha (by simp), he⟩)))
    · exact .inr (.inr (.inr (.inr ⟨by simp [ha], takenInstr_of_action ha (by simp), [], by simp⟩)))
    · exact .inr (.inr (.inr (.inr ⟨by simp [ha], takenInstr_of_action ha (by simp), [o], rfl⟩)))

/-- Settles O53: turns, instructions, updates and the reset event all leave the tables as they are. -/
theorem constantTablesNeverWritten : Obligations.ConstantTablesNeverWritten := by
  intro s u h
  obtain ⟨rest, ⟨-, -, he⟩ | ⟨i, -, he⟩ | ⟨-, -, rfl⟩ | ⟨bytes, -, -, he⟩ | ⟨-, -, o, rfl⟩⟩ := step_next_effects h
  · obtain ⟨hIV, hK, -⟩ := turn_sameTables he
    exact ⟨hIV, hK⟩
  · obtain ⟨hIV, hK, -⟩ := exec_sameTables he
    exact ⟨hIV, hK⟩
  · exact ⟨rfl, rfl⟩
  · obtain ⟨-, -, -, -, ⟨hIV, hK, -⟩, -⟩ := opUpdate_next he
    exact ⟨hIV, hK⟩
  · exact ⟨rfl, rfl⟩

/-! ### The lifecycle -/

theorem changesPhase_eq_false {task : FramingTask} :
    task.changesPhase = false ↔ task ≠ .construct ∧ task.finalizing = false := by
  rw [← Bool.not_eq_true, changesPhase_eq_true, not_or, Bool.not_eq_true]

theorem changesPhase_of_after_drain {task : FramingTask} (h : task.after = some .drain) : task.changesPhase = false := by
  cases task with
  | nothing => cases h
  | construct => cases h
  | present block after =>
    cases h
    rfl
  | await after =>
    cases h
    rfl

/-- An operation that waits for a block is no `CONSTRUCT`. -/
theorem ne_construct_of_after {task : FramingTask} {after : AfterBlock} (h : task.after = some after) :
    task ≠ .construct := by
  rintro rfl
  cases h

/-- `u` comes from `s` with the same lifecycle phase, and with nothing begun that changes it. -/
def LifecycleKept (s u : State) : Prop :=
  u.fePhase = s.fePhase ∧ (u.task = .construct → s.task = .construct) ∧
    (u.task.finalizing = true → s.task.finalizing = true)

theorem lifecycleKept_of_task_eq {s u : State} (hf : u.fePhase = s.fePhase) (ht : u.task = s.task) :
    LifecycleKept s u := by
  rw [LifecycleKept, ht]
  exact ⟨hf, id, id⟩

theorem lifecycleKept_of_changesPhase {s u : State} (hf : u.fePhase = s.fePhase) (ht : u.task.changesPhase = false) :
    LifecycleKept s u := by
  obtain ⟨hc, hfin⟩ := changesPhase_eq_false.1 ht
  exact ⟨hf, fun h => absurd h hc, fun h => by simp [hfin] at h⟩

/-- An operation in progress goes on to wait for a block in the same lifecycle phase, with the same end. -/
theorem lifecycleKept_of_after {s u : State} {after after' : AfterBlock} (hf : u.fePhase = s.fePhase)
    (ht : s.task.after = some after) (hu : u.task.after = some after') (hd : after = .drain → after' = .drain) :
    LifecycleKept s u :=
  ⟨hf, fun h => absurd h (ne_construct_of_after hu), fun h =>
    (finalizing_of_after ht).2 fun e => (finalizing_of_after hu).1 h (hd e)⟩

theorem changesPhase_drain {s u : State} (h : drain s = .next u) : u.task.changesPhase = false := by
  obtain ⟨-, -, -, -, -, -, ⟨-, rfl⟩ | ⟨-, -, ht⟩⟩ := drain_frame h
  · rfl
  · exact changesPhase_of_after_drain ht

/-- What a turn does to the lifecycle: it ends a `CONSTRUCT`, or a `FINALIZE`, or keeps it. -/
theorem turn_lifecycle {s u : State} (h : s.turn = .next u) :
    LifecycleKept s u ∨ (s.task = .construct ∧ u.fePhase = .accumulating ∧ u.task = .nothing) ∨
      (s.task = .await .digest ∧ u.fePhase = .finalized ∧ u.task = .nothing) := by
  obtain ⟨-, rfl⟩ | ⟨-, -, rfl⟩ | ⟨-, ht, rfl⟩ | ⟨block, after, -, ht, he⟩ | ⟨-, ht, he⟩ | ⟨L, -, ht, he⟩ |
    ⟨-, ht, rfl⟩ := turn_next_cases h
  · exact .inl (lifecycleKept_of_task_eq (by simp) (by simp))
  · exact .inl (lifecycleKept_of_task_eq rfl rfl)
  · exact .inr (.inl ⟨ht, rfl, rfl⟩)
  · obtain ⟨-, -, -, hf, -, -, -, hu⟩ := compressStep_frame he
    exact .inl (lifecycleKept_of_after hf (after := after) (by rw [ht]; rfl) hu id)
  · obtain ⟨-, -, -, hf, -⟩ := drain_frame he
    exact .inl (lifecycleKept_of_changesPhase hf (changesPhase_drain he))
  · obtain ⟨-, -, -, hf, -, -, -, hu⟩ := compressBuffer_frame he
    exact .inl (lifecycleKept_of_after hf (after := .padSecond L) (by rw [ht]; rfl) hu (by simp))
  · exact .inr (.inr ⟨ht, rfl, rfl⟩)

theorem opUpdate_lifecycle {bytes : List Byte} {s u : State} (h : opUpdate bytes s = .next u) : LifecycleKept s u := by
  obtain ⟨-, hf, -, he, -, -, hf', -⟩ := opUpdate_next h
  exact lifecycleKept_of_changesPhase (hf'.trans hf.symm) (changesPhase_drain he)

theorem execUpdateByte_lifecycle {b : Byte} {s u : State} (h : exec (.updateByte b) s = .next u) :
    LifecycleKept s u := by
  obtain ⟨-, hf, -, -, -, -, hf', -, -, -, ⟨-, rfl⟩ | ⟨-, -, ht⟩⟩ := execUpdateByte_next h
  · exact lifecycleKept_of_task_eq (hf'.trans hf.symm) rfl
  · exact lifecycleKept_of_changesPhase (hf'.trans hf.symm) (changesPhase_of_after_drain ht)

/-- `FINALIZE` begins with the phase as it was, and waits for its block. -/
theorem execFinalize_lifecycle {s u : State} (h : exec .finalize s = .next u) :
    u.fePhase = s.fePhase ∧ u.task ≠ .construct ∧ u.task.finalizing = true := by
  obtain ⟨-, hf, -, -, -, hf', -, -, ⟨-, ht, -⟩ | ⟨-, ht, -⟩⟩ := execFinalize_next h <;>
    exact ⟨hf'.trans hf.symm, ne_construct_of_after ht, (finalizing_of_after ht).2 (by simp)⟩

/-- `CONSTRUCT` is done at once, or waits with the phase as it was. -/
theorem execConstruct_lifecycle {s u : State} (h : exec .construct s = .next u) :
    u.task.finalizing = false ∧
      ((u.fePhase = .accumulating ∧ u.task = .nothing) ∨ (u.fePhase = s.fePhase ∧ u.task = .construct)) := by
  obtain ⟨-, ⟨-, rfl⟩ | ⟨-, rfl⟩⟩ := execConstruct_next h
  · exact ⟨rfl, .inl ⟨rfl, rfl⟩⟩
  · exact ⟨rfl, .inr ⟨rfl, rfl⟩⟩

/-- An instruction that is neither `CONSTRUCT` nor `FINALIZE` keeps the lifecycle (R35). -/
theorem exec_lifecycleKept {i : Instr} {s u : State} (hc : i ≠ .construct) (hf : i ≠ .finalize)
    (h : exec i s = .next u) : LifecycleKept s u := by
  cases i with
  | idle =>
    cases h
    exact lifecycleKept_of_task_eq rfl rfl
  | init =>
    obtain ⟨-, -, rfl⟩ := execInit_next h
    exact lifecycleKept_of_task_eq rfl rfl
  | next block =>
    obtain ⟨-, -, -, rfl⟩ := execNext_next h
    exact lifecycleKept_of_task_eq rfl rfl
  | construct => exact absurd rfl hc
  | updateByte b => exact execUpdateByte_lifecycle h
  | finalize => exact absurd rfl hf

/-- Settles O54: one case for each thing a step can do. -/
theorem lifecycleChangesOnlyByThree : Obligations.LifecycleChangesOnlyByThree := by
  intro s u h
  obtain ⟨rest, ⟨hi, ha, he⟩ | ⟨i, hi, he⟩ | ⟨ha, hi, rfl⟩ | ⟨bytes, ha, hi, he⟩ | ⟨ha, hi, o, rfl⟩⟩ :=
    step_next_effects h
  · have hnc : takenInstr s ≠ some .construct := fun e => by cases hi _ e
    have hnf : takenInstr s ≠ some .finalize := fun e => by cases hi _ e
    refine ⟨fun e => absurd e ha, fun e => absurd e hnc, fun e => absurd e hnf, ?_⟩
    obtain ⟨hf, hc, hfin⟩ | ⟨ht, hf, hu⟩ | ⟨ht, hf, hu⟩ := turn_lifecycle he
    · exact ⟨fun e => absurd hf e, fun e => .inl (hc e), fun e => .inl (hfin e)⟩
    · exact ⟨fun _ => .inr (.inl ⟨.inr ht, hf⟩), fun _ => .inl ht, by simp [hu]⟩
    · exact ⟨fun _ => .inr (.inr ⟨ht, hf⟩), by simp [hu], by simp [hu]⟩
  · refine ⟨fun e => absurd e (takenAction_ne_reset hi), ?_⟩
    by_cases hic : i = .construct
    · subst hic
      obtain ⟨hfin, hcase⟩ := execConstruct_lifecycle he
      refine ⟨fun _ => hcase.imp And.left And.right, by simp [hi], fun e => ?_, fun _ => .inr hi, by simp [hfin]⟩
      obtain ⟨hf, -⟩ | ⟨hf, -⟩ := hcase
      · exact .inr (.inl ⟨.inl hi, hf⟩)
      · exact absurd hf e
    · have hnc : takenInstr s ≠ some .construct := by simp [hi, hic]
      refine ⟨fun e => absurd e hnc, ?_⟩
      by_cases hif : i = .finalize
      · subst hif
        obtain ⟨hf, hc, hfin⟩ := execFinalize_lifecycle he
        exact ⟨fun _ => hfin, fun e => absurd hf e, fun e => absurd e hc, fun _ => .inr hi⟩
      · obtain ⟨hf, hc, hfin⟩ := exec_lifecycleKept hic hif he
        exact ⟨by simp [hi, hif], fun e => absurd hf e, fun e => .inl (hc e), fun e => .inl (hfin e)⟩
  · exact ⟨fun _ => rfl, by simp [hi], by simp [hi], fun _ => .inl ⟨ha, rfl⟩, by simp,
      by simp⟩
  · obtain ⟨hf, hc, hfin⟩ := opUpdate_lifecycle he
    exact ⟨by simp [ha], by simp [hi], by simp [hi], fun e => absurd hf e, fun e => .inl (hc e), fun e => .inl (hfin e)⟩
  · exact ⟨fun e => absurd e ha, by simp [hi], by simp [hi], fun e => absurd rfl e, .inl, .inl⟩

/-! ### The counter -/

/-- A turn counts nothing; the end of a `CONSTRUCT` sets the counter to 0. -/
theorem turn_totalBitLength {s u : State} (h : s.turn = .next u) :
    u.totalBitLength = s.totalBitLength ∨ (s.task = .construct ∧ u.totalBitLength = 0) := by
  obtain ⟨-, rfl⟩ | ⟨-, -, rfl⟩ | ⟨-, ht, rfl⟩ | ⟨_, _, -, -, he⟩ | ⟨-, -, he⟩ | ⟨_, -, -, he⟩ | ⟨-, -, rfl⟩ :=
    turn_next_cases h
  · exact .inl (by simp)
  · exact .inl rfl
  · exact .inr ⟨ht, rfl⟩
  · obtain ⟨-, -, hL, -⟩ := compressStep_frame he
    exact .inl hL
  · obtain ⟨-, -, hL, -⟩ := drain_frame he
    exact .inl hL
  · obtain ⟨-, -, hL, -⟩ := compressBuffer_frame he
    exact .inl hL
  · exact .inl rfl

/-- Of the instructions `UPDATE_BYTE` counts 8 bits, and `CONSTRUCT` sets the counter to 0. -/
theorem exec_totalBitLength {i : Instr} {s u : State} (h : exec i s = .next u) :
    u.totalBitLength = s.totalBitLength ∨
      (∃ b, i = .updateByte b ∧ u.totalBitLength.toNat = s.totalBitLength.toNat + 8) ∨
      (i = .construct ∧ u.totalBitLength = 0) := by
  cases i with
  | idle =>
    cases h
    exact .inl rfl
  | init =>
    obtain ⟨-, -, rfl⟩ := execInit_next h
    exact .inl rfl
  | next block =>
    obtain ⟨-, -, -, rfl⟩ := execNext_next h
    exact .inl rfl
  | construct =>
    obtain ⟨-, ⟨-, rfl⟩ | ⟨-, rfl⟩⟩ := execConstruct_next h
    · exact .inr (.inr ⟨rfl, rfl⟩)
    · exact .inl rfl
  | updateByte b =>
    obtain ⟨-, -, -, -, -, -, -, -, -, hL, -⟩ := execUpdateByte_next h
    exact .inr (.inl ⟨b, rfl, hL⟩)
  | finalize =>
    obtain ⟨-, -, -, -, hL, -⟩ := execFinalize_next h
    exact .inl hL

/-- Settles O55: one case for each thing a step can do. -/
theorem lengthCounterNeverWraps : Obligations.LengthCounterNeverWraps := by
  intro s u h
  obtain ⟨rest, ⟨-, -, he⟩ | ⟨i, hi, he⟩ | ⟨ha, -, rfl⟩ | ⟨bytes, ha, -, he⟩ | ⟨-, -, o, rfl⟩⟩ := step_next_effects h
  · obtain hL | ⟨ht, hL⟩ := turn_totalBitLength he
    · exact .inl hL
    · exact .inr (.inr (.inr ⟨.inr (.inl ht), hL⟩))
  · obtain hL | ⟨b, rfl, hL⟩ | ⟨rfl, hL⟩ := exec_totalBitLength he
    · exact .inl hL
    · exact .inr (.inl ⟨b, hi, hL⟩)
    · exact .inr (.inr (.inr ⟨.inl hi, hL⟩))
  · exact .inr (.inr (.inr ⟨.inr (.inr ha), rfl⟩))
  · obtain ⟨-, -, -, -, -, -, -, -, -, hL, -⟩ := opUpdate_next he
    exact .inr (.inr (.inl ⟨bytes, ha, hL⟩))
  · exact .inl rfl

/-! ### The chaining state -/

/-- A turn writes the chaining state as the feed-forward of a busy core, or as the end of a `CONSTRUCT`. -/
theorem turn_H {s u : State} (h : s.turn = .next u) :
    u.H = s.H ∨ (s.phase = .busy ∧ s.t.val = 64 ∧ u.phase = .idle ∧ u.H = feedForward s.H s.regs) ∨
      (s.task = .construct ∧ u.H = s.IV) := by
  obtain ⟨hb, rfl⟩ | ⟨-, -, rfl⟩ | ⟨-, ht, rfl⟩ | ⟨_, _, -, -, he⟩ | ⟨-, -, he⟩ | ⟨_, -, -, he⟩ | ⟨-, -, rfl⟩ :=
    turn_next_cases h
  · obtain ⟨_, e⟩ | ⟨ht, e⟩ := coreStep_cases s <;> rw [e]
    · exact .inl rfl
    · exact .inr (.inl ⟨hb, ht, rfl, rfl⟩)
  · exact .inl rfl
  · exact .inr (.inr ⟨ht, rfl⟩)
  · obtain ⟨-, -, -, -, -, -, hH, -⟩ := compressStep_frame he
    exact .inl hH
  · obtain ⟨-, -, -, -, -, hH, -⟩ := drain_frame he
    exact .inl hH
  · obtain ⟨-, -, -, -, -, -, hH, -⟩ := compressBuffer_frame he
    exact .inl hH
  · exact .inl rfl

/-- Of the instructions `INIT` and `CONSTRUCT` write the chaining state, and they load `IV`. -/
theorem exec_H {i : Instr} {s u : State} (h : exec i s = .next u) :
    u.H = s.H ∨ ((i = .init ∨ i = .construct) ∧ u.H = s.IV) := by
  cases i with
  | idle =>
    cases h
    exact .inl rfl
  | init =>
    obtain ⟨-, -, rfl⟩ := execInit_next h
    exact .inr ⟨.inl rfl, rfl⟩
  | next block =>
    obtain ⟨-, -, -, rfl⟩ := execNext_next h
    exact .inl rfl
  | construct =>
    obtain ⟨-, ⟨-, rfl⟩ | ⟨-, rfl⟩⟩ := execConstruct_next h
    · exact .inr ⟨.inr rfl, rfl⟩
    · exact .inl rfl
  | updateByte b =>
    obtain ⟨-, -, -, -, -, -, -, -, hH, -⟩ := execUpdateByte_next h
    exact .inl hH
  | finalize =>
    obtain ⟨-, -, -, -, -, -, -, hH, -⟩ := execFinalize_next h
    exact .inl hH

/-- Settles O56: one case for each thing a step can do. -/
theorem chainingStateChangesOnlyBy : Obligations.ChainingStateChangesOnlyBy := by
  intro s u h hne
  obtain ⟨rest, ⟨-, -, he⟩ | ⟨i, hi, he⟩ | ⟨ha, -, rfl⟩ | ⟨bytes, -, -, he⟩ | ⟨-, -, o, rfl⟩⟩ := step_next_effects h
  · obtain hH | hfeed | ⟨ht, hH⟩ := turn_H he
    · exact absurd hH hne
    · exact .inl hfeed
    · exact .inr (.inl ⟨.inr (.inr ht), hH⟩)
  · obtain hH | ⟨rfl | rfl, hH⟩ := exec_H he
    · exact absurd hH hne
    · exact .inr (.inl ⟨.inl hi, hH⟩)
    · exact .inr (.inl ⟨.inr (.inl hi), hH⟩)
  · exact .inr (.inr ha)
  · obtain ⟨-, -, -, -, -, -, -, -, hH, -⟩ := opUpdate_next he
    exact absurd hH hne
  · exact absurd rfl hne

end Sys2Proof.Machine
end

section
/-! From every state that meets the invariants the machine goes on, no operation makes the core fault, and what is in
progress ends (spec/60_exceptions.md section 5; spec/70_reset_and_hazards.md R220, R221, R230). -/

namespace Sys2Proof.Machine

theorem compressStep_progress (block : Block) (after : AfterBlock) {s : State} (hi : s.initSinceReset = true) :
    ∃ u, compressStep block after s = .next u := by
  cases hp : s.phase with
  | idle => exact ⟨_, compressStep_idle block after hp hi⟩
  | busy => exact ⟨_, compressStep_busy block after hp⟩

theorem drain_progress {s : State} (hi : s.initSinceReset = true) : ∃ u, drain s = .next u := by
  by_cases hl : s.pendingBuffer.length < 64
  · exact ⟨_, drain_short hl⟩
  · rw [drain_long (by omega)]
    exact compressStep_progress (s := s.dropFrontBlock) _ _ hi

theorem feedByte_progress (b : Byte) {s : State} (hi : s.initSinceReset = true) : ∃ u, feedByte b s = .next u := by
  by_cases hl : s.pendingBuffer.length = 63
  · rw [feedByte_block b hl]
    exact compressStep_progress (s := (s.fed [b]).clearPending) _ _ hi
  · exact ⟨_, feedByte_short b hl⟩

theorem finalize_progress {s : State} (hi : s.initSinceReset = true) : ∃ u, finalize s = .next u := by
  by_cases hl : s.pendingBuffer.length ≤ 55
  · rw [finalize_one hl]
    exact compressStep_progress (s := padLength s.totalBitLength (padByte s)) _ _ hi
  · rw [finalize_two (by omega)]
    exact compressStep_progress (s := padBlock (padByte s)) _ _ hi

/-- The machine's turn raises nothing and is refused nothing. -/
theorem turn_progress {s : State} (h : Inv s) : ∃ u, s.turn = .next u := by
  cases hp : s.phase with
  | busy => exact ⟨_, turn_busy hp⟩
  | idle =>
    rw [turn_idle hp, State.resume]
    cases ht : s.task with
    | nothing => exact ⟨_, rfl⟩
    | construct => exact ⟨_, constructNow_idle hp⟩
    | present block after =>
      exact compressStep_progress block after (h.waitInv (after := after) (by rw [ht]; rfl)).constructed_init
    | await after =>
      have hi := (h.waitInv (after := after) (by rw [ht]; rfl)).constructed_init
      cases after with
      | drain => exact drain_progress hi
      | padSecond L => exact compressStep_progress (s := padLength L s.clearPending) _ _ hi
      | digest => exact ⟨_, rfl⟩

/-- The outcomes of a framing operation that is not in another one's way: it goes on, or raises a fault of the framing
layer. -/
def FramingOutcome (r : Result) : Prop :=
  (∃ u, r = .next u) ∨ (∃ op, r = .fault (.notConstructed op)) ∨ (∃ op, r = .fault (.useAfterFinalize op)) ∨
    ∃ n, r = .fault (.lengthOverflow n)

theorem framingOutcome_guardPhase (op : FramingOp) {body : State → Result} {s : State}
    (hb : s.fePhase = .accumulating → ∃ u, body s = .next u) : FramingOutcome (guardPhase op body s) := by
  obtain ⟨-, e⟩ | ⟨-, e⟩ | ⟨hf, e⟩ := guardPhase_cases op body s
  · exact .inr (.inl ⟨op, e⟩)
  · exact .inr (.inr (.inl ⟨op, e⟩))
  · exact .inl (e ▸ hb hf)

theorem framingOutcome_guardUpdate (op : FramingOp) (n : Nat) {body : State → Result} {s : State}
    (hb : s.fePhase = .accumulating → ∃ u, body s = .next u) : FramingOutcome (guardUpdate op n body s) := by
  obtain ⟨-, e⟩ | ⟨-, e⟩ | ⟨-, -, e⟩ | ⟨hf, -, e⟩ := guardUpdate_cases op n body s
  · exact .inr (.inl ⟨op, e⟩)
  · exact .inr (.inr (.inl ⟨op, e⟩))
  · exact .inr (.inr (.inr ⟨n, e⟩))
  · exact .inl (e ▸ hb hf)

/-- Settles O39: an engine that accumulates has a chaining value, so every `NEXT` an operation issues is accepted. -/
theorem framingNeverFaultsCore : Obligations.FramingNeverFaultsCore := by
  intro s r h hr
  have hi : s.fePhase = .accumulating → s.initSinceReset = true := fun hf => h.constructed_init (by simp [hf])
  have hframing : FramingOutcome r := by
    obtain rfl | ⟨ht, rfl | ⟨b, rfl⟩ | ⟨bytes, rfl⟩ | rfl⟩ := hr
    · exact .inl (turn_progress h)
    · rw [execConstruct_free ht]
      cases hp : s.phase with
      | idle => exact .inl ⟨_, construct_idle hp⟩
      | busy => exact .inl ⟨_, construct_busy hp⟩
    · rw [execUpdateByte_free b ht]
      exact framingOutcome_guardUpdate _ _ fun hf => feedByte_progress b (hi hf)
    · rw [opUpdate, startOperation_nothing _ ht]
      exact framingOutcome_guardUpdate _ _ fun hf =>
        drain_progress (s := (s.appendPending bytes).countBytes bytes.length) (hi hf)
    · rw [execFinalize_free ht]
      exact framingOutcome_guardPhase _ fun hf => finalize_progress (hi hf)
  obtain ⟨u, rfl⟩ | ⟨op, rfl⟩ | ⟨op, rfl⟩ | ⟨n, rfl⟩ := hframing <;> simp

/-! ### What is in progress ends -/

theorem inv_turns (n : Nat) {s u : State} (h : Inv s) (hu : s.turns n = .next u) : Inv u := by
  induction n generalizing s with
  | zero =>
    cases hu
    exact h
  | succ n ih =>
    rw [turns_succ, andThen_eq_next] at hu
    obtain ⟨v, hv, hu⟩ := hu
    exact ih (inv_turn h hv) hu

theorem inv_complete {s u : State} (h : Inv s) (hu : s.complete = .next u) : Inv u := inv_turns _ h hu

theorem turns_progress (n : Nat) {s : State} (h : Inv s) : ∃ u, s.turns n = .next u := by
  induction n generalizing s with
  | zero => exact ⟨s, rfl⟩
  | succ n ih =>
    obtain ⟨v, hv⟩ := turn_progress h
    rw [turns_succ, hv]
    exact ih (inv_turn h hv)

theorem complete_progress {s : State} (h : Inv s) : ∃ u, s.complete = .next u := turns_progress _ h

theorem occupied_of_turnsLeft_pos {s : State} (h : 0 < s.turnsLeft) : s.occupied = true := by
  by_contra ho
  rw [turnsLeft_eq_zero.2 (by simpa using ho)] at h
  exact Nat.lt_irrefl 0 h

/-- Each turn but those after the end counts (R230). -/
theorem turns_turnsLeft (n : Nat) {s u : State} (hn : n ≤ s.turnsLeft) (hu : s.turns n = .next u) :
    u.turnsLeft + n = s.turnsLeft := by
  induction n generalizing s with
  | zero =>
    cases hu
    rfl
  | succ n ih =>
    rw [turns_succ, andThen_eq_next] at hu
    obtain ⟨v, hv, hu⟩ := hu
    have hleft := turn_turnsLeft (occupied_of_turnsLeft_pos (by omega)) hv
    have := ih (by omega) hu
    omega

/-- Completed, the machine has nothing in progress. -/
theorem complete_leaves_unoccupied {s u : State} (hu : s.complete = .next u) : u.phase = .idle ∧ u.task = .nothing := by
  have := turns_turnsLeft _ (Nat.le_refl _) hu
  exact occupied_eq_false.1 (turnsLeft_eq_zero.1 (by omega))

theorem turns_sameTables (n : Nat) {s u : State} (hu : s.turns n = .next u) : SameTables s u := by
  induction n generalizing s with
  | zero =>
    cases hu
    exact ⟨rfl, rfl, rfl⟩
  | succ n ih =>
    rw [turns_succ, andThen_eq_next] at hu
    obtain ⟨v, hv, hu⟩ := hu
    obtain ⟨hIV, hK, hs⟩ := turn_sameTables hv
    obtain ⟨hIV', hK', hs'⟩ := ih hu
    exact ⟨hIV'.trans hIV, hK'.trans hK, hs'.trans hs⟩

theorem complete_sameTables {s u : State} (hu : s.complete = .next u) : SameTables s u := turns_sameTables _ hu

theorem idle_turnsLeft {s : State} (hp : s.phase = .idle) :
    s.turnsLeft = s.task.turnsLeft s.pendingBuffer.length := by
  simp [State.turnsLeft, hp]

/-- R108: an update takes a `NEXT` for each whole block of buffer and bytes. -/
theorem opUpdate_turnsLeft {bytes : List Byte} {s u : State} (hp : s.phase = .idle)
    (h : opUpdate bytes s = .next u) : u.turnsLeft = 66 * ((s.pendingBuffer.length + bytes.length) / 64) := by
  obtain ⟨-, -, -, he, -⟩ := opUpdate_next h
  by_cases hl : s.pendingBuffer.length + bytes.length < 64
  · rw [feedBytes, drain_short (by simpa using hl)] at he
    cases he
    rw [idle_turnsLeft (by exact hp), Nat.div_eq_of_lt hl]
    rfl
  · rw [feedBytes, drain_long (by simp; omega)] at he
    rw [compressStep_turnsLeft (by exact hp) he]
    simp [AfterBlock.turnsLeft]
    omega

theorem execFinalize_turnsLeft {s u : State} (hp : s.phase = .idle) (h : exec .finalize s = .next u) :
    u.turnsLeft = 66 * if s.pendingBuffer.length ≤ 55 then 1 else 2 := by
  obtain ⟨ht, hf, -⟩ := execFinalize_next h
  rw [execFinalize_free ht, guardPhase_accumulating _ _ hf] at h
  by_cases hl : s.pendingBuffer.length ≤ 55
  · rw [finalize_one hl] at h
    rw [compressStep_turnsLeft (by exact hp) h, if_pos hl]
    rfl
  · rw [finalize_two (by omega)] at h
    rw [compressStep_turnsLeft (by exact hp) h, if_neg hl]
    rfl

/-- Settles O41: progress and the count of turns, along the run; the counts of the three operations at their start. -/
theorem framingOperationsTerminate : Obligations.FramingOperationsTerminate := by
  intro s h
  refine ⟨⟨fun ho => ?_, occupied_of_turnsLeft_pos⟩, fun ho => ?_, fun hw => ?_, fun ht hp u => ⟨fun b hu => ?_,
    fun bytes hu => opUpdate_turnsLeft hp hu, execFinalize_turnsLeft hp⟩⟩
  · by_contra hz
    rw [turnsLeft_eq_zero.1 (by omega)] at ho
    cases ho
  · obtain ⟨u, hu⟩ := turn_progress h
    exact ⟨u, hu, turn_turnsLeft ho hu⟩
  · obtain ⟨u, hu⟩ := complete_progress h
    obtain ⟨hp, ht⟩ := complete_leaves_unoccupied hu
    obtain ⟨-, -, hs⟩ := complete_sameTables hu
    exact ⟨u, (runSteps_complete hw).trans hu, hu, hp, (inv_complete h hu).ready_iff.2 hp, ht, hs⟩
  · have hl := h.pending_lt ht
    rw [opUpdate_turnsLeft hp (opUpdate_of_execUpdateByte hl hu), List.length_singleton]
    split <;> omega

/-! ### Reset in the middle -/

/-- A turn returns a string only where it ends a `FINALIZE`. -/
theorem turn_observed {s u : State} (h : s.turn = .next u) :
    u.observed = s.observed ∨ (s.phase = .idle ∧ s.task = .await .digest) := by
  obtain ⟨-, rfl⟩ | ⟨-, -, rfl⟩ | ⟨-, -, rfl⟩ | ⟨_, _, -, -, he⟩ | ⟨-, -, he⟩ | ⟨_, -, -, he⟩ | ⟨hp, ht, rfl⟩ :=
    turn_next_cases h
  · exact .inl (by simp)
  · exact .inl rfl
  · exact .inl rfl
  · obtain ⟨-, ho, -⟩ := compressStep_frame he
    exact .inl ho
  · obtain ⟨-, ho, -⟩ := drain_frame he
    exact .inl ho
  · obtain ⟨-, ho, -⟩ := compressBuffer_frame he
    exact .inl ho
  · exact .inr ⟨hp, ht⟩

/-- Before its last turn an operation returns nothing. -/
theorem turn_observed_of_not_last {s u : State} (hn : 1 < s.turnsLeft) (h : s.turn = .next u) :
    u.observed = s.observed := by
  obtain ho | ⟨hp, ht⟩ := turn_observed h
  · exact ho
  · rw [idle_turnsLeft hp, ht] at hn
    exact absurd hn (Nat.lt_irrefl 1)

theorem turn_busy_round {s u : State} (hb : s.phase = .busy) (hn : 1 < 65 - s.t.val) (h : s.turn = .next u) :
    u.phase = .busy ∧ u.H = s.H ∧ u.t.val = s.t.val + 1 := by
  rw [turn_busy hb] at h
  cases h
  obtain ⟨hb', ht, hH, -⟩ := coreSteps_busy s hb 1 (by omega)
  exact ⟨hb', hH, ht⟩

/-- Where `n` lines `IDLE` have led, fewer than what is in progress takes. -/
structure StillGoing (s : State) (n : Nat) (rest : List HostLine) (v : State) : Prop where
  inv : Inv v
  turnsLeft : v.turnsLeft + n = s.turnsLeft
  script : v.script = rest
  observed : v.observed = s.observed
  IV : v.IV = s.IV
  K : v.K = s.K
  rounds : s.phase = .busy → n < 65 - s.t.val → v.phase = .busy ∧ v.H = s.H ∧ v.t.val = s.t.val + n

/-- One `IDLE` line leaves the machine its turn (R141). -/
theorem step_idle_line {s : State} {lines : List HostLine} (h : Inv s) (hn : 1 < s.turnsLeft)
    (hs : s.script = presentNowLine .idle :: lines) : ∃ w, step s = .next w ∧ StillGoing s 1 lines w := by
  have h0 := inv_withScript h lines
  obtain ⟨w, hw⟩ := turn_progress h0
  obtain ⟨hIV, hK, hscript⟩ := turn_sameTables hw
  have hleft := turn_turnsLeft (s := { s with script := lines })
    (occupied_of_turnsLeft_pos (s := s) (by omega)) hw
  refine ⟨w, (step_take_idle hs rfl (decode_encode .idle)).trans hw, inv_turn h0 hw, hleft, hscript,
    turn_observed_of_not_last (s := { s with script := lines }) hn hw, hIV, hK, fun hb hlt => ?_⟩
  exact turn_busy_round (s := { s with script := lines }) hb hlt hw

theorem StillGoing.trans {s w v : State} {m n : Nat} {lines rest : List HostLine} (h : StillGoing s m lines w)
    (h' : StillGoing w n rest v) : StillGoing s (m + n) rest v where
  inv := h'.inv
  turnsLeft := by
    have := h.turnsLeft
    have := h'.turnsLeft
    omega
  script := h'.script
  observed := h'.observed.trans h.observed
  IV := h'.IV.trans h.IV
  K := h'.K.trans h.K
  rounds hb hlt := by
    obtain ⟨hb', hH, ht⟩ := h.rounds hb (by omega)
    obtain ⟨hb'', hH', ht'⟩ := h'.rounds hb' (by omega)
    exact ⟨hb'', hH'.trans hH, by omega⟩

theorem runSteps_idle_lines (n : Nat) {s : State} {rest : List HostLine} (h : Inv s) (hn : n < s.turnsLeft)
    (hs : s.script = List.replicate n (presentNowLine .idle) ++ rest) :
    ∃ v, runSteps n s = .next v ∧ StillGoing s n rest v := by
  induction n generalizing s with
  | zero => exact ⟨s, rfl, h, rfl, hs, rfl, rfl, rfl, fun hb _ => ⟨hb, rfl, rfl⟩⟩
  | succ n ih =>
    obtain ⟨w, hw, hgo⟩ := step_idle_line h (by omega) hs
    have hleft := hgo.turnsLeft
    obtain ⟨v, hv, hgo'⟩ := ih hgo.inv (by omega) hgo.script
    exact ⟨v, by rw [runSteps_succ, hw, andThen_next, hv], Nat.add_comm n 1 ▸ hgo.trans hgo'⟩

/-- Settles O45: after the `IDLE` lines something is still in progress, and the reset event forgets it. -/
theorem resetAbandonsWhatIsInProgress : Obligations.ResetAbandonsWhatIsInProgress := by
  intro s n rest h hn hs
  obtain ⟨v, hv, hgo⟩ := runSteps_idle_lines n h hn hs
  have hleft := hgo.turnsLeft
  have hreset : runSteps (n + 1) s = .next (State.resetEvent { v with script := rest }) := by
    rw [runSteps_add, hv, andThen_next, runSteps_one, step_take hgo.script rfl]
    rfl
  exact ⟨⟨v, hv, occupied_of_turnsLeft_pos (by omega), hgo.observed, hgo.rounds⟩, _, hreset, rfl, rfl, rfl, rfl, rfl, rfl,
    rfl, rfl, hgo.IV, hgo.K, hgo.observed, rfl, observe_digest_refused rfl, execNext_resetEvent _⟩

end Sys2Proof.Machine
end

section
/-! What the framing operations come to once completed: `CONSTRUCT` and the updates (spec/40_framing_update.md R101 to
R104, R108). -/

namespace Sys2Proof.Machine

@[simp] theorem idled_idled (s : State) : s.idled.idled = s.idled := idled_idle (idled_phase s)

/-! ### `CONSTRUCT` -/

/-- R101: done at once or after the wait, `CONSTRUCT` leaves a fresh engine on the core once it is ready. -/
theorem completed_construct (s : State) : completed (construct s) = .next s.idled.constructed := by
  cases hp : s.phase with
  | idle => rw [construct_idle hp, completed_next, idled_idle hp, complete_unoccupied (s := s.constructed) hp rfl]
  | busy =>
    rw [construct_busy hp, completed_next, complete_idled, idled_setTask, complete_idle (by simp)]
    show completed (constructNow (s.idled.setTask .construct)) = _
    rw [constructNow_idle (by simp), completed_next, complete_unoccupied (by simp) rfl]
    rfl

/-- Settles O26: at once on an idle core; on a busy one the task waits, and completes as a fresh engine. -/
theorem constructMakesFreshEngine : Obligations.ConstructMakesFreshEngine := by
  intro s ht
  rw [execConstruct_free ht]
  refine ⟨fun hp => ?_, fun hb => ⟨construct_busy hb, s.idled.constructed, completed_construct s, by simp, rfl, rfl, rfl,
    rfl, by simp, ?_, rfl, by simp, by simp, by simp, by simp⟩⟩
  · rw [construct_idle hp, State.constructed, ← ht]
    rfl
  · exact (idled_flags_busy hb).1

/-- A core that meets the invariants is ready once it is idle. -/
theorem idled_ready {s : State} (h : Inv s) : s.idled.ready = true := by
  cases hp : s.phase with
  | idle => rw [idled_idle hp, h.ready_iff, hp]
  | busy => exact (idled_flags_busy hp).1

/-- Settles O38: all that the two engines do not share is overwritten, or hidden. -/
theorem constructedEnginesAgree : Obligations.ConstructedEnginesAgree := by
  intro s s' h h' ht ht' hIV hK hs ho
  rw [execConstruct_free ht, execConstruct_free ht', completed_construct, completed_construct]
  exact {
    H := by simp [hIV]
    initSinceReset := rfl
    phase := by simp
    ready := by simp [idled_ready h, idled_ready h']
    digestValid := rfl
    IV := by simp [hIV]
    K := by simp [hK]
    pendingBuffer := rfl
    totalBitLength := rfl
    fePhase := rfl
    task := rfl
    script := by simp [hs]
    observed := by simp [ho]
    busy_regs := fun hb => by simp at hb
    busy_t := fun hb => by simp at hb
    busy_W := fun hb => by simp at hb }

/-! ### Updates -/

/-- What the drain loop comes to (R103, R108). -/
def State.drained (s : State) : Result := (s.setTask (.await .drain)).complete

theorem fed_fed (s : State) (xs ys : List Byte) : (s.fed xs).fed ys = s.fed (xs ++ ys) := by
  simp only [State.fed, State.appendPending, State.countBytes, List.append_assoc, List.length_append, Nat.mul_add,
    BitVec.ofNat_add, BitVec.add_assoc]

theorem idled_fed (s : State) (bytes : List Byte) : (s.fed bytes).idled = s.idled.fed bytes := by
  rw [State.fed, idled_countBytes, idled_appendPending, State.fed]

/-- Below the limit an update comes to the drain loop on the buffer with its bytes, once the core is idle. -/
theorem completed_opUpdate {s : State} (bytes : List Byte) (ht : s.task = .nothing) (hf : s.fePhase = .accumulating)
    (ho : s.totalBitLength.toNat + 8 * bytes.length < 2 ^ 64) :
    completed (opUpdate bytes s) = (s.idled.fed bytes).drained := by
  rw [opUpdate_accumulating bytes ht hf ho, completed_drain, idled_fed]
  rfl

theorem drained_short {s : State} (hp : s.phase = .idle) (hl : s.pendingBuffer.length < 64) :
    s.drained = .next (s.setTask .nothing) :=
  complete_drain_short hp hl

theorem drained_long {s : State} (hp : s.phase = .idle) (hi : s.initSinceReset = true)
    (hl : 64 ≤ s.pendingBuffer.length) :
    s.drained = (s.dropFrontBlock.afterNext (blockOfBytes s.frontBlock)).drained :=
  complete_drain_long hp hi hl

theorem drained_uninitialised {s : State} (hp : s.phase = .idle) (hi : s.initSinceReset = false)
    (hl : 64 ≤ s.pendingBuffer.length) : s.drained = .fault .coreUninitialised := by
  have h := completed_drain s
  rw [idled_idle hp, drain_long hl, compressStep_uninitialised (s := s.dropFrontBlock) _ _ hp hi] at h
  exact h.symm

/-- More bytes come after the oldest block. -/
theorem fed_dropFrontBlock_afterNext {s : State} (ys : List Byte) (hl : 64 ≤ s.pendingBuffer.length) :
    (s.dropFrontBlock.afterNext (blockOfBytes s.frontBlock)).fed ys =
      (s.fed ys).dropFrontBlock.afterNext (blockOfBytes (s.fed ys).frontBlock) := by
  have hfront : (s.fed ys).frontBlock = s.frontBlock := List.take_append_of_le_length hl
  have hdrop : (s.pendingBuffer ++ ys).drop 64 = s.pendingBuffer.drop 64 ++ ys := List.drop_append_of_le_length hl
  rw [hfront]
  simp only [State.fed, State.afterNext, State.dropFrontBlock, State.appendPending, State.countBytes, hdrop]

/-- R104: an update after the drain loop comes to the drain loop on all the bytes. -/
theorem drained_then_opUpdate {s : State} (ys : List Byte) (hp : s.phase = .idle) (hf : s.fePhase = .accumulating)
    (ho : s.totalBitLength.toNat + 8 * ys.length < 2 ^ 64) :
    andThen s.drained (fun u => completed (opUpdate ys u)) = (s.fed ys).drained := by
  induction hn : s.pendingBuffer.length / 64 generalizing s with
  | zero =>
    rw [drained_short hp (by omega), andThen_next, completed_opUpdate (s := s.setTask .nothing) ys rfl hf ho,
      idled_idle (by exact hp)]
    rfl
  | succ n ih =>
    have hl : 64 ≤ s.pendingBuffer.length := by omega
    have hl' : 64 ≤ (s.fed ys).pendingBuffer.length := by
      rw [fed_pendingBuffer, List.length_append]
      omega
    cases hi : s.initSinceReset with
    | true =>
      rw [drained_long hp hi hl, ih (s := s.dropFrontBlock.afterNext _) rfl hf ho (by simp; omega),
        fed_dropFrontBlock_afterNext ys hl, drained_long (s := s.fed ys) hp hi hl']
    | false => rw [drained_uninitialised hp hi hl, drained_uninitialised (s := s.fed ys) hp hi hl', andThen_fault]

/-- R104: two updates in a row, the second started when the first has completed, are one. -/
theorem completed_opUpdate_append {s : State} (xs ys : List Byte) (ht : s.task = .nothing)
    (hf : s.fePhase = .accumulating) (ho : s.totalBitLength.toNat + 8 * (xs.length + ys.length) < 2 ^ 64) :
    andThen (completed (opUpdate xs s)) (fun u => completed (opUpdate ys u)) = completed (opUpdate (xs ++ ys) s) := by
  have hx : s.totalBitLength.toNat + 8 * xs.length < 2 ^ 64 := by omega
  have hfed : (s.idled.fed xs).totalBitLength.toNat + 8 * ys.length < 2 ^ 64 := by
    rw [fed_totalBitLength, idled_totalBitLength, countBytes_toNat hx]
    omega
  rw [completed_opUpdate xs ht hf hx, completed_opUpdate (xs ++ ys) ht hf (by rwa [List.length_append]),
    drained_then_opUpdate ys (by simp) (by exact (idled_fePhase s).trans hf) hfed, fed_fed]

/-- Settles O30: with an operation in progress both sides are the same refusal; otherwise the drain loop goes on where it
stood. -/
theorem updateIsChunkInvariant : Obligations.UpdateIsChunkInvariant := by
  intro s xs ys hf ho
  by_cases ht : s.task = .nothing
  · exact completed_opUpdate_append xs ys ht hf ho
  · rw [opUpdate, opUpdate, startOperation_refused _ ht, startOperation_refused _ ht, completed_refused, andThen_refused]

/-- A completed outcome that goes on: the operation went on, and completed. -/
theorem completed_eq_next {r : Result} {v : State} (h : completed r = .next v) :
    ∃ u, r = .next u ∧ u.complete = .next v :=
  andThen_eq_next.1 h

/-- What an update below the limit leaves once completed, the core having finished first (R103, R108): the whole blocks
of buffer and bytes are chained, oldest first, and the rest is held. -/
theorem opUpdate_completes {s : State} (bytes : List Byte) (h : Inv s) (ht : s.task = .nothing)
    (hf : s.fePhase = .accumulating) (ho : s.totalBitLength.toNat + 8 * bytes.length < 2 ^ 64) :
    ∃ regs W t, completed (opUpdate bytes s) = .next { s.idled with
      H := chain s.K s.idled.H (s.pendingBuffer ++ bytes) ((s.pendingBuffer.length + bytes.length) / 64)
      pendingBuffer := (s.pendingBuffer ++ bytes).drop (64 * ((s.pendingBuffer.length + bytes.length) / 64))
      totalBitLength := s.totalBitLength + BitVec.ofNat 64 (8 * bytes.length)
      regs := regs, W := W, t := t } := by
  have hi : s.initSinceReset = true := h.constructed_init (by simp [hf])
  have hidled : Inv s.idled := inv_complete h (complete_nothing ht)
  obtain ⟨regs, W, t, hdrain⟩ := complete_drain (s := s.idled.fed bytes)
    (n := (s.pendingBuffer.length + bytes.length) / 64) (by simp) (by simp) (by simpa using hi) (idled_ready h)
    (hidled.digestValid_iff.2 (by simp [hi]))
  refine ⟨regs, W, t, (completed_opUpdate bytes ht hf ho).trans (hdrain.trans ?_)⟩
  have ht' : s.idled.task = .nothing := by simpa using ht
  simp only [idled_pendingBuffer, State.fed, State.countBytes, State.appendPending,
    idled_totalBitLength, idled_K, ← ht']

/-- A completed update leaves an engine that the next update finds as it found this one, with the count exact. -/
theorem opUpdate_completes_accumulating {s : State} (bytes : List Byte) (h : Inv s) (ht : s.task = .nothing)
    (hf : s.fePhase = .accumulating) (ho : s.totalBitLength.toNat + 8 * bytes.length < 2 ^ 64) :
    ∃ u, completed (opUpdate bytes s) = .next u ∧ Inv u ∧ u.task = .nothing ∧ u.fePhase = .accumulating ∧
      u.totalBitLength.toNat = s.totalBitLength.toNat + 8 * bytes.length := by
  obtain ⟨regs, W, t, hc⟩ := opUpdate_completes bytes h ht hf ho
  obtain ⟨v, hv, hv'⟩ := completed_eq_next hc
  exact ⟨_, hc, inv_complete (inv_opUpdate h hv) hv', (idled_task s).trans ht, (idled_fePhase s).trans hf,
    countBytes_toNat ho⟩

/-- Settles O29: the update has completed as `opUpdate_completes` says, from a core that is idle already. -/
theorem updateDrainsWholeBlocks : Obligations.UpdateDrainsWholeBlocks := by
  intro s bytes h ht hp hf ho
  obtain ⟨regs, W, t, hc⟩ := opUpdate_completes bytes h ht hf ho
  obtain ⟨u, hu, hc⟩ := completed_eq_next hc
  obtain ⟨-, -, -, -, -, -, -, -, hH, hL, -⟩ := opUpdate_next hu
  rw [idled_idle hp] at hc
  refine ⟨u, s.totalBitLength + BitVec.ofNat 64 (8 * bytes.length), regs, W, t, _, countBytes_toNat ho, rfl, ?_, hu,
    BitVec.eq_of_toNat_eq (hL.trans (countBytes_toNat ho).symm), hH, hc⟩
  rw [List.length_drop, List.length_append]
  omega

/-- `UPDATE_BYTE` for each byte, each started when the one before has completed (R80). -/
def feedOneByOne (bytes : List Byte) (s : State) : Result :=
  bytes.foldl (fun r b => andThen r fun u => completed (exec (.updateByte b) u)) s.complete

theorem feedOneByOne_concat (bytes : List Byte) (b : Byte) (s : State) :
    feedOneByOne (bytes ++ [b]) s = andThen (feedOneByOne bytes s) fun u => completed (exec (.updateByte b) u) :=
  List.foldl_concat ..

/-- R80, R104: below the limit the bytes one by one come to the whole update. -/
theorem feedOneByOne_eq_opUpdate {s : State} (bytes : List Byte) (h : Inv s) (ht : s.task = .nothing)
    (hf : s.fePhase = .accumulating) (ho : s.totalBitLength.toNat + 8 * bytes.length < 2 ^ 64) :
    feedOneByOne bytes s = completed (opUpdate bytes s) := by
  induction bytes using List.reverseRecOn with
  | nil => rw [emptyUpdateIsNoOp s ht hf (h.pending_lt ht), completed_next, feedOneByOne, List.foldl_nil]
  | append_singleton bytes b ih =>
    rw [List.length_append, List.length_singleton] at ho
    have ho' : s.totalBitLength.toNat + 8 * bytes.length < 2 ^ 64 := by omega
    obtain ⟨u, hc, hu, htu, hfu, hLu⟩ := opUpdate_completes_accumulating bytes h ht hf ho'
    have hbyte := execUpdateByte_eq_opUpdate b htu hfu (by omega) (hu.pending_lt htu)
    rw [feedOneByOne_concat, ih ho', ← completed_opUpdate_append bytes [b] ht hf (by simpa using ho), hc, andThen_next,
      andThen_next, hbyte]

/-- Settles O31: below the limit the two agree; past it the update raises, and the bytes that fit are an update that
completes. -/
theorem updateEqualsBytewiseExpansion : Obligations.UpdateEqualsBytewiseExpansion := by
  intro s bytes h ht hf
  refine ⟨feedOneByOne_eq_opUpdate bytes h ht hf, fun ho => ⟨opUpdate_overflow ht hf ho, fun n hn hlen => ?_⟩⟩
  have hn' : s.totalBitLength.toNat + 8 * (bytes.take n).length < 2 ^ 64 := by rwa [List.length_take_of_le hlen]
  obtain ⟨u, hc, -⟩ := opUpdate_completes_accumulating (bytes.take n) h ht hf hn'
  exact ⟨u, (feedOneByOne_eq_opUpdate (bytes.take n) h ht hf hn').trans hc⟩

/-- `UPDATE_BYTE` short of a block (R102). -/
theorem execUpdateByte_short {s : State} (b : Byte) (ht : s.task = .nothing) (hf : s.fePhase = .accumulating)
    (ho : s.totalBitLength.toNat + 8 < 2 ^ 64) (hl : s.pendingBuffer.length ≠ 63) :
    exec (.updateByte b) s = .next (s.fed [b]) := by
  rw [execUpdateByte_free b ht, guardUpdate_accumulating _ _ _ hf ho, feedByte_short b hl]

/-- `UPDATE_BYTE` with the byte that fills a block, on an idle core (R102). -/
theorem execUpdateByte_block {s : State} (b : Byte) (ht : s.task = .nothing) (hf : s.fePhase = .accumulating)
    (ho : s.totalBitLength.toNat + 8 < 2 ^ 64) (hl : s.pendingBuffer.length = 63) (hp : s.phase = .idle)
    (hi : s.initSinceReset = true) :
    exec (.updateByte b) s = .next
      (((s.fed [b]).clearPending.acceptNext (blockOfBytes (s.pendingBuffer ++ [b]))).setTask (.await .drain)) := by
  rw [execUpdateByte_free b ht, guardUpdate_accumulating _ _ _ hf ho, feedByte_block b hl]
  exact compressStep_idle (s := (s.fed [b]).clearPending) _ _ hp hi

/-- What is in progress while the core compresses a block and nothing is left to drain: it completes with it. -/
theorem await_drain_complete {s : State} (block : Block) (hl : s.pendingBuffer.length < 64) :
    ((s.acceptNext block).setTask (.await .drain)).complete = .next ((s.afterNext block).setTask .nothing) := by
  rw [complete_idled, idled_setTask, acceptNext_completes]
  exact drained_short (s := s.afterNext block) rfl hl

/-- Settles O27: one byte short of a block, or the block handed over and completed. -/
theorem updateByteFeedsOneByte : Obligations.UpdateByteFeedsOneByte := by
  intro s b ht hf ho
  have hL := countBytes_toNat (n := 1) ho
  refine ⟨fun hl => ⟨_, hL, execUpdateByte_short b ht hf ho hl⟩, fun hl hp hi => ?_⟩
  refine ⟨_, _, runRounds s.K (schedule (blockOfBytes (s.pendingBuffer ++ [b]))) (workingOf s.H),
    schedule (blockOfBytes (s.pendingBuffer ++ [b])), 64, hL, execUpdateByte_block b ht hf ho hl hp hi, rfl, rfl, rfl,
    rfl, hf, ?_⟩
  rw [await_drain_complete (s := (s.fed [b]).clearPending) _ (by simp)]
  simp only [State.afterNext, State.setTask, State.clearPending, State.fed, State.appendPending, State.countBytes,
    ← hp, ← ht, List.length_singleton]

end Sys2Proof.Machine
end

section
/-! What `FINALIZE` comes to, and that every framing operation comes to the same on a busy core as once the core is idle
(spec/41_framing_finalize.md R120 to R133; spec/40_framing_update.md R109; spec/70_reset_and_hazards.md R231). -/

namespace Sys2Proof.Machine

/-! ### On a busy core -/

/-- A `COMPRESS_STEP` waits for the core first (R109). -/
theorem completed_compressStep_idled (block : Block) (after : AfterBlock) (s : State) :
    completed (compressStep block after s) = completed (compressStep block after s.idled) := by
  rw [completed_compressStep, completed_compressStep, idled_idled, idled_initSinceReset]

theorem completed_compressBuffer_idled (after : AfterBlock) (s : State) :
    completed (compressBuffer after s) = completed (compressBuffer after s.idled) := by
  rw [compressBuffer, compressBuffer, completed_compressStep_idled, idled_pendingBuffer]

theorem idled_padLength (L : BitVec 64) (s : State) : (padLength L s).idled = padLength L s.idled := by
  simp only [padLength, idled_appendPending, idled_pendingBuffer]

theorem idled_padBlock (s : State) : (padBlock s).idled = padBlock s.idled := by
  simp only [padBlock, idled_appendPending, idled_pendingBuffer]

theorem idled_padByte (s : State) : (padByte s).idled = padByte s.idled := idled_appendPending s _

theorem completed_finalize_idled (s : State) : completed (finalize s) = completed (finalize s.idled) := by
  have hbuf : s.idled.pendingBuffer.length = s.pendingBuffer.length := congrArg _ (idled_pendingBuffer s)
  by_cases hl : s.pendingBuffer.length ≤ 55
  · rw [finalize_one hl, finalize_one (hbuf.trans_le hl), padLastBlock, padLastBlock, completed_compressBuffer_idled,
      idled_padLength, idled_padByte, idled_totalBitLength]
  · rw [finalize_two (by omega), finalize_two (by omega), completed_compressBuffer_idled, idled_padBlock, idled_padByte,
      idled_totalBitLength]

theorem completed_feedByte_idled (b : Byte) (s : State) :
    completed (feedByte b s) = completed (feedByte b s.idled) := by
  have hbuf := idled_pendingBuffer s
  by_cases hl : s.pendingBuffer.length = 63
  · rw [feedByte_block b hl, feedByte_block b (hbuf ▸ hl), completed_compressStep_idled, idled_clearPending, idled_fed,
      hbuf]
  · rw [feedByte_short b hl, feedByte_short b (hbuf ▸ hl), completed_next, complete_idled, idled_fed, completed_next]

theorem completed_drain_idled (s : State) : completed (drain s) = completed (drain s.idled) := by
  rw [completed_drain, completed_drain, idled_idled]

theorem completed_guardPhase_idled (op : FramingOp) {body : State → Result} {s : State}
    (hb : completed (body s) = completed (body s.idled)) :
    completed (guardPhase op body s) = completed (guardPhase op body s.idled) := by
  unfold guardPhase
  rw [idled_fePhase]
  split
  · rfl
  · rfl
  · exact hb

theorem completed_guardUpdate_idled (op : FramingOp) (n : Nat) {body : State → Result} {s : State}
    (hb : completed (body s) = completed (body s.idled)) :
    completed (guardUpdate op n body s) = completed (guardUpdate op n body s.idled) := by
  have hover : s.idled.wouldOverflow n = s.wouldOverflow n := by
    rw [State.wouldOverflow, State.wouldOverflow, idled_totalBitLength]
  refine completed_guardPhase_idled op ?_
  cases ho : s.wouldOverflow n with
  | true => simp only [hover, ho, if_true]
  | false => simpa only [hover, ho, Bool.false_eq_true, if_false] using hb

/-- The fields of the core are as they were. -/
def SameCore (s u : State) : Prop :=
  u.phase = s.phase ∧ u.t = s.t ∧ u.H = s.H ∧ u.regs = s.regs ∧ u.W = s.W ∧ u.ready = s.ready ∧
    u.digestValid = s.digestValid

theorem sameCore_compressStep {block : Block} {after : AfterBlock} {s u : State} (hb : s.phase = .busy)
    (h : compressStep block after s = .next u) : SameCore s u := by
  rw [compressStep_busy block after hb] at h
  cases h
  exact ⟨rfl, rfl, rfl, rfl, rfl, rfl, rfl⟩

theorem sameCore_drain {s u : State} (hb : s.phase = .busy) (h : drain s = .next u) : SameCore s u := by
  by_cases hl : s.pendingBuffer.length < 64
  · rw [drain_short hl] at h
    cases h
    exact ⟨rfl, rfl, rfl, rfl, rfl, rfl, rfl⟩
  · rw [drain_long (by omega)] at h
    exact sameCore_compressStep (s := s.dropFrontBlock) hb h

theorem sameCore_opUpdate {bytes : List Byte} {s u : State} (hb : s.phase = .busy) (h : opUpdate bytes s = .next u) :
    SameCore s u := by
  obtain ⟨-, -, -, he, -⟩ := opUpdate_next h
  exact sameCore_drain (s := (s.appendPending bytes).countBytes bytes.length) hb he

theorem sameCore_updateByte {b : Byte} {s u : State} (hb : s.phase = .busy) (h : exec (.updateByte b) s = .next u) :
    SameCore s u := by
  obtain ⟨-, -, -, he, -⟩ := execUpdateByte_next h
  by_cases hl : s.pendingBuffer.length = 63
  · rw [feedByte_block b hl] at he
    exact sameCore_compressStep (s := (s.fed [b]).clearPending) hb he
  · rw [feedByte_short b hl] at he
    cases he
    exact ⟨rfl, rfl, rfl, rfl, rfl, rfl, rfl⟩

theorem sameCore_finalize {s u : State} (hb : s.phase = .busy) (h : exec .finalize s = .next u) : SameCore s u := by
  obtain ⟨ht, hf, -⟩ := execFinalize_next h
  rw [execFinalize_free ht, guardPhase_accumulating _ _ hf] at h
  by_cases hl : s.pendingBuffer.length ≤ 55
  · rw [finalize_one hl] at h
    exact sameCore_compressStep (s := padLength s.totalBitLength (padByte s)) hb h
  · rw [finalize_two (by omega)] at h
    exact sameCore_compressStep (s := padBlock (padByte s)) hb h

theorem sameCore_construct {s u : State} (hb : s.phase = .busy) (h : exec .construct s = .next u) : SameCore s u := by
  rw [execConstruct_free (execConstruct_next h).1, construct_busy hb] at h
  cases h
  exact ⟨rfl, rfl, rfl, rfl, rfl, rfl, rfl⟩

/-- Settles O40: each operation comes to the same from `s` and from `s.idled`, and on a busy core it writes the framing
layer only. -/
theorem framingOperationsWaitForTheCore : Obligations.FramingOperationsWaitForTheCore := by
  intro s ht
  have ht' : s.idled.task = .nothing := (idled_task s).trans ht
  refine ⟨⟨s.idled, complete_nothing ht, idled_phase s, ht', ?_, ?_, fun b => ?_, fun bytes => ?_⟩, fun u hb h => ?_⟩
  · rw [execConstruct_free ht, execConstruct_free ht', completed_construct, completed_construct, idled_idled]
  · rw [execFinalize_free ht, execFinalize_free ht']
    exact completed_guardPhase_idled _ (completed_finalize_idled s)
  · rw [execUpdateByte_free b ht, execUpdateByte_free b ht']
    exact completed_guardUpdate_idled _ _ (completed_feedByte_idled b s)
  · rw [opUpdate, opUpdate, startOperation_nothing _ ht, startOperation_nothing _ ht']
    refine completed_guardUpdate_idled _ _ ?_
    rw [feedBytes, feedBytes, completed_drain_idled, idled_countBytes, idled_appendPending]
  · have hsame : SameCore s u := by
      obtain h | h | ⟨b, h⟩ | ⟨bytes, h⟩ := h
      · exact sameCore_construct hb h
      · exact sameCore_finalize hb h
      · exact sameCore_updateByte hb h
      · exact sameCore_opUpdate hb h
    obtain ⟨hp, hcore⟩ := hsame
    exact ⟨hp.trans hb, hcore⟩

/-! ### `FINALIZE` -/

/-- All that `FINALIZE` comes to on an idle core with a chaining value, if the buffer leaves room for the length (R122,
R124 to R128). -/
theorem completed_finalize_one {s : State} (hp : s.phase = .idle) (hi : s.initSinceReset = true)
    (hl : s.pendingBuffer.length ≤ 55) :
    completed (finalize s) = .next (returnDigest ((padLength s.totalBitLength (padByte s)).afterNext
      (blockOfBytes (padLength s.totalBitLength (padByte s)).pendingBuffer))) := by
  rw [finalize_one hl]
  exact completed_padLastBlock s.totalBitLength (s := padByte s) hp hi

/-- The state in which `FINALIZE`, its first block compressed, pads the second (R123). -/
def State.firstPadded (s : State) : State :=
  ((padBlock (padByte s)).afterNext (blockOfBytes (padBlock (padByte s)).pendingBuffer)).clearPending.setTask
    (.await (.padSecond s.totalBitLength))

/-- All that `FINALIZE` comes to, if the buffer leaves no room for the length (R123 to R128). -/
theorem completed_finalize_two {s : State} (hp : s.phase = .idle) (hi : s.initSinceReset = true)
    (hl : 56 ≤ s.pendingBuffer.length) :
    completed (finalize s) = .next (returnDigest ((padLength s.totalBitLength s.firstPadded).afterNext
      (blockOfBytes (padLength s.totalBitLength s.firstPadded).pendingBuffer))) := by
  rw [finalize_two hl, completed_firstBlock (s := padBlock (padByte s)) _ hp hi]
  exact completed_padLastBlock s.totalBitLength (s := s.firstPadded) rfl hi

theorem completed_finalize_uninitialised {s : State} (hp : s.phase = .idle) (hi : s.initSinceReset = false) :
    completed (finalize s) = .fault .coreUninitialised := by
  by_cases hl : s.pendingBuffer.length ≤ 55
  · rw [finalize_one hl, padLastBlock, compressBuffer,
      compressStep_uninitialised (s := padLength s.totalBitLength (padByte s)) _ _ hp hi, completed_fault]
  · rw [finalize_two (by omega), compressBuffer, compressStep_uninitialised (s := padBlock (padByte s)) _ _ hp hi,
      completed_fault]

/-- In every case `FINALIZE` ends with the completion of a `NEXT` and the return of the digest string (R126 to R128). -/
theorem completed_finalize_next {s u : State} (h : completed (finalize s) = .next u) :
    ∃ (v : State) (block : Block), v.observed = s.observed ∧ u = returnDigest (v.afterNext block) := by
  rw [completed_finalize_idled] at h
  have hp := idled_phase s
  cases hi : s.idled.initSinceReset with
  | false =>
    rw [completed_finalize_uninitialised hp hi] at h
    cases h
  | true =>
    by_cases hl : s.idled.pendingBuffer.length ≤ 55
    · rw [completed_finalize_one hp hi hl] at h
      cases h
      exact ⟨padLength s.idled.totalBitLength (padByte s.idled), _, idled_observed s, rfl⟩
    · rw [completed_finalize_two hp hi (by omega)] at h
      cases h
      exact ⟨padLength s.idled.totalBitLength s.idled.firstPadded, _, idled_observed s, rfl⟩

theorem completed_execFinalize_next {s u : State} (h : completed (exec .finalize s) = .next u) :
    ∃ (v : State) (block : Block), v.observed = s.observed ∧ u = returnDigest (v.afterNext block) := by
  obtain ⟨w, hw, hc⟩ := completed_eq_next h
  obtain ⟨ht, hf, -⟩ := execFinalize_next hw
  rw [execFinalize_free ht, guardPhase_accumulating _ _ hf] at h
  exact completed_finalize_next h

/-- Settles O34: what is appended is the digest string of the chaining state that is left. -/
theorem digestStringForm : Obligations.DigestStringForm := by
  intro s u h
  obtain ⟨v, block, ho, hu⟩ := completed_execFinalize_next h
  have hobs : u.observed = s.observed ++ [.digestStr (digestString u.H)] := by
    rw [hu, returnDigest_observed, afterNext_observed, ho, returnDigest_H]
  exact ⟨digestString u.H, hobs, digestString_length u.H, digestString_mem u.H, digestString_getElem? u.H,
    digestString_getElem?_port u.H⟩

/-- Settles O58: the last thing before the string is the completion of a `NEXT`. -/
theorem finalizeEndsTheRun : Obligations.FinalizeEndsTheRun := by
  intro s u h
  obtain ⟨v, block, -, rfl⟩ := completed_execFinalize_next h
  exact ⟨rfl, rfl, rfl, rfl, rfl⟩

/-! ### The blocks of the padding -/

/-- A stream that begins with a whole block. -/
theorem chain_block_append (K : Words64) (H : Words8) {block : List Byte} (stream : List Byte) (n : Nat)
    (hb : block.length = 64) :
    chain K H (block ++ stream) (n + 1) = chain K (compress H (blockOfBytes block) K) stream n := by
  rw [chain_succ, List.drop_left' hb, blockAt, Nat.mul_zero, List.drop_zero, List.take_left' hb]

theorem chain_one (K : Words64) (H : Words8) {block : List Byte} (hb : block.length = 64) :
    chain K H block 1 = compress H (blockOfBytes block) K := by
  have h := chain_block_append K H [] 0 hb
  rwa [List.append_nil, chain_zero] at h

/-- R129: with room for the length the padding is one block with what it pads. -/
theorem padded_one {s : State} (hl : s.pendingBuffer.length ≤ 55) :
    (padLength s.totalBitLength (padByte s)).pendingBuffer =
      s.pendingBuffer ++ padding s.pendingBuffer.length s.totalBitLength := by
  have hz : padZeros s.pendingBuffer.length = 56 - (s.pendingBuffer.length + 1) := by
    unfold padZeros
    omega
  simp only [padLength_pendingBuffer, padByte_pendingBuffer, padding, hz, List.length_append, List.length_singleton,
    List.append_assoc]

/-- R129: without it, it is a block that ends in zeros, and a block of zeros and the length. -/
theorem padded_two {s : State} (hlo : 56 ≤ s.pendingBuffer.length) (hhi : s.pendingBuffer.length < 64) :
    (padBlock (padByte s)).pendingBuffer ++ (padLength s.totalBitLength s.firstPadded).pendingBuffer =
      s.pendingBuffer ++ padding s.pendingBuffer.length s.totalBitLength := by
  have hz : zeros (padZeros s.pendingBuffer.length) = zeros (64 - (s.pendingBuffer.length + 1)) ++ zeros 56 := by
    have hsum : padZeros s.pendingBuffer.length = (64 - (s.pendingBuffer.length + 1)) + 56 := by
      unfold padZeros
      omega
    rw [hsum, zeros, List.replicate_add, ← zeros, ← zeros]
  simp only [padLength_pendingBuffer, padBlock_pendingBuffer, padByte_pendingBuffer, State.firstPadded,
    State.setTask_pendingBuffer, State.clearPending_pendingBuffer, padding, hz, List.length_append,
    List.length_singleton, List.length_nil, List.nil_append, List.append_assoc, Nat.sub_zero]

/-- The end of `FINALIZE`, where all but the core and the buffer is still as it was in `s`. -/
theorem returnDigest_afterNext {s v : State} (block : Block)
    (hv : v.initSinceReset = s.initSinceReset ∧ v.IV = s.IV ∧ v.K = s.K ∧ v.totalBitLength = s.totalBitLength ∧
      v.script = s.script ∧ v.observed = s.observed)
    (ht : s.task = .nothing) (hp : s.phase = .idle) (hr : s.ready = true) (hd : s.digestValid = true) :
    ∃ regs W t, returnDigest (v.afterNext block) = { s with
      H := compress v.H block s.K, regs := regs, W := W, t := t
      pendingBuffer := [], fePhase := .finalized
      observed := s.observed ++ [.digestStr (digestString (compress v.H block s.K))] } := by
  obtain ⟨hi, hIV, hK, hL, hs, ho⟩ := hv
  refine ⟨runRounds v.K (schedule block) (workingOf v.H), schedule block, 64, ?_⟩
  simp only [returnDigest, State.record, State.afterNext, hi, hIV, hK, hL, hs, ho, ht, hp, hr, hd]

/-- What `FINALIZE` leaves once completed, from an idle engine that accumulates (R120 to R129). -/
theorem finalize_completes {s : State} (h : Inv s) (ht : s.task = .nothing) (hp : s.phase = .idle)
    (hf : s.fePhase = .accumulating) : ∃ H regs W t,
      H = chain s.K s.H (s.pendingBuffer ++ padding s.pendingBuffer.length s.totalBitLength)
        (if s.pendingBuffer.length ≤ 55 then 1 else 2) ∧
      completed (exec .finalize s) = .next { s with
        H := H, regs := regs, W := W, t := t
        pendingBuffer := [], fePhase := .finalized
        observed := s.observed ++ [.digestStr (digestString H)] } := by
  have hi : s.initSinceReset = true := h.constructed_init (by simp [hf])
  have hr : s.ready = true := h.ready_iff.2 hp
  have hd : s.digestValid = true := h.digestValid_iff.2 ⟨hp, hi⟩
  have hlt := h.pending_lt ht
  rw [execFinalize_free ht, guardPhase_accumulating _ _ hf]
  by_cases hl : s.pendingBuffer.length ≤ 55
  · have hlen := padLength_length s.totalBitLength (s := padByte s) (by simp; omega)
    obtain ⟨regs, W, t, he⟩ := returnDigest_afterNext (s := s) (v := padLength s.totalBitLength (padByte s))
      (blockOfBytes (padLength s.totalBitLength (padByte s)).pendingBuffer) ⟨rfl, rfl, rfl, rfl, rfl, rfl⟩ ht hp hr hd
    refine ⟨_, regs, W, t, ?_, (completed_finalize_one hp hi hl).trans (congrArg _ he)⟩
    rw [if_pos hl, ← padded_one hl, chain_one _ _ hlen]
    rfl
  · have hlen := padBlock_length (s := padByte s) (by simp; omega)
    have hlen' := padLength_length s.totalBitLength (s := s.firstPadded) (by simp [State.firstPadded])
    obtain ⟨regs, W, t, he⟩ := returnDigest_afterNext (s := s) (v := padLength s.totalBitLength s.firstPadded)
      (blockOfBytes (padLength s.totalBitLength s.firstPadded).pendingBuffer) ⟨rfl, rfl, rfl, rfl, rfl, rfl⟩ ht hp hr hd
    refine ⟨_, regs, W, t, ?_, (completed_finalize_two hp hi (by omega)).trans (congrArg _ he)⟩
    rw [if_neg hl, ← padded_two (by omega) hlt, chain_block_append _ _ _ 1 hlen, chain_one _ _ hlen']
    rfl

/-- Settles O33: the first `NEXT` is accepted with the rest as it was, and the completion is `finalize_completes`. -/
theorem finalizePadsAndReturnsDigest : Obligations.FinalizePadsAndReturnsDigest := by
  intro s h ht hp hf
  obtain ⟨H, regs, W, t, hH, hc⟩ := finalize_completes h ht hp hf
  obtain ⟨u, hu, hc⟩ := completed_eq_next hc
  obtain ⟨-, -, -, ho, hL, hf', -, hH', -⟩ := execFinalize_next hu
  exact ⟨u, H, regs, W, t, hH, hu, execFinalize_leaves_busy hu, hH', hf', hL, ho, hc⟩

end Sys2Proof.Machine
end

section
/-! Script lines: which of them wait, the line `UPDATE` with its checks and its bytes, and the line `HASH`
(spec/30_encoding.md R79, R80; spec/40_framing_update.md R103, R107; spec/41_framing_finalize.md R129, R130). -/

namespace Sys2Proof.Machine

/-! ### The wait before a line -/

/-- Every line but `NEXT!`, `INIT!` and an `UPDATE` of no byte begins with a wait for completion. -/
theorem expandLine_waits {line : ScriptLine} (hn : ∀ bytes, line ≠ .nextNow bytes) (hi : line ≠ .initNow)
    (hu : line ≠ .update []) (ht : line ≠ .updateText []) : ∃ a lines, expandLine line = ⟨.completion, a⟩ :: lines := by
  cases line with
  | nextNow bytes => exact absurd rfl (hn bytes)
  | initNow => exact absurd rfl hi
  | update bytes =>
    cases bytes with
    | nil => exact absurd rfl hu
    | cons b bs => exact ⟨_, _, rfl⟩
  | updateText text =>
    cases text with
    | nil => exact absurd rfl ht
    | cons c cs => exact ⟨_, _, rfl⟩
  | _ => exact ⟨_, _, rfl⟩

theorem step_presentNowLine {s : State} {i : Instr} {rest : List HostLine} (hs : s.script = presentNowLine i :: rest)
    (hi : i ≠ .idle) : step s = exec i { s with script := rest } :=
  step_take_instr_ne_idle hs rfl (decode_encode i) hi

/-- An `UPDATE` of no byte is nothing but its checks. -/
theorem expandLine_empty_update {line : ScriptLine} (h : line = .update [] ∨ line = .updateText []) :
    expandLine line = [⟨.phase, .checkUpdate 0⟩] := by
  obtain rfl | rfl := h <;> rfl

/-- The checks of an `UPDATE`, with no operation in progress that changes `fe_phase`. -/
theorem checkUpdate_free {s : State} (n : Nat) (ht : s.task.changesPhase = false) :
    checkUpdate n s = guardUpdate .update n .next s := by
  rw [checkUpdate, if_neg (by simp [ht])]

/-- A line that waits for completion: the machine takes its turns, then the line is taken from what they left (R79). -/
theorem waitingLine_completes {s : State} {a : Action} {lines : List HostLine} (h : Inv s)
    (hs : s.script = ⟨.completion, a⟩ :: lines) :
    (∀ n : Nat, n ≤ s.turnsLeft → runSteps n s = s.turns n) ∧
      ∃ u, s.complete = .next u ∧ u.occupied = false ∧ u.script = s.script ∧ u.IV = s.IV ∧ u.K = s.K ∧
        step u = act a { u with script := lines } := by
  have hw : ∀ line rest, s.script = line :: rest → line.wait = .completion := by
    intro line rest e
    rw [hs] at e
    injection e with e
    rw [← e]
  obtain ⟨u, hu⟩ := complete_progress h
  obtain ⟨hIV, hK, hscript⟩ := complete_sameTables hu
  have hocc : u.occupied = false := occupied_eq_false.2 (complete_leaves_unoccupied hu)
  exact ⟨fun n hn => runSteps_turns n hn hw, u, hu, hocc, hscript, hIV, hK,
    step_take (hscript.trans hs) (waitsFor_unoccupied hocc _)⟩

/-- Settles O59: a line that waits by `waitingLine_completes`, the two that do not by their decoded word, and the empty
`UPDATE` by its checks. -/
theorem scriptLinesWaitForTheLineBefore : Obligations.ScriptLinesWaitForTheLineBefore := by
  refine ⟨fun s line rest h hs => ⟨fun hn hi hu ht => ?_, fun bytes e => ?_, fun e => ?_⟩, fun s line rest hline hs => ?_⟩
  · obtain ⟨a, lines, he⟩ := expandLine_waits hn hi hu ht
    have hs' : s.script = ⟨.completion, a⟩ :: (lines ++ rest) := by rw [hs, he, List.cons_append]
    obtain ⟨hturns, u, hu, hocc, hscript, hIV, hK, hstep⟩ := waitingLine_completes h hs'
    refine ⟨hturns, u, hu, hocc, hscript, fun e => ?_⟩
    subst e
    cases he
    exact ⟨_, hstep, rfl, rfl, rfl, rfl, rfl, rfl, rfl, rfl, hIV, hK, rfl, rfl⟩
  · subst e
    exact step_presentNowLine hs (by simp)
  · subst e
    exact step_presentNowLine hs (by simp)
  · rw [expandLine_empty_update hline] at hs
    refine ⟨fun hbusy => step_wait hs (changesPhase_eq_true.2 hbusy), fun hc hf => ?_⟩
    have hfree := changesPhase_eq_false.2 ⟨hc, hf⟩
    have hstep : step s = guardUpdate .update 0 .next { s with script := rest } :=
      (step_take hs hfree).trans (checkUpdate_free (s := { s with script := rest }) 0 hfree)
    have htaken : s.fePhase = .accumulating → step s = .next { s with script := rest } := fun hacc =>
      hstep.trans (guardUpdate_accumulating (s := { s with script := rest }) _ _ _ hacc s.totalBitLength.isLt)
    refine ⟨htaken, fun hun => ?_, fun hfin => ?_, fun hacc hb => ⟨fun bytes rest' e => ?_, fun rest' e => ?_⟩⟩
    · rw [hstep]
      simp [guardUpdate, guardPhase, hun, raise]
    · rw [hstep]
      simp [guardUpdate, guardPhase, hfin, raise]
    · rw [runSteps_succ, htaken hacc, andThen_next, runSteps_one,
        step_presentNowLine (s := { s with script := rest }) e (by simp)]
      exact execNext_busy_fault _ hb
    · rw [runSteps_succ, htaken hacc, andThen_next, runSteps_one,
        step_presentNowLine (s := { s with script := rest }) e (by simp)]
      exact execInit_busy_fault hb

/-! ### The bytes of an `UPDATE` line -/

/-- The lines that feed the bytes one by one (R80). -/
def byteLines (bytes : List Byte) : List HostLine := bytes.map fun b => presentLine (.updateByte b)

/-- `UPDATE` is its checks, then its bytes. -/
theorem updateLines_eq (bytes : List Byte) :
    ∃ wait, updateLines bytes = ⟨wait, .checkUpdate bytes.length⟩ :: byteLines bytes := by
  cases bytes with
  | nil => exact ⟨.phase, rfl⟩
  | cons b bs => exact ⟨.completion, rfl⟩

/-- A text with the byte values of a byte sequence is that sequence (R80). -/
theorem map_asciiByte_eq {text : List Char} {bytes : List Byte}
    (h : bytes.map BitVec.toNat = text.map Char.toNat) : text.map asciiByte = bytes := by
  have hb := congrArg (List.map (BitVec.ofNat 8)) h
  show text.map (fun c => BitVec.ofNat 8 c.toNat) = bytes
  simpa [Function.comp_def] using hb.symm

/-- What an update of `bytes` leaves, from an idle engine that accumulates, when it is completed (R103, R106). -/
structure Updated (s : State) (bytes : List Byte) (u : State) : Prop where
  inv : Inv u
  idle : u.phase = .idle
  nothing : u.task = .nothing
  accumulating : u.fePhase = .accumulating
  H : u.H = chain s.K s.H (s.pendingBuffer ++ bytes) ((s.pendingBuffer.length + bytes.length) / 64)
  pendingBuffer : u.pendingBuffer =
    (s.pendingBuffer ++ bytes).drop (64 * ((s.pendingBuffer.length + bytes.length) / 64))
  total : u.totalBitLength.toNat = s.totalBitLength.toNat + 8 * bytes.length
  IV : u.IV = s.IV
  K : u.K = s.K
  observed : u.observed = s.observed

/-- What the host will still do is no part of it. -/
theorem Updated.of_withScript {s u : State} {lines : List HostLine} {bytes : List Byte}
    (h : Updated { s with script := lines } bytes u) : Updated s bytes u :=
  ⟨h.inv, h.idle, h.nothing, h.accumulating, h.H, h.pendingBuffer, h.total, h.IV, h.K, h.observed⟩

theorem Updated.pending_length {s u : State} {bytes : List Byte} (h : Updated s bytes u) :
    u.pendingBuffer.length = (s.pendingBuffer.length + bytes.length) % 64 := by
  rw [h.pendingBuffer, List.length_drop, List.length_append]
  omega

/-- Two updates in a row chain the blocks of all their bytes. -/
theorem Updated.trans {s w u : State} {xs ys : List Byte} (h : Updated s xs w) (h' : Updated w ys u) :
    Updated s (xs ++ ys) u := by
  have hlen := h.pending_length
  have hblocks : (s.pendingBuffer.length + (xs ++ ys).length) / 64 =
      (s.pendingBuffer.length + xs.length) / 64 + (w.pendingBuffer.length + ys.length) / 64 := by
    rw [List.length_append, hlen]
    omega
  have hwhole : 64 * ((s.pendingBuffer.length + xs.length) / 64) ≤ (s.pendingBuffer ++ xs).length := by
    rw [List.length_append]
    omega
  have hstream : w.pendingBuffer ++ ys =
      (s.pendingBuffer ++ (xs ++ ys)).drop (64 * ((s.pendingBuffer.length + xs.length) / 64)) := by
    rw [h.pendingBuffer, ← List.append_assoc, List.drop_append_of_le_length hwhole]
  refine ⟨h'.inv, h'.idle, h'.nothing, h'.accumulating, ?_, ?_, ?_, h'.IV.trans h.IV, h'.K.trans h.K,
    h'.observed.trans h.observed⟩
  · rw [h'.H, hblocks, chain_add, ← hstream, h.K, h.H, ← List.append_assoc, chain_append _ _ _ ys _ hwhole]
  · rw [h'.pendingBuffer, hblocks, hstream, List.drop_drop, Nat.mul_add]
  · rw [h'.total, h.total, List.length_append]
    omega

theorem updated_nil {s : State} (h : Inv s) (hp : s.phase = .idle) (ht : s.task = .nothing)
    (hf : s.fePhase = .accumulating) : Updated s [] s := by
  have hl := h.pending_lt ht
  have hzero : (s.pendingBuffer.length + ([] : List Byte).length) / 64 = 0 := Nat.div_eq_of_lt hl
  refine ⟨h, hp, ht, hf, ?_, ?_, rfl, rfl, rfl, rfl⟩
  · rw [hzero, chain_zero]
  · rw [hzero, List.append_nil, Nat.mul_zero, List.drop_zero]

/-- One byte: it is fed, its line taken from before `rest`, and completes (R102). -/
theorem updateByte_updates {s : State} (b : Byte) (rest : List HostLine) (h : Inv s) (hp : s.phase = .idle)
    (ht : s.task = .nothing) (hf : s.fePhase = .accumulating) (ho : s.totalBitLength.toNat + 8 < 2 ^ 64) :
    ∃ u v, exec (.updateByte b) { s with script := rest } = .next u ∧
      u.turnsLeft = 66 * ((s.pendingBuffer.length + 1) / 64) ∧ u.complete = .next v ∧ Updated s [b] v ∧
      v.script = rest := by
  have h' := inv_withScript h rest
  obtain ⟨regs, W, t, hc⟩ := opUpdate_completes (s := { s with script := rest }) [b] h' ht hf ho
  obtain ⟨u, hu, hcomplete⟩ := completed_eq_next hc
  have hinv := inv_complete (inv_opUpdate h' hu) hcomplete
  rw [idled_idle (s := { s with script := rest }) hp] at hcomplete hinv
  exact ⟨u, _, (execUpdateByte_eq_opUpdate (s := { s with script := rest }) b ht hf ho (h.pending_lt ht)).trans hu,
    opUpdate_turnsLeft (s := { s with script := rest }) hp hu, hcomplete,
    ⟨hinv, hp, ht, hf, rfl, rfl, countBytes_toNat (n := 1) ho, rfl, rfl, rfl⟩, rfl⟩

/-- The next line of the host, if there is one, waits for completion. -/
def Waits (lines : List HostLine) : Prop := ∀ line rest, lines = line :: rest → line.wait = .completion

theorem waits_presentLine (i : Instr) (rest : List HostLine) : Waits (presentLine i :: rest) := by
  intro line rest' e
  injection e with e
  rw [← e]
  rfl

theorem waits_byteLines (bytes : List Byte) {rest : List HostLine} (hw : Waits rest) :
    Waits (byteLines bytes ++ rest) := by
  cases bytes with
  | nil => exact hw
  | cons b bs => exact waits_presentLine _ _

/-- A line of an operation, and the wait after it. -/
theorem runSteps_operation_line {s u : State} {i : Instr} {rest : List HostLine} (hs : s.script = presentLine i :: rest)
    (hp : s.phase = .idle) (ht : s.task = .nothing) (hi : i ≠ .idle) (hw : Waits rest)
    (hu : exec i { s with script := rest } = .next u) : runSteps (1 + u.turnsLeft) s = u.complete := by
  obtain ⟨-, -, hscript⟩ := exec_sameTables hu
  rw [runSteps_add, runSteps_one, step_presentLine hs hp ht hi, hu, andThen_next,
    runSteps_complete (by rw [hscript]; exact hw)]

/-- The bytes fed one by one, each after the one before has completed, the last one completed too: 66 turns for each block
(R80, R103). -/
theorem runSteps_byteLines (bytes : List Byte) {s : State} {rest : List HostLine} (h : Inv s) (hp : s.phase = .idle)
    (ht : s.task = .nothing) (hf : s.fePhase = .accumulating)
    (ho : s.totalBitLength.toNat + 8 * bytes.length < 2 ^ 64) (hs : s.script = byteLines bytes ++ rest)
    (hw : Waits rest) :
    ∃ u, runSteps (bytes.length + 66 * ((s.pendingBuffer.length + bytes.length) / 64)) s = .next u ∧
      Updated s bytes u ∧ u.script = rest := by
  induction bytes generalizing s with
  | nil =>
    have hzero : (s.pendingBuffer.length + ([] : List Byte).length) / 64 = 0 := Nat.div_eq_of_lt (h.pending_lt ht)
    rw [hzero]
    exact ⟨s, rfl, updated_nil h hp ht hf, hs⟩
  | cons b bs ih =>
    rw [List.length_cons] at ho
    obtain ⟨u, v, hu, hleft, hcomplete, hupd, hscript⟩ :=
      updateByte_updates b (byteLines bs ++ rest) h hp ht hf (by omega)
    obtain ⟨w, hrun, hupd', hscript'⟩ := ih hupd.inv hupd.idle hupd.nothing hupd.accumulating
      (by rw [hupd.total, List.length_singleton]; omega) hscript
    have hline := runSteps_operation_line hs hp ht (by simp) (waits_byteLines bs hw) hu
    have hlen : v.pendingBuffer.length = (s.pendingBuffer.length + 1) % 64 := hupd.pending_length
    have hsteps : (b :: bs).length + 66 * ((s.pendingBuffer.length + (b :: bs).length) / 64) =
        (1 + u.turnsLeft) + (bs.length + 66 * ((v.pendingBuffer.length + bs.length) / 64)) := by
      rw [hleft, hlen, List.length_cons]
      omega
    exact ⟨w, by rw [hsteps, runSteps_add, hline, hcomplete, andThen_next, hrun], hupd.trans hupd', hscript'⟩

/-! ### The line `UPDATE` -/

/-- The first step of an `UPDATE` line on an unoccupied machine is its checks. -/
theorem step_updateLines {s : State} {bytes : List Byte} {rest : List HostLine} (hp : s.phase = .idle)
    (ht : s.task = .nothing) (hs : s.script = updateLines bytes ++ rest) :
    step s = guardUpdate .update bytes.length .next { s with script := byteLines bytes ++ rest } := by
  obtain ⟨wait, he⟩ := updateLines_eq bytes
  rw [he, List.cons_append] at hs
  rw [step_take hs (waitsFor_unoccupied (occupied_eq_false.2 ⟨hp, ht⟩) _)]
  exact checkUpdate_free (s := { s with script := byteLines bytes ++ rest }) _ (by rw [ht]; rfl)

theorem step_updateLines_accumulating {s : State} {bytes : List Byte} {rest : List HostLine} (hp : s.phase = .idle)
    (ht : s.task = .nothing) (hf : s.fePhase = .accumulating) (ho : s.totalBitLength.toNat + 8 * bytes.length < 2 ^ 64)
    (hs : s.script = updateLines bytes ++ rest) : step s = .next { s with script := byteLines bytes ++ rest } := by
  rw [step_updateLines hp ht hs,
    guardUpdate_accumulating (s := { s with script := byteLines bytes ++ rest }) _ _ _ hf ho]

theorem byteLines_concat (bytes : List Byte) (b : Byte) (rest : List HostLine) :
    byteLines (bytes ++ [b]) ++ rest = byteLines bytes ++ (presentLine (.updateByte b) :: rest) := by
  simp [byteLines]

/-- After the byte of an `UPDATE_BYTE` the core is busy, and the operation in progress, exactly when it filled a block. -/
theorem updateByte_busy_iff {s u : State} {b : Byte} (hp : s.phase = .idle) (h : exec (.updateByte b) s = .next u) :
    (u.phase = .busy ↔ s.pendingBuffer.length = 63) ∧ (u.task = .nothing ↔ s.pendingBuffer.length ≠ 63) := by
  obtain ⟨ht, -, -, he, -⟩ := execUpdateByte_next h
  by_cases hl : s.pendingBuffer.length = 63
  · rw [feedByte_block b hl] at he
    obtain ⟨-, -, -, -, -, -, -, hafter⟩ := compressStep_frame he
    exact ⟨iff_of_true (compressStep_leaves_busy he) hl,
      iff_of_false (task_ne_nothing_of_after hafter) (not_not.2 hl)⟩
  · rw [feedByte_short b hl] at he
    cases he
    exact ⟨iff_of_false (by simp [hp]) hl, iff_of_true ht hl⟩

/-- The bytes fed one by one, up to the step that feeds the last one. -/
theorem runSteps_byteLines_last {s : State} (bytes : List Byte) (b : Byte) {rest : List HostLine} (h : Inv s)
    (hp : s.phase = .idle) (ht : s.task = .nothing) (hf : s.fePhase = .accumulating)
    (ho : s.totalBitLength.toNat + 8 * (bytes.length + 1) < 2 ^ 64) (hs : s.script = byteLines (bytes ++ [b]) ++ rest) :
    ∃ u v, runSteps (bytes.length + 1 + 66 * ((s.pendingBuffer.length + bytes.length) / 64)) s = .next u ∧
      u.script = rest ∧ (u.phase = .busy ↔ (s.pendingBuffer.length + (bytes.length + 1)) % 64 = 0) ∧
      (u.task = .nothing ↔ (s.pendingBuffer.length + (bytes.length + 1)) % 64 ≠ 0) ∧
      u.complete = .next v ∧ Updated s (bytes ++ [b]) v ∧ v.script = rest := by
  rw [byteLines_concat] at hs
  obtain ⟨w, hrun, hupd, hscript⟩ := runSteps_byteLines bytes h hp ht hf (by omega) hs (waits_presentLine _ _)
  obtain ⟨u, v, hu, -, hcomplete, hupd', hscript'⟩ := updateByte_updates b rest hupd.inv hupd.idle hupd.nothing
    hupd.accumulating (by rw [hupd.total]; omega)
  obtain ⟨hbusy, hnothing⟩ := updateByte_busy_iff (s := { w with script := rest }) hupd.idle hu
  obtain ⟨-, -, hus⟩ := exec_sameTables hu
  have hlen : w.pendingBuffer.length = 63 ↔ (s.pendingBuffer.length + (bytes.length + 1)) % 64 = 0 := by
    rw [hupd.pending_length]
    omega
  refine ⟨u, v, ?_, hus, hbusy.trans hlen, hnothing.trans hlen.not, hcomplete, hupd.trans hupd', hscript'⟩
  rw [Nat.add_right_comm, runSteps_add, hrun, andThen_next, runSteps_one,
    step_presentLine hscript hupd.idle hupd.nothing (by simp), hu]

/-- `UPDATE` of a text is `UPDATE` of its bytes (R80). -/
theorem expandLine_update {line : ScriptLine} {bytes : List Byte}
    (h : line = .update bytes ∨
      ∃ text, line = .updateText text ∧ line.wf = true ∧ bytes.map BitVec.toNat = text.map Char.toNat) :
    expandLine line = updateLines bytes := by
  obtain rfl | ⟨text, rfl, -, hbytes⟩ := h
  · rfl
  · rw [expandLine, map_asciiByte_eq hbytes]

/-- Settles O60: the checks in one step; the bytes but the last, completed; the last one fed. -/
theorem updateLineFeedsByteByByte : Obligations.UpdateLineFeedsByteByByte := by
  intro s line bytes rest h ht hp hline hs
  rw [expandLine_update hline] at hs
  have hcheck := step_updateLines hp ht hs
  refine ⟨fun hf => ?_, fun hf => ?_, fun hf ho => ?_, fun hf he => ?_, fun hf hne ho => ?_⟩
  · rw [hcheck]
    simp [guardUpdate, guardPhase, hf, raise]
  · rw [hcheck]
    simp [guardUpdate, guardPhase, hf, raise]
  · rw [hcheck, guardUpdate_overflow (s := { s with script := byteLines bytes ++ rest }) _ _ hf ho]
  · subst he
    exact step_updateLines_accumulating (bytes := []) hp ht hf s.totalBitLength.isLt hs
  · obtain ⟨bs, b, rfl⟩ : ∃ bs b, bytes = bs ++ [b] :=
      ⟨bytes.dropLast, bytes.getLast hne, (List.dropLast_append_getLast hne).symm⟩
    rw [List.length_append, List.length_singleton] at ho
    obtain ⟨u, v, hrun, hus, hbusy, hnothing, hcomplete, hupd, hvs⟩ := runSteps_byteLines_last
      (s := { s with script := byteLines (bs ++ [b]) ++ rest }) bs b (inv_withScript h _) hp ht hf ho rfl
    have hvi : v.initSinceReset = true := hupd.inv.constructed_init (by simp [hupd.accumulating])
    refine ⟨u, v, ?_, hus, by simpa using hbusy, by simpa using hnothing, hcomplete, hupd.idle, hupd.nothing, hvs, hupd.H,
      hupd.pendingBuffer, hupd.total, hupd.accumulating, hupd.inv.ready_iff.2 hupd.idle,
      hupd.inv.digestValid_iff.2 ⟨hupd.idle, hvi⟩, hupd.IV, hupd.K, hupd.observed⟩
    have hsteps : 1 + (bs ++ [b]).length + 66 * ((s.pendingBuffer.length + (bs ++ [b]).length - 1) / 64) =
        1 + (bs.length + 1 + 66 * ((s.pendingBuffer.length + bs.length) / 64)) := by
      rw [List.length_append, List.length_singleton]
      omega
    rw [hsteps, runSteps_add, runSteps_one, step_updateLines_accumulating hp ht hf (by simpa using ho) hs, andThen_next,
      hrun]

/-! ### The line `HASH` -/

/-- `HASH` of a text is `HASH` of its bytes (R80). -/
theorem expandLine_hash {line : ScriptLine} {M : List Byte}
    (h : line = .hash M ∨
      ∃ text, line = .hashText text ∧ line.wf = true ∧ M.map BitVec.toNat = text.map Char.toNat) :
    expandLine line = hashLines M := by
  obtain rfl | ⟨text, rfl, -, hbytes⟩ := h
  · rfl
  · rw [expandLine, map_asciiByte_eq hbytes]

theorem updated_fresh {s u : State} {M : List Byte} (h : Updated s.constructed M u) :
    u.H = chain s.K s.IV M (M.length / 64) ∧ u.pendingBuffer = M.drop (64 * (M.length / 64)) ∧
      u.totalBitLength = BitVec.ofNat 64 (8 * M.length) := by
  refine ⟨by simpa using h.H, by simpa using h.pendingBuffer, BitVec.eq_of_toNat_eq ?_⟩
  have htotal : u.totalBitLength.toNat = 8 * M.length := by simpa using h.total
  rw [htotal, BitVec.toNat_ofNat, Nat.mod_eq_of_lt (htotal ▸ u.totalBitLength.isLt)]

/-- `CONSTRUCT` and `UPDATE M` as the first lines of a script, the line after them waiting: one step, one for the checks,
and the bytes. -/
theorem runSteps_construct_update {s : State} {M : List Byte} {rest : List HostLine} (h : Inv s) (ht : s.task = .nothing)
    (hp : s.phase = .idle) (hs : s.script = presentLine .construct :: (updateLines M ++ rest)) (hw : Waits rest)
    (hM : 8 * M.length < 2 ^ 64) :
    ∃ u, runSteps (2 + M.length + 66 * (M.length / 64)) s = .next u ∧ Updated s.constructed M u ∧ u.script = rest := by
  have hconstruct : step s = .next { s.constructed with script := updateLines M ++ rest } := by
    rw [step_presentLine hs hp ht (by simp), execConstruct_free (s := { s with script := updateLines M ++ rest }) ht,
      construct_idle (s := { s with script := updateLines M ++ rest }) hp]
    rfl
  have hcheck := step_updateLines_accumulating (s := { s.constructed with script := updateLines M ++ rest }) (bytes := M)
    hp rfl rfl (by simpa using hM) rfl
  obtain ⟨u, hrun, hupd, hus⟩ := runSteps_byteLines (s := { s.constructed with script := byteLines M ++ rest }) M
    (inv_withScript (inv_constructed h hp) _) hp rfl rfl (by simpa using hM) rfl hw
  refine ⟨u, ?_, hupd.of_withScript, hus⟩
  rw [Nat.add_assoc, runSteps_add, runSteps_succ, hconstruct, andThen_next, runSteps_one, hcheck, andThen_next]
  simpa using hrun

/-- A `FINALIZE` line and the wait after it (R120 to R129). -/
theorem runSteps_finalize_line {s : State} {rest : List HostLine} (h : Inv s) (ht : s.task = .nothing)
    (hp : s.phase = .idle) (hf : s.fePhase = .accumulating) (hs : s.script = presentLine .finalize :: rest)
    (hw : Waits rest) :
    ∃ u, runSteps (1 + 66 * if s.pendingBuffer.length ≤ 55 then 1 else 2) s = .next u ∧
      u.H = chain s.K s.H (s.pendingBuffer ++ padding s.pendingBuffer.length s.totalBitLength)
        (if s.pendingBuffer.length ≤ 55 then 1 else 2) ∧
      u.observed = s.observed ++ [.digestStr (digestString u.H)] ∧ framingRunOver u ∧ u.script = rest ∧ u.IV = s.IV ∧
      u.K = s.K := by
  have h' := inv_withScript h rest
  obtain ⟨H, regs, W, t, hH, hc⟩ := finalize_completes (s := { s with script := rest }) h' ht hp hf
  have hover := finalizeEndsTheRun _ _ hc
  obtain ⟨u, hu, hcomplete⟩ := completed_eq_next hc
  have hline := runSteps_operation_line hs hp ht (by simp) hw hu
  rw [execFinalize_turnsLeft (s := { s with script := rest }) hp hu, hcomplete] at hline
  exact ⟨_, hline, hH, rfl, hover, rfl, rfl, rfl⟩

/-- The zeros of the padding depend on the partial block only. -/
theorem padding_mod (n : Nat) (L : BitVec 64) : padding (n % 64) L = padding n L := by
  have hz : padZeros (n % 64) = padZeros n := by
    unfold padZeros
    omega
  rw [padding, padding, hz]

/-- R129: the blocks of the padded message are the whole blocks of the message, and those of its padded rest. -/
theorem chain_paddedMessage (K : Words64) (H : Words8) (M : List Byte) :
    chain K H (paddedMessage M) (M.length / 64) = chain K H M (M.length / 64) ∧
      chain K H (paddedMessage M) (blockCount M.length) =
        chain K (chain K H M (M.length / 64))
          (M.drop (64 * (M.length / 64)) ++ padding (M.length % 64) (BitVec.ofNat 64 (8 * M.length)))
          (if M.length % 64 ≤ 55 then 1 else 2) := by
  have hwhole : 64 * (M.length / 64) ≤ M.length := Nat.mul_div_le _ _
  have hfirst := chain_append K H M (padding M.length (BitVec.ofNat 64 (8 * M.length))) _ hwhole
  have hcount : blockCount M.length = M.length / 64 + if M.length % 64 ≤ 55 then 1 else 2 := by
    unfold blockCount
    split <;> rfl
  refine ⟨hfirst, ?_⟩
  rw [hcount, chain_add, paddedMessage, hfirst, List.drop_append_of_le_length hwhole, padding_mod]

/-- Settles O37: `CONSTRUCT` and `UPDATE M`, then `FINALIZE` on what is left of the message. -/
theorem hashReturnsDigestOfPaddedMessage : Obligations.HashReturnsDigestOfPaddedMessage := by
  intro s line M rest h ht hp hline hs hw hM
  have hs' : s.script = presentLine .construct :: (updateLines M ++ (presentLine .finalize :: rest)) := by
    rw [hs, expandLine_hash hline]
    simp [hashLines]
  obtain ⟨w, hrun, hupd, hscript⟩ := runSteps_construct_update h ht hp hs' (waits_presentLine _ _) hM
  obtain ⟨hH, hbuf, hL⟩ := updated_fresh hupd
  have hlen : w.pendingBuffer.length = M.length % 64 := by
    rw [hupd.pending_length, constructed_pendingBuffer, List.length_nil, Nat.zero_add]
  obtain ⟨hfirst, hall⟩ := chain_paddedMessage s.K s.IV M
  refine ⟨⟨w, hrun, hH.trans hfirst.symm, hbuf, occupied_eq_false.2 ⟨hupd.idle, hupd.nothing⟩⟩, ?_⟩
  obtain ⟨u, hrun', hH', hobs, hover, hus, hIV, hK⟩ :=
    runSteps_finalize_line hupd.inv hupd.nothing hupd.idle hupd.accumulating hscript hw
  have hKw : w.K = s.K := hupd.K
  rw [hlen] at hrun' hH'
  refine ⟨u, ?_, ?_, ?_, hover, hus, hIV.trans hupd.IV, hK.trans hupd.K⟩
  · have hsteps : 3 + M.length + 66 * blockCount M.length =
        (2 + M.length + 66 * (M.length / 64)) + (1 + 66 * if M.length % 64 ≤ 55 then 1 else 2) := by
      unfold blockCount
      split <;> omega
    rw [hsteps, runSteps_add, hrun, andThen_next, hrun']
  · rw [hH', hall, hKw, hH, hbuf, hL]
  · rw [hobs, hupd.observed, constructed_observed]

end Sys2Proof.Machine
end
